-- ==== Sys2Proof/Word.lean ====
section
/-! DEFINITION. The word and byte types of the engine: every register, status word, latch field and address is 32 bits
wide and address sums are modulo 2^32 (00_scope.md R10, 20_memory.md R61, D1). -/

namespace Sys2Proof

/-- A register, status word, address or latched instruction word. -/
abbrev Word := BitVec 32

/-- The smallest addressable unit of memory. -/
abbrev Byte := BitVec 8

/-- A fetched T16 instruction. -/
abbrev Half := BitVec 16

end Sys2Proof
end

