-- ==== Sys2Proof/Config.lean ====
section
/-! DEFINITION. What is fixed for the machine: the two processor identities and their capabilities (00_scope.md R2, R4),
the kinds of the parameters a platform fixes at construction (R9), and the parameters whose values the spec leaves open
and nothing in the engine reads back (costs, the coprocessor factory): these are opaque, with no body, so no proof can
rest on a value of them. The other free values, a memory collaborator's answers and an unknown handler's effects, stand
in Machine/State.lean beside the types they are about. -/

namespace Sys2Proof

/-- The processor identities: 0 the primary core, 1 the secondary core (R2). -/
inductive CoreId where
  | primary
  | secondary
  deriving DecidableEq, Repr, Inhabited

/-- HAS_FIQ (R9): fast-interrupt mode and its storage exist on the primary core only. -/
def CoreId.hasFiq : CoreId → Bool
  | .primary => true
  | .secondary => false

/-- HAS_SYSCTL (R9): the system-control coprocessor is installed on the primary core only. -/
def CoreId.hasSysctl : CoreId → Bool
  | .primary => true
  | .secondary => false

/-- The other core. -/
def CoreId.other : CoreId → CoreId
  | .primary => .secondary
  | .secondary => .primary

/-- One value for each processor identity. -/
structure PerCore (α : Type) where
  primary : α
  secondary : α
  deriving DecidableEq, Repr, Inhabited

def PerCore.get {α : Type} (x : PerCore α) : CoreId → α
  | .primary => x.primary
  | .secondary => x.secondary

def PerCore.set {α : Type} (x : PerCore α) (p : CoreId) (v : α) : PerCore α :=
  match p with
  | .primary => { x with primary := v }
  | .secondary => { x with secondary := v }

/-- MALFORMED_MODE_POLICY (R9, 40_bank_switch.md R130). -/
inductive MalformedModePolicy where
  | fault
  | noopSwap
  deriving DecidableEq, Repr, Inhabited

/-- MISALIGNED_FETCH_POLICY (R9, 41_prefetch.md R156). -/
inductive MisalignedFetchPolicy where
  | fault
  | passThrough
  deriving DecidableEq, Repr, Inhabited

/-- Which memory collaborator the engine is built with (00_scope.md R6, 20_memory.md R74): plain memory, which answers every
aligned access as 20_memory.md R62, R70 and R72 say, or an oracle, which may answer anything. Log 19. -/
inductive Collaborator where
  | plain
  | oracle
  deriving DecidableEq, Repr, Inhabited

/-- BYTE_ORDER (R9, 20_memory.md R64): how the memory collaborator assembles a word from bytes. -/
inductive ByteOrder where
  | little
  | big
  deriving DecidableEq, Repr, Inhabited

/-- The two fetch widths: four bytes for A32, two for T16 (20_memory.md R62). -/
inductive FetchWidth where
  | four
  | two
  deriving DecidableEq, Repr, Inhabited

/-- An opaque coprocessor handle (10_state.md R43): the engine never looks inside. -/
structure Handle where
  token : Nat
  deriving DecidableEq, Repr, Inhabited

/-- An opaque reference to the memory collaborator (10_state.md R44). -/
structure MemRef where
  token : Nat
  deriving DecidableEq, Repr, Inhabited

/-- IDLE_COST (R9, D20): fixed, value open. Log 12. -/
opaque Config.idleCost : Nat

/-- DEBUG_HALT_COST (R9, D20): fixed, value open. Log 12. -/
opaque Config.debugHaltCost : Nat

/-- REGION(p, a) (R9, D12): the address region of an address, open. Log 12. -/
opaque Config.region : CoreId → Word → Nat

/-- FETCH_COST(p, r, w) (R9, D12): the fetch cycles of a region and width, open. Log 12. -/
opaque Config.fetchCost : CoreId → Nat → FetchWidth → Nat

/-- createSystemControlCoprocessor(core) (R9, 10_state.md R43): the factory's handle, open. Log 13. -/
opaque Config.createSystemControlCoprocessor : CoreId → Handle

/-- The cycle count a fetch at `a` reports: FETCH_COST(p, REGION(p, a), w) (20_memory.md R63, 41_prefetch.md R152). -/
def Config.costOfFetch (p : CoreId) (a : Word) (w : FetchWidth) : Nat :=
  Config.fetchCost p (Config.region p a) w

end Sys2Proof
end

