-- ==== Sys2Proof/Machine/Handler.lean ====
section
/-! DEFINITION. The entries of the four dispatch tables as plain data (43_dispatch.md R210, R211; 30_encoding.md R95, R96).
What an opcode computes is outside the engine (00_scope.md R6): the tables are parameters, taken as given. An entry is a
script of the effects a handler may have on its core and on memory, performed in order by the engine's own services, or
`external`, an uninterpreted handler. An effect that breaks one of the obligations of R211 is a constructor of its own,
so that a breach is seen. Log 2, 3, 5. -/

namespace Sys2Proof.Machine

/-! ### Shadow storage and saved status slots -/

/-- The groups that hold an R13, R14 pair (10_state.md R26). -/
inductive PairGroup where
  | usr | svc | abt | und | irq
  deriving DecidableEq, Repr, Inhabited

/-- A register of such a pair. -/
inductive PairReg where
  | r13 | r14
  deriving DecidableEq, Repr, Inhabited

/-- The registers of the fast-interrupt group, core 0 only (R26). -/
inductive FiqReg where
  | r8 | r9 | r10 | r11 | r12 | r13 | r14
  deriving DecidableEq, Repr, Inhabited

/-- One shadow register (R26). -/
inductive Shadow where
  | pair (g : PairGroup) (r : PairReg)
  | fiq (r : FiqReg)
  deriving DecidableEq, Repr, Inhabited

/-- The saved status register slots (R36); `fiq` on core 0 only. -/
inductive SpsrSlot where
  | svc | abt | und | irq | fiq
  deriving DecidableEq, Repr, Inhabited

/-! ### Handler scripts -/

/-- The sizes of a handler's data accesses (00_scope.md R12). -/
inductive AccessWidth where
  | byte | half | word
  deriving DecidableEq, Repr, Inhabited

/-- The operators of operand expressions, on 32-bit words; a comparison answers 1 or 0. -/
inductive BinOp where
  | add | sub | mul | and | or | xor | shl | lshr | ashr | eq | ult | slt
  deriving DecidableEq, Repr, Inhabited

/-- What a handler may read without an access to memory: constants, its own local values, and the components of its Core
State as they are at that moment of the script (R210, R211). -/
inductive Expr where
  | const (v : Word)
  | loc (n : Nat)
  | reg (n : Expr)
  | cpsr
  | spsr
  | spsrOf (slot : SpsrSlot)
  | shadow (x : Shadow)
  | latchWord
  | latchAddr
  | nextFetch
  | vectorBase
  | halted
  | irqPending
  | bin (op : BinOp) (a b : Expr)
  | cond (c a b : Expr)
  deriving DecidableEq, Repr, Inhabited

/-- The engine operations a handler must not call (R211, obligation 3). -/
inductive EngineOp where
  | prefetch | step | reset | flagInterrupt | enterInterrupt
  deriving DecidableEq, Repr, Inhabited

/-- The components a handler must not write (R211, obligation 4). -/
inductive ProtectedField where
  | interruptVectorBase | coprocessorHandles | memoryInterface | irqPending | debugHalted | initialised
  deriving DecidableEq, Repr, Inhabited

/-- One effect of a handler. -/
inductive Action where
  /-- Keep a value for later in the same script. -/
  | setLoc (n : Nat) (v : Expr)
  /-- R[n[3:0]] <- v (R211). -/
  | setReg (n v : Expr)
  /-- CPSR <- v; a change of the mode field this way breaks obligation 2. -/
  | setCpsr (v : Expr)
  /-- The current saved status register <- v (10_state.md R36, R37). -/
  | setSpsr (v : Expr)
  /-- A saved status register of any mode <- v (10_state.md R36). -/
  | setSpsrOf (slot : SpsrSlot) (v : Expr)
  /-- A shadow register <- v. -/
  | setShadow (x : Shadow) (v : Expr)
  /-- nFA <- v: redirection (R212). -/
  | setNextFetch (v : Expr)
  /-- pI <- v: permitted, and overwritten by the closing prefetch (R211, obligation 5). -/
  | setLatchWord (v : Expr)
  /-- pIA <- v: permitted, and overwritten by the closing prefetch (R211, obligation 5). -/
  | setLatchAddr (v : Expr)
  /-- Call switchMode (R213); the mode it answers is kept as local `dst` (40_bank_switch.md R126). -/
  | switchMode (m : Expr) (dst : Nat)
  /-- A sized load (00_scope.md R12); what it returns is kept as local `dst`. -/
  | load (w : AccessWidth) (addr : Expr) (dst : Nat)
  /-- A sized store (00_scope.md R12). -/
  | store (w : AccessWidth) (addr v : Expr)
  /-- waitingForInterrupt <- true (R214). -/
  | halt
  /-- Add to additionalCycles (R210). -/
  | addCycles (v : Expr)
  /-- A breach of obligation 3. -/
  | callEngine (op : EngineOp)
  /-- A breach of obligation 4. -/
  | writeProtected (f : ProtectedField)
  deriving DecidableEq, Repr, Inhabited

/-- A handler's body. It has no unbounded loop, so it terminates (R211, obligation 1). -/
inductive Script where
  | done
  | act (a : Action)
  | seq (first second : Script)
  | branch (c : Expr) (ifNonzero ifZero : Script)
  deriving DecidableEq, Repr, Inhabited

/-- A dispatch table's entry: a script, or a handler of which nothing is known. -/
inductive Handler where
  | scripted (body : Script)
  | external
  deriving DecidableEq, Repr, Inhabited

/-- A dispatch table over `n`-bit indices. It is total: an index that nothing is assigned to resolves to the table's
handler for unassigned indices (30_encoding.md R96). Where an index is listed twice the first entry counts. -/
structure DispatchTable (n : Nat) where
  assigned : List (BitVec n × Handler)
  unassigned : Handler
  deriving DecidableEq, Repr, Inhabited

end Sys2Proof.Machine
end

