-- ==== Sys2Proof/Machine/HostCall.lean ====
section
/-! DEFINITION. What the host can ask of the engine between steps (00_scope.md R8; 60_exceptions.md R241, R243, R247, R261,
R262; 70_reset_and_hazards.md R292; 20_memory.md R70, R73), and what it gets back. Log 1, 16, 17. -/

namespace Sys2Proof.Machine

/-- The components of a Core State, by name, for the debug port (10_state.md R21, 60_exceptions.md R262). -/
inductive CoreField where
  | reg (n : Fin 16)
  | cpsr
  | spsr (slot : SpsrSlot)
  | shadow (x : Shadow)
  | pI
  | pIA
  | nFA
  | interruptVectorBase
  | waitingForInterrupt
  | irqPending
  | coprocessorHandle (k : Fin 16)
  | memoryInterface
  | debugHalted
  | initialised
  deriving DecidableEq, Repr, Inhabited

/-- The value of a component. -/
inductive FieldValue where
  | word (v : Word)
  | flag (b : Bool)
  | handle (h : Option Handle)
  | ref (m : MemRef)
  deriving DecidableEq, Repr, Inhabited

/-- A call of the host. -/
inductive HostCall where
  /-- The scheduler steps core `p` (43_dispatch.md R200). -/
  | step (p : CoreId)
  /-- Bring-up resets core `p` at `entryAddress` (70_reset_and_hazards.md R292). -/
  | reset (p : CoreId) (entryAddress : Word)
  /-- The interrupt source flags an IRQ (60_exceptions.md R241). -/
  | flagInterrupt (p : CoreId)
  /-- The interrupt source enters the IRQ directly (60_exceptions.md R243). -/
  | enterInterrupt (p : CoreId)
  /-- The debug port sets the halt toggle (60_exceptions.md R261). -/
  | debugHalt (p : CoreId) (on : Bool)
  /-- The debug port reads a component (60_exceptions.md R262). -/
  | debugRead (p : CoreId) (f : CoreField)
  /-- The debug port writes a component (60_exceptions.md R262). -/
  | debugWrite (p : CoreId) (f : CoreField) (v : Word)
  /-- The host stores a byte: loading a program (70_reset_and_hazards.md R295), or any other store (20_memory.md R73). -/
  | store (addr : Word) (v : Byte)
  deriving DecidableEq, Repr, Inhabited

/-- What an operation returns (00_scope.md R13): nothing, a cycle count, whether it was accepted, or a value read. -/
inductive CallResult where
  | nothing
  | cost (cycles : Nat)
  | accepted (b : Bool)
  | value (v : FieldValue)
  deriving DecidableEq, Repr, Inhabited

/-- One call of the debug notification hook: (address, isCompressedMode), and the core it is for (43_dispatch.md
R207). -/
structure Notification where
  core : CoreId
  address : Word
  compressed : Bool
  deriving DecidableEq, Repr, Inhabited

end Sys2Proof.Machine
end

