-- ==== Sys2Proof/Machine/State.lean ====
section
/-! DEFINITION. The state of the machine: the two Core States (10_state.md R20, R21), the memory they share (20_memory.md
R68), what a platform fixes at construction (00_scope.md R9), and the model's own fields for the host (log 1, 16). Plain
data throughout. -/

namespace Sys2Proof.Machine

/-! ### Reasons to stop -/

/-- The model-level faults of 00_scope.md R13. Each marks a run outside the document's contract, so each is safe: it
can only make a true claim unprovable. -/
inductive Fault where
  /-- Raised by switchMode when the mode left or entered is not legal, under the policy `fault` (40_bank_switch.md
  R130). Safe. -/
  | malformedMode
  /-- Raised by prefetch at an address that is no multiple of the fetch width, under the policy `fault`
  (41_prefetch.md R156). Safe. -/
  | misalignedFetch
  /-- Raised by every operation but reset on a core never reset (10_state.md R50). Safe. -/
  | notReset
  /-- Raised when a handler script breaks an obligation of 43_dispatch.md R211. Safe. -/
  | handlerContract
  /-- Raised by a debug-port write to anything but R[0] to R[14] (60_exceptions.md R262). Safe. -/
  | debugWriteRefused
  /-- Raised by a handler's access to the current SPSR in USR, SYS or a malformed mode (10_state.md R37). Safe. -/
  | noSpsr
  deriving DecidableEq, Repr

/-- Forms the spec gives no meaning (00_scope.md R13). -/
inductive Refusal where
  /-- An instruction without a meaning yet: raised only in exec's arms; no arm does so now. Safe. -/
  | notModelled (mnemonic : String)
  /-- Raised by a debug-port call on a core that has no control-plane attached (60_exceptions.md R261). Safe. Log 17. -/
  | noDebugPort
  /-- Raised by a handler's or the debug port's access to fast-interrupt storage on core 1, which has none
  (10_state.md R26, R36; 40_bank_switch.md R131). Safe. Log 17, 24. -/
  | absentStorage
  deriving DecidableEq, Repr

/-- An operation's stop, inside the machine. -/
inductive Stop where
  | fault (f : Fault)
  | refused (r : Refusal)
  deriving DecidableEq, Repr

/-! ### Memory -/

/-- The shared memory (20_memory.md R61, R68): cells at strictly rising addresses below 2^32, none holding what an
unlisted address reads as. -/
abbrev Memory := List Host.Cell

/-- What an unlisted address reads as. Log 6. -/
abbrev unlistedByte : Byte := 0

/-- The canonical form, above a bound that every listed address must reach. -/
def Memory.wfFrom : Nat → Memory → Bool
  | _, [] => true
  | lo, (a, b) :: rest =>
    decide (lo ≤ a) && decide (a < 2 ^ 32) && decide (b ≠ unlistedByte) && Memory.wfFrom (a + 1) rest

/-- The canonical form of memory. -/
def Memory.wf (m : Memory) : Bool := Memory.wfFrom 0 m

/-- What an access asks of the memory collaborator: an execute-access read of the engine (20_memory.md R62), or a
handler's sized load or store (00_scope.md R12). -/
inductive AccessKind where
  | fetch
  | load
  | store (v : Word)
  deriving DecidableEq, Repr, Inhabited

/-- One access to the memory collaborator, on behalf of a core (20_memory.md R60, R62). -/
structure Access where
  core : CoreId
  kind : AccessKind
  width : AccessWidth
  addr : Word
  deriving DecidableEq, Repr, Inhabited

/-- What an oracle answers to an access: the value read, and every byte of memory it changes (20_memory.md R67: side
effects are the collaborator's). -/
structure Answer where
  value : Word
  writes : List (Word × Byte)
  deriving DecidableEq, Repr, Inhabited

/-- The one memory behind both cores' references (20_memory.md R68). `asked` is the model's own: how many accesses an
oracle has answered, so that it may answer the same access otherwise the next time (log 19). -/
structure SharedMemory where
  bytes : Memory
  asked : Nat
  deriving DecidableEq, Repr, Inhabited

/-! ### Core State -/

/-- The R13, R14 shadows of one group (10_state.md R26). -/
structure BankPair where
  r13 : Word
  r14 : Word
  deriving DecidableEq, Repr, Inhabited

/-- The fast-interrupt group's shadows (10_state.md R26). -/
structure FiqBank where
  r8 : Word
  r9 : Word
  r10 : Word
  r11 : Word
  r12 : Word
  r13 : Word
  r14 : Word
  deriving DecidableEq, Repr, Inhabited

/-- The saved status registers (10_state.md R36). -/
structure SpsrFile where
  svc : Word
  abt : Word
  und : Word
  irq : Word
  fiq : Word
  deriving DecidableEq, Repr, Inhabited

/-- The Core State of one core (10_state.md R21). `bankFiq` and `spsrs.fiq` are core 0's; in core 1's record they are
inert zeros that nothing reads or writes (log 15). -/
structure Core where
  regs : Vector Word 16
  cpsr : Word
  spsrs : SpsrFile
  bankUsr : BankPair
  bankSvc : BankPair
  bankAbt : BankPair
  bankUnd : BankPair
  bankIrq : BankPair
  bankFiq : FiqBank
  pI : Word
  pIA : Word
  nFA : Word
  interruptVectorBase : Word
  waitingForInterrupt : Bool
  irqPending : Bool
  coprocessorHandles : Vector (Option Handle) 16
  memoryInterface : MemRef
  debugHalted : Bool
  initialised : Bool
  deriving DecidableEq, Repr

end Sys2Proof.Machine

namespace Sys2Proof

/-- A handler of which nothing is known: the effects it has on the core and memory it is called with, as a script. A
free value (00_scope.md R9: HANDLER32, HANDLER16). Arguments: the identity, whether the table is the T16 one, the
index, the core and the memory. Log 5. -/
opaque Config.externalHandler : CoreId → Bool → Nat → Machine.Core → Machine.SharedMemory → Machine.Script

/-- What an oracle of a memory collaborator answers (00_scope.md R6, R9: FETCH32, FETCH16; 20_memory.md R62, R74): any value,
with any side effect on memory. A free value. Arguments: how many accesses it has answered, the access, and what the
memory holds. Log 11, 19. -/
opaque Config.memoryOracle : Nat → Machine.Access → Machine.Memory → Machine.Answer

end Sys2Proof

namespace Sys2Proof.Machine

/-- What a platform fixes at construction and no operation writes (00_scope.md R4, R9; 70_reset_and_hazards.md R290,
R291). -/
structure Platform where
  vectorBase : PerCore Word
  debugAttached : PerCore Bool
  malformedMode : MalformedModePolicy
  misalignedFetch : MisalignedFetchPolicy
  collaborator : Collaborator
  byteOrder : ByteOrder
  handler32 : PerCore (DispatchTable 12)
  handler16 : PerCore (DispatchTable 10)
  deriving DecidableEq, Repr

/-! ### The machine -/

/-- The whole machine. `current`, `calls`, `result` and `notifications` are the model's own (log 1, 16). -/
structure State where
  cores : PerCore Core
  mem : SharedMemory
  platform : Platform
  current : CoreId
  calls : List HostCall
  result : CallResult
  notifications : List Notification
  deriving DecidableEq, Repr

/-- The Core State of a core. -/
def State.core (s : State) (p : CoreId) : Core := s.cores.get p

/-- Replace the Core State of a core. -/
def State.setCore (s : State) (p : CoreId) (c : Core) : State := { s with cores := s.cores.set p c }

/-- Replace the Core State of a core, and the memory. -/
def State.setCoreAndMem (s : State) (p : CoreId) (c : Core) (m : SharedMemory) : State :=
  { s with cores := s.cores.set p c, mem := m }

/-! ### Reset -/

/-- Every index resolves to a handler that does nothing (30_encoding.md R96). Log 4. -/
def emptyTable (n : Nat) : DispatchTable n := { assigned := [], unassigned := .scripted .done }

/-- The platform of State.reset: the spec's defaults and suggestions. Log 4, 7, 8, 9, 10, 19. -/
def Platform.suggested : Platform where
  vectorBase := { primary := 0xFFFF0000, secondary := 0x00000000 }
  debugAttached := { primary := false, secondary := false }
  malformedMode := .fault
  misalignedFetch := .fault
  collaborator := .plain
  byteOrder := .little
  handler32 := { primary := emptyTable 12, secondary := emptyTable 12 }
  handler16 := { primary := emptyTable 10, secondary := emptyTable 10 }

/-- Each core's own reference to the memory collaborator (10_state.md R44). Log 13. -/
def memRefOf : CoreId → MemRef
  | .primary => { token := 0 }
  | .secondary => { token := 1 }

/-- The handles after reset (10_state.md R43): the system-control coprocessor at index 15, on core 0 only. -/
def resetHandles (p : CoreId) : Vector (Option Handle) 16 :=
  match p.hasSysctl with
  | true => (Vector.replicate 16 none).set 15 (some (Config.createSystemControlCoprocessor p))
  | false => Vector.replicate 16 none

/-- A core right after `reset(0)` with nothing in memory: the values of 10_state.md R48. -/
def Core.afterReset (p : CoreId) (vectorBase : Word) : Core where
  regs := (Vector.replicate 16 0).set 15 8
  cpsr := 0x0000001F
  spsrs := ⟨0, 0, 0, 0, 0⟩
  bankUsr := ⟨0, 0⟩
  bankSvc := ⟨0, 0⟩
  bankAbt := ⟨0, 0⟩
  bankUnd := ⟨0, 0⟩
  bankIrq := ⟨0, 0⟩
  bankFiq := ⟨0, 0, 0, 0, 0, 0, 0⟩
  pI := 0
  pIA := 0
  nFA := 4
  interruptVectorBase := vectorBase
  waitingForInterrupt := false
  irqPending := false
  coprocessorHandles := resetHandles p
  memoryInterface := memRefOf p
  debugHalted := false
  initialised := true

/-- The machine right after both cores were reset at entry 0, nothing stored, nothing asked. Log 14. -/
def State.reset : State where
  cores :=
    { primary := Core.afterReset .primary (Platform.suggested.vectorBase.get .primary)
      secondary := Core.afterReset .secondary (Platform.suggested.vectorBase.get .secondary) }
  mem := { bytes := [], asked := 0 }
  platform := Platform.suggested
  current := .primary
  calls := []
  result := .nothing
  notifications := []

/-- A core as construction leaves it (70_reset_and_hazards.md R290): what is not given there is unreadable until the
first reset, and is zero here (log 23). -/
def Core.constructed (p : CoreId) (vectorBase : Word) : Core where
  regs := Vector.replicate 16 0
  cpsr := 0
  spsrs := ⟨0, 0, 0, 0, 0⟩
  bankUsr := ⟨0, 0⟩
  bankSvc := ⟨0, 0⟩
  bankAbt := ⟨0, 0⟩
  bankUnd := ⟨0, 0⟩
  bankIrq := ⟨0, 0⟩
  bankFiq := ⟨0, 0, 0, 0, 0, 0, 0⟩
  pI := 0
  pIA := 0
  nFA := 0
  interruptVectorBase := vectorBase
  waitingForInterrupt := false
  irqPending := false
  coprocessorHandles := Vector.replicate 16 none
  memoryInterface := memRefOf p
  debugHalted := false
  initialised := false

/-- The machine at construction of a platform: both cores constructed, neither reset (70_reset_and_hazards.md R290,
R295). -/
def State.constructed (pf : Platform) (mem : Memory) (calls : List HostCall) : State where
  cores :=
    { primary := Core.constructed .primary (pf.vectorBase.get .primary)
      secondary := Core.constructed .secondary (pf.vectorBase.get .secondary) }
  mem := { bytes := mem, asked := 0 }
  platform := pf
  current := .primary
  calls := calls
  result := .nothing
  notifications := []

end Sys2Proof.Machine
end

