-- ==== Sys2Proof/Syntax.lean ====
section
/-! DEFINITION. The engine's instructions are its dispatch classes (00_scope.md R7, 30_encoding.md R100): one constructor
per row of spec/opcode_table.json. `opHi` is bits 27:20, `opLo` bits 7:4 and `op16` bits 15:6, the fields the engine
reads (R91, R93). `mid` is bits 19:8 and `low` bits 3:0 (A32) or 5:0 (T16): the engine reads none of them (R99), so they
are plain numbers that are only carried, and WellFormed says they fit their places. -/

namespace Sys2Proof

/-- The sixteen condition values (42_condition.md R171 to R186). -/
inductive Cond where
  | eq | ne | cs | cc | mi | pl | vs | vc | hi | ls | ge | lt | gt | le | al | nv
  deriving DecidableEq, Repr, Inhabited

/-- The seventeen dispatch classes (30_encoding.md R100). -/
inductive Instr where
  | a32Eq (opHi : BitVec 8) (mid : Nat) (opLo : BitVec 4) (low : Nat)
  | a32Ne (opHi : BitVec 8) (mid : Nat) (opLo : BitVec 4) (low : Nat)
  | a32Cs (opHi : BitVec 8) (mid : Nat) (opLo : BitVec 4) (low : Nat)
  | a32Cc (opHi : BitVec 8) (mid : Nat) (opLo : BitVec 4) (low : Nat)
  | a32Mi (opHi : BitVec 8) (mid : Nat) (opLo : BitVec 4) (low : Nat)
  | a32Pl (opHi : BitVec 8) (mid : Nat) (opLo : BitVec 4) (low : Nat)
  | a32Vs (opHi : BitVec 8) (mid : Nat) (opLo : BitVec 4) (low : Nat)
  | a32Vc (opHi : BitVec 8) (mid : Nat) (opLo : BitVec 4) (low : Nat)
  | a32Hi (opHi : BitVec 8) (mid : Nat) (opLo : BitVec 4) (low : Nat)
  | a32Ls (opHi : BitVec 8) (mid : Nat) (opLo : BitVec 4) (low : Nat)
  | a32Ge (opHi : BitVec 8) (mid : Nat) (opLo : BitVec 4) (low : Nat)
  | a32Lt (opHi : BitVec 8) (mid : Nat) (opLo : BitVec 4) (low : Nat)
  | a32Gt (opHi : BitVec 8) (mid : Nat) (opLo : BitVec 4) (low : Nat)
  | a32Le (opHi : BitVec 8) (mid : Nat) (opLo : BitVec 4) (low : Nat)
  | a32Al (opHi : BitVec 8) (mid : Nat) (opLo : BitVec 4) (low : Nat)
  | a32Nv (opHi : BitVec 8) (mid : Nat) (opLo : BitVec 4) (low : Nat)
  | t16 (op16 : BitVec 10) (low : Nat)
  deriving DecidableEq, Repr, Inhabited

/-- The A32 class of a condition value, so that one statement can speak of all sixteen. -/
def Instr.a32 (c : Cond) (opHi : BitVec 8) (mid : Nat) (opLo : BitVec 4) (low : Nat) : Instr :=
  match c with
  | .eq => .a32Eq opHi mid opLo low
  | .ne => .a32Ne opHi mid opLo low
  | .cs => .a32Cs opHi mid opLo low
  | .cc => .a32Cc opHi mid opLo low
  | .mi => .a32Mi opHi mid opLo low
  | .pl => .a32Pl opHi mid opLo low
  | .vs => .a32Vs opHi mid opLo low
  | .vc => .a32Vc opHi mid opLo low
  | .hi => .a32Hi opHi mid opLo low
  | .ls => .a32Ls opHi mid opLo low
  | .ge => .a32Ge opHi mid opLo low
  | .lt => .a32Lt opHi mid opLo low
  | .gt => .a32Gt opHi mid opLo low
  | .le => .a32Le opHi mid opLo low
  | .al => .a32Al opHi mid opLo low
  | .nv => .a32Nv opHi mid opLo low

/-- The format: compressed (T16) or not (A32) (30_encoding.md R90). -/
def Instr.compressed : Instr → Bool
  | .a32Eq _ _ _ _ => false
  | .a32Ne _ _ _ _ => false
  | .a32Cs _ _ _ _ => false
  | .a32Cc _ _ _ _ => false
  | .a32Mi _ _ _ _ => false
  | .a32Pl _ _ _ _ => false
  | .a32Vs _ _ _ _ => false
  | .a32Vc _ _ _ _ => false
  | .a32Hi _ _ _ _ => false
  | .a32Ls _ _ _ _ => false
  | .a32Ge _ _ _ _ => false
  | .a32Lt _ _ _ _ => false
  | .a32Gt _ _ _ _ => false
  | .a32Le _ _ _ _ => false
  | .a32Al _ _ _ _ => false
  | .a32Nv _ _ _ _ => false
  | .t16 _ _ => true

end Sys2Proof
end

