-- ==== Sys2Proof/Machine/Flags.lean ====
section
/-! DEFINITION. The status register's fields (10_state.md R28 to R35) and the condition evaluator (42_condition.md). A
status word stays one word, so that the bits the document does not name are kept (R35). -/

namespace Sys2Proof.Machine

/-! ### Fields of a status word (R28) -/

/-- A word with one bit set to a value. -/
def setBit (w : Word) (k : Nat) (b : Bool) : Word :=
  match b with
  | true => w ||| (1#32 <<< k)
  | false => w &&& ~~~(1#32 <<< k)

/-- N, bit 31. -/
def flagN (w : Word) : Bool := w.getLsbD 31

/-- Z, bit 30. -/
def flagZ (w : Word) : Bool := w.getLsbD 30

/-- C, bit 29. -/
def flagC (w : Word) : Bool := w.getLsbD 29

/-- V, bit 28. -/
def flagV (w : Word) : Bool := w.getLsbD 28

/-- I, bit 7: IRQ disabled (R30). -/
def flagI (w : Word) : Bool := w.getLsbD 7

/-- F, bit 6: FIQ disabled, on core 0 (R31). -/
def flagF (w : Word) : Bool := w.getLsbD 6

/-- T, bit 5: compressed decode (R32). -/
def flagT (w : Word) : Bool := w.getLsbD 5

/-- The mode field, bits 4:0 (R33). -/
def modeField (w : Word) : BitVec 5 := w.setWidth 5

/-- A status word with I written. -/
def setFlagI (w : Word) (b : Bool) : Word := setBit w 7 b

/-- A status word with T written. -/
def setFlagT (w : Word) (b : Bool) : Word := setBit w 5 b

/-- A status word with the mode field written and bits 31:5 kept (40_bank_switch.md R125). -/
def setModeField (w : Word) (m : BitVec 5) : Word := (w &&& ~~~(0x1F#32)) ||| m.setWidth 32

/-- Bits 31:28 as the flags nibble: N bit 3, Z bit 2, C bit 1, V bit 0 (42_condition.md R170). -/
def flagsNibble (w : Word) : BitVec 4 := w.extractLsb' 28 4

/-! ### The condition evaluator (42_condition.md R170 to R189) -/

/-- Whether a condition holds of a flags nibble: the formulas of R171 to R186. -/
def condHolds (c : Cond) (f : BitVec 4) : Bool :=
  let n := f.getLsbD 3
  let z := f.getLsbD 2
  let c' := f.getLsbD 1
  let v := f.getLsbD 0
  match c with
  | .eq => z
  | .ne => !z
  | .cs => c'
  | .cc => !c'
  | .mi => n
  | .pl => !n
  | .vs => v
  | .vc => !v
  | .hi => c' && !z
  | .ls => !c' || z
  | .ge => n == v
  | .lt => n != v
  | .gt => !z && n == v
  | .le => z || n != v
  | .al => true
  | .nv => false

/-- `passes(cond, CPSR)` (R170): only bits 31:28 of the status word are read. -/
def passes (c : Cond) (cpsr : Word) : Bool := condHolds c (flagsNibble cpsr)

/-- The pass masks of R189: bit `f` is set when the condition passes at flags nibble `f`. -/
def condMask : Cond → BitVec 16
  | .eq => 0xF0F0
  | .ne => 0x0F0F
  | .cs => 0xCCCC
  | .cc => 0x3333
  | .mi => 0xFF00
  | .pl => 0x00FF
  | .vs => 0xAAAA
  | .vc => 0x5555
  | .hi => 0x0C0C
  | .ls => 0xF3F3
  | .ge => 0xAA55
  | .lt => 0x55AA
  | .gt => 0x0A05
  | .le => 0xF5FA
  | .al => 0xFFFF
  | .nv => 0x0000

end Sys2Proof.Machine
end

