-- ==== Sys2Proof/WellFormed.lean ====
section
/-! DEFINITION. Which instruction terms are instructions. Every pattern of the bits is one (30_encoding.md R97, R98), so
the checks are only that the bits the engine carries without reading them fit their places in the format (R91, R93). -/

namespace Sys2Proof

/-- Bits 19:8 and 3:0 of an A32 word fit twelve and four bits (30_encoding.md R91). -/
def a32OperandsFit (mid low : Nat) : Bool := decide (mid < 4096) && decide (low < 16)

/-- Bits 5:0 of a T16 halfword fit six bits (30_encoding.md R93). -/
def t16OperandsFit (low : Nat) : Bool := decide (low < 64)

def Instr.wellFormed : Instr → Bool
  | .a32Eq _ mid _ low => a32OperandsFit mid low
  | .a32Ne _ mid _ low => a32OperandsFit mid low
  | .a32Cs _ mid _ low => a32OperandsFit mid low
  | .a32Cc _ mid _ low => a32OperandsFit mid low
  | .a32Mi _ mid _ low => a32OperandsFit mid low
  | .a32Pl _ mid _ low => a32OperandsFit mid low
  | .a32Vs _ mid _ low => a32OperandsFit mid low
  | .a32Vc _ mid _ low => a32OperandsFit mid low
  | .a32Hi _ mid _ low => a32OperandsFit mid low
  | .a32Ls _ mid _ low => a32OperandsFit mid low
  | .a32Ge _ mid _ low => a32OperandsFit mid low
  | .a32Lt _ mid _ low => a32OperandsFit mid low
  | .a32Gt _ mid _ low => a32OperandsFit mid low
  | .a32Le _ mid _ low => a32OperandsFit mid low
  | .a32Al _ mid _ low => a32OperandsFit mid low
  | .a32Nv _ mid _ low => a32OperandsFit mid low
  | .t16 _ low => t16OperandsFit low

end Sys2Proof
end

