-- ==== Sys2Proof/Decode.lean ====
section
/-! DEFINITION. Decoding and encoding (30_encoding.md). The format is decided by CPSR.T, never by the instruction's bits
(R90), so the decoder takes it as an argument. `decodeLatch` classifies the latched word pI, which is what the engine
does at dispatch (R91, R93, R100); `decode` does the same from the bytes of memory. The encoder is written from the same
tables. -/

namespace Sys2Proof

/-! ### Fields of the latched word -/

/-- The condition field, bits 31:28 (R91). -/
def condField (w : Word) : BitVec 4 := w.extractLsb' 28 4

/-- `op_hi`, bits 27:20 (R91). -/
def opHiField (w : Word) : BitVec 8 := w.extractLsb' 20 8

/-- Bits 19:8, which the engine does not read (R91). -/
def midField (w : Word) : Nat := (w.extractLsb' 8 12).toNat

/-- `op_lo`, bits 7:4 (R91). -/
def opLoField (w : Word) : BitVec 4 := w.extractLsb' 4 4

/-- Bits 3:0, which the engine does not read (R91). -/
def lowField (w : Word) : Nat := (w.extractLsb' 0 4).toNat

/-- `op16`, bits 15:6 (R93). -/
def op16Field (w : Word) : BitVec 10 := w.extractLsb' 6 10

/-- Bits 5:0, which the engine does not read (R93). -/
def low16Field (w : Word) : Nat := (w.extractLsb' 0 6).toNat

/-! ### Condition values -/

/-- The condition of a four-bit condition field (42_condition.md R171 to R186). -/
def condOfField (f : BitVec 4) : Cond :=
  match f.toNat with
  | 0x0 => .eq
  | 0x1 => .ne
  | 0x2 => .cs
  | 0x3 => .cc
  | 0x4 => .mi
  | 0x5 => .pl
  | 0x6 => .vs
  | 0x7 => .vc
  | 0x8 => .hi
  | 0x9 => .ls
  | 0xA => .ge
  | 0xB => .lt
  | 0xC => .gt
  | 0xD => .le
  | 0xE => .al
  | _ => .nv

/-- The condition field's value of a condition (42_condition.md R171 to R186). -/
def fieldOfCond : Cond → BitVec 4
  | .eq => 0x0
  | .ne => 0x1
  | .cs => 0x2
  | .cc => 0x3
  | .mi => 0x4
  | .pl => 0x5
  | .vs => 0x6
  | .vc => 0x7
  | .hi => 0x8
  | .ls => 0x9
  | .ge => 0xA
  | .lt => 0xB
  | .gt => 0xC
  | .le => 0xD
  | .al => 0xE
  | .nv => 0xF

/-! ### Decoding -/

/-- The A32 class of a word (R91, R100): total, every word has one. -/
def decodeA32 (w : Word) : Instr :=
  Instr.a32 (condOfField (condField w)) (opHiField w) (midField w) (opLoField w) (lowField w)

/-- The T16 class of a latched halfword (R93, R100). Bits 31:16 are zero where the engine put it there (10_state.md
R38); they are not read. -/
def decodeT16 (w : Word) : Instr := .t16 (op16Field w) (low16Field w)

/-- The dispatch class of the latched word, by the instruction-set-select flag (R90). -/
def decodeLatch (compressed : Bool) (w : Word) : Instr :=
  match compressed with
  | false => decodeA32 w
  | true => decodeT16 w

/-- Why bytes decode to no instruction: there are too few of them for the format CPSR.T selects (R90). No pattern of
enough bytes is refused (R98). -/
inductive DecodeError where
  | truncated (needed present : Nat)
  deriving DecidableEq, Repr

/-- The four bytes of a word at rising addresses, put together in the platform's byte order (20_memory.md R64). -/
def assembleWord (order : ByteOrder) (b0 b1 b2 b3 : Byte) : Word :=
  match order with
  | .little => b3 ++ b2 ++ b1 ++ b0
  | .big => b0 ++ b1 ++ b2 ++ b3

/-- The two bytes of a halfword at rising addresses, in the platform's byte order (20_memory.md R64). -/
def assembleHalf (order : ByteOrder) (b0 b1 : Byte) : Half :=
  match order with
  | .little => b1 ++ b0
  | .big => b0 ++ b1

/-- Byte `k` of a word, counted from the least significant. -/
def byteOf (w : Word) (k : Nat) : Byte := w.extractLsb' (8 * k) 8

/-- The bytes of a word at rising addresses (20_memory.md R64). -/
def wordBytes (order : ByteOrder) (w : Word) : List Byte :=
  match order with
  | .little => [byteOf w 0, byteOf w 1, byteOf w 2, byteOf w 3]
  | .big => [byteOf w 3, byteOf w 2, byteOf w 1, byteOf w 0]

/-- The bytes of a halfword, given zero-extended, at rising addresses (20_memory.md R64). -/
def halfBytes (order : ByteOrder) (w : Word) : List Byte :=
  match order with
  | .little => [byteOf w 0, byteOf w 1]
  | .big => [byteOf w 1, byteOf w 0]

/-- Decode one instruction from bytes at rising addresses; the rest of the bytes is handed back (R90). -/
def decode (compressed : Bool) (order : ByteOrder) (bytes : List Byte) :
    Except DecodeError (Instr × List Byte) :=
  match compressed, bytes with
  | false, b0 :: b1 :: b2 :: b3 :: rest => .ok (decodeA32 (assembleWord order b0 b1 b2 b3), rest)
  | true, b0 :: b1 :: rest => .ok (decodeT16 ((assembleHalf order b0 b1).setWidth 32), rest)
  | false, short => .error (.truncated 4 short.length)
  | true, short => .error (.truncated 2 short.length)

/-! ### Encoding -/

/-- An A32 word from its fields (R91). -/
def encodeA32 (c : Cond) (opHi : BitVec 8) (mid : Nat) (opLo : BitVec 4) (low : Nat) : Word :=
  fieldOfCond c ++ opHi ++ BitVec.ofNat 12 mid ++ opLo ++ BitVec.ofNat 4 low

/-- A T16 halfword from its fields, zero-extended as the latch holds it (R93). -/
def encodeT16 (op16 : BitVec 10) (low : Nat) : Word :=
  (op16 ++ BitVec.ofNat 6 low : Half).setWidth 32

/-- The word of an instruction, as the latch holds it. -/
def encode : Instr → Word
  | .a32Eq opHi mid opLo low => encodeA32 .eq opHi mid opLo low
  | .a32Ne opHi mid opLo low => encodeA32 .ne opHi mid opLo low
  | .a32Cs opHi mid opLo low => encodeA32 .cs opHi mid opLo low
  | .a32Cc opHi mid opLo low => encodeA32 .cc opHi mid opLo low
  | .a32Mi opHi mid opLo low => encodeA32 .mi opHi mid opLo low
  | .a32Pl opHi mid opLo low => encodeA32 .pl opHi mid opLo low
  | .a32Vs opHi mid opLo low => encodeA32 .vs opHi mid opLo low
  | .a32Vc opHi mid opLo low => encodeA32 .vc opHi mid opLo low
  | .a32Hi opHi mid opLo low => encodeA32 .hi opHi mid opLo low
  | .a32Ls opHi mid opLo low => encodeA32 .ls opHi mid opLo low
  | .a32Ge opHi mid opLo low => encodeA32 .ge opHi mid opLo low
  | .a32Lt opHi mid opLo low => encodeA32 .lt opHi mid opLo low
  | .a32Gt opHi mid opLo low => encodeA32 .gt opHi mid opLo low
  | .a32Le opHi mid opLo low => encodeA32 .le opHi mid opLo low
  | .a32Al opHi mid opLo low => encodeA32 .al opHi mid opLo low
  | .a32Nv opHi mid opLo low => encodeA32 .nv opHi mid opLo low
  | .t16 op16 low => encodeT16 op16 low

/-- The bytes of an instruction in memory. -/
def encodeBytes (order : ByteOrder) (i : Instr) : List Byte :=
  match i.compressed with
  | false => wordBytes order (encode i)
  | true => halfBytes order (encode i)

/-! ### The opcode table's numbering -/

/-- The instruction this decoder reads from an instruction whose bits, numbered as spec/opcode_table.json numbers them,
are `w`: a row of at most 16 bits is a T16 halfword and one of at most 32 bits an A32 word. The bytes are laid out
in the byte order State.reset has (little-endian). -/
def decodeTableWord (nbits w : Nat) : Option Instr :=
  let bits : Word := BitVec.ofNat 32 w
  let answer :=
    if nbits ≤ 16 then decode true .little (halfBytes .little bits)
    else if nbits ≤ 32 then decode false .little (wordBytes .little bits)
    else .error (.truncated nbits 4)
  match answer with
  | .ok (i, _) => some i
  | .error _ => none

end Sys2Proof
end

