-- ==== Sys2Proof/Machine/Memory.lean ====
section
/-! DEFINITION. The memory collaborator (20_memory.md R60 to R68, R74; 00_scope.md R6). First its bytes: one byte read or
written, and the sized accesses built from it, so that byte order is decided once; addresses wrap modulo 2^32 (R61, D1).
Then what it answers to an access: plain memory's bytes, or whatever an oracle says. Last the accesses the engine and
the handlers make: the two fetches and the sized loads and stores (00_scope.md R12). -/

namespace Sys2Proof.Machine

/-- The byte at an address. -/
def Memory.read : Memory → Nat → Byte
  | [], _ => unlistedByte
  | (a, b) :: rest, x => if x = a then b else Memory.read rest x

/-- Memory with one byte changed, in canonical form. -/
def Memory.write : Memory → Nat → Byte → Memory
  | [], x, v => if v = unlistedByte then [] else [(x, v)]
  | (a, b) :: rest, x, v =>
    if x < a then (if v = unlistedByte then (a, b) :: rest else (x, v) :: (a, b) :: rest)
    else if x = a then (if v = unlistedByte then rest else (x, v) :: rest)
    else (a, b) :: Memory.write rest x v

/-- The byte at an address of the engine. -/
def Memory.byteAt (m : Memory) (a : Word) : Byte := m.read a.toNat

/-- Memory with the byte at an address of the engine changed. -/
def Memory.setByte (m : Memory) (a : Word) (v : Byte) : Memory := m.write a.toNat v

/-- The bytes of a list stored at rising addresses from `a`, modulo 2^32. -/
def Memory.setBytes (m : Memory) (a : Word) : List Byte → Memory
  | [] => m
  | b :: rest => Memory.setBytes (m.setByte a b) (a + 1) rest

/-- The four bytes from `a` as a word, in the platform's byte order (20_memory.md R64). -/
def Memory.wordAt (m : Memory) (order : ByteOrder) (a : Word) : Word :=
  assembleWord order (m.byteAt a) (m.byteAt (a + 1)) (m.byteAt (a + 2)) (m.byteAt (a + 3))

/-- The two bytes from `a` as a halfword, in the platform's byte order (20_memory.md R64). -/
def Memory.halfAt (m : Memory) (order : ByteOrder) (a : Word) : Half :=
  assembleHalf order (m.byteAt a) (m.byteAt (a + 1))

/-! ### Sized accesses to plain memory -/

/-- How many bytes a sized access touches. -/
def AccessWidth.bytes : AccessWidth → Nat
  | .byte => 1
  | .half => 2
  | .word => 4

/-- Whether an address is a multiple of the width. -/
def AccessWidth.aligned (w : AccessWidth) (a : Word) : Bool :=
  match w with
  | .byte => true
  | .half => a.setWidth 1 == 0#1
  | .word => a.setWidth 2 == 0#2

/-- The low bytes of a value, as many as the width, zero-extended. -/
def AccessWidth.narrow (w : AccessWidth) (v : Word) : Word :=
  match w with
  | .byte => (v.setWidth 8).setWidth 32
  | .half => (v.setWidth 16).setWidth 32
  | .word => v

/-- The bytes `a` to `a + n - 1` as a number, zero-extended. Log 18. -/
def Memory.load (m : Memory) (order : ByteOrder) (w : AccessWidth) (a : Word) : Word :=
  match w with
  | .byte => (m.byteAt a).setWidth 32
  | .half => (m.halfAt order a).setWidth 32
  | .word => m.wordAt order a

/-- The bytes a sized store of `v` lays down at rising addresses. -/
def storedBytes (order : ByteOrder) (w : AccessWidth) (v : Word) : List Byte :=
  match w with
  | .byte => [byteOf v 0]
  | .half => halfBytes order v
  | .word => wordBytes order v

/-- The low bytes of `v` stored from `a` on. Log 18. -/
def Memory.store (m : Memory) (order : ByteOrder) (w : AccessWidth) (a v : Word) : Memory :=
  m.setBytes a (storedBytes order w v)

/-! ### What the collaborator answers -/

/-- Bytes changed one after the other. -/
def Memory.setAll (m : Memory) : List (Word × Byte) → Memory
  | [] => m
  | (a, b) :: rest => Memory.setAll (m.setByte a b) rest

/-- Whether plain memory answers an access: under `plain`, where the address is a multiple of the width. Every other access is
an oracle's (41_prefetch.md R156: a passed-through fetch's result is the collaborator's own; 20_memory.md R60: so is a
handler's access). Log 11, 18, 19. -/
def Platform.answersPlain (pf : Platform) (x : Access) : Bool :=
  match pf.collaborator with
  | .plain => x.width.aligned x.addr
  | .oracle => false

/-- What the oracle answers to its next access. -/
def SharedMemory.answer (m : SharedMemory) (x : Access) : Answer := Config.memoryOracle m.asked x m.bytes

/-- The memory after the oracle has answered an access: its side effects are done, once (20_memory.md R67). -/
def SharedMemory.answered (m : SharedMemory) (x : Access) : SharedMemory :=
  { bytes := m.bytes.setAll (m.answer x).writes, asked := m.asked + 1 }

/-- An access that reads: the value and the memory it leaves. Plain memory answers its latest bytes and is unchanged
(20_memory.md R62, R70); an oracle answers anything (R74). -/
def SharedMemory.read (m : SharedMemory) (pf : Platform) (x : Access) : Word × SharedMemory :=
  match pf.answersPlain x with
  | true => (m.bytes.load pf.byteOrder x.width x.addr, m)
  | false => (x.width.narrow (m.answer x).value, m.answered x)

/-- An access that stores `v`: the memory it leaves. -/
def SharedMemory.write (m : SharedMemory) (pf : Platform) (x : Access) (v : Word) : SharedMemory :=
  match pf.answersPlain x with
  | true => { m with bytes := m.bytes.store pf.byteOrder x.width x.addr v }
  | false => m.answered x

/-! ### The accesses the engine and the handlers make -/

/-- FETCH32(p, a) without its cost (20_memory.md R62). -/
def fetch32 (pf : Platform) (p : CoreId) (m : SharedMemory) (a : Word) : Word × SharedMemory :=
  m.read pf { core := p, kind := .fetch, width := .word, addr := a }

/-- FETCH16(p, a) without its cost (20_memory.md R62). -/
def fetch16 (pf : Platform) (p : CoreId) (m : SharedMemory) (a : Word) : Half × SharedMemory :=
  ((m.read pf { core := p, kind := .fetch, width := .half, addr := a }).1.setWidth 16,
    (m.read pf { core := p, kind := .fetch, width := .half, addr := a }).2)

/-- MemRead(addr, n) of a handler (00_scope.md R12). -/
def memRead (pf : Platform) (p : CoreId) (m : SharedMemory) (w : AccessWidth) (a : Word) : Word × SharedMemory :=
  m.read pf { core := p, kind := .load, width := w, addr := a }

/-- MemWrite(addr, n, v) of a handler (00_scope.md R12). -/
def memWrite (pf : Platform) (p : CoreId) (m : SharedMemory) (w : AccessWidth) (a v : Word) : SharedMemory :=
  m.write pf { core := p, kind := .store v, width := w, addr := a } v

end Sys2Proof.Machine
end

