-- ==== Sys2Proof/Machine/Operands.lean ====
section
/-! DEFINITION. Access to the registers by name (10_state.md R22 to R38), the modes and their groups (R33, R34; 40_bank_switch.md
R121), the dispatch indices (30_encoding.md R92, R93, R95), and the operand expressions of handler scripts
(43_dispatch.md R210). -/

namespace Sys2Proof.Machine

/-! ### General registers (R22) -/

/-- Visible register R[i]. -/
def Core.reg (c : Core) (i : Fin 16) : Word := c.regs[i]

/-- Write visible register R[i]. No register is hardwired. -/
def Core.setReg (c : Core) (i : Fin 16) (v : Word) : Core := { c with regs := c.regs.set i v }

/-- The register number a script computes: its low four bits. -/
def regNumber (v : Word) : Fin 16 := Fin.ofNat 16 v.toNat

/-! ### Shadow registers (R26) -/

/-- The shadow pair of a group. -/
def Core.pair (c : Core) : PairGroup → BankPair
  | .usr => c.bankUsr
  | .svc => c.bankSvc
  | .abt => c.bankAbt
  | .und => c.bankUnd
  | .irq => c.bankIrq

/-- Write the shadow pair of a group. -/
def Core.setPair (c : Core) (g : PairGroup) (b : BankPair) : Core :=
  match g with
  | .usr => { c with bankUsr := b }
  | .svc => { c with bankSvc := b }
  | .abt => { c with bankAbt := b }
  | .und => { c with bankUnd := b }
  | .irq => { c with bankIrq := b }

def BankPair.get (b : BankPair) : PairReg → Word
  | .r13 => b.r13
  | .r14 => b.r14

def BankPair.set (b : BankPair) (r : PairReg) (v : Word) : BankPair :=
  match r with
  | .r13 => { b with r13 := v }
  | .r14 => { b with r14 := v }

def FiqBank.get (b : FiqBank) : FiqReg → Word
  | .r8 => b.r8
  | .r9 => b.r9
  | .r10 => b.r10
  | .r11 => b.r11
  | .r12 => b.r12
  | .r13 => b.r13
  | .r14 => b.r14

def FiqBank.set (b : FiqBank) (r : FiqReg) (v : Word) : FiqBank :=
  match r with
  | .r8 => { b with r8 := v }
  | .r9 => { b with r9 := v }
  | .r10 => { b with r10 := v }
  | .r11 => { b with r11 := v }
  | .r12 => { b with r12 := v }
  | .r13 => { b with r13 := v }
  | .r14 => { b with r14 := v }

/-- Read a shadow register of core `p`: none where the core has no such storage (R26). -/
def Core.shadow (p : CoreId) (c : Core) : Shadow → Option Word
  | .pair g r => some ((c.pair g).get r)
  | .fiq r => if p.hasFiq then some (c.bankFiq.get r) else none

/-- Write a shadow register of core `p`: none where the core has no such storage (R26). -/
def Core.setShadow (p : CoreId) (c : Core) (x : Shadow) (v : Word) : Option Core :=
  match x with
  | .pair g r => some (c.setPair g ((c.pair g).set r v))
  | .fiq r => if p.hasFiq then some { c with bankFiq := c.bankFiq.set r v } else none

/-! ### Modes (R33, R34) and groups (40_bank_switch.md R121) -/

/-- The seven modes. -/
inductive Mode where
  | usr | fiq | irq | svc | abt | und | sys
  deriving DecidableEq, Repr

/-- The mode field's value of a mode (R33). -/
def Mode.bits : Mode → BitVec 5
  | .usr => 0x10
  | .fiq => 0x11
  | .irq => 0x12
  | .svc => 0x13
  | .abt => 0x17
  | .und => 0x1B
  | .sys => 0x1F

/-- The legal mode a mode field stands for on core `p`: none for a malformed value (R34). -/
def modeOf (p : CoreId) (m : BitVec 5) : Option Mode :=
  match m.toNat with
  | 0x10 => some .usr
  | 0x11 => if p.hasFiq then some .fiq else none
  | 0x12 => some .irq
  | 0x13 => some .svc
  | 0x17 => some .abt
  | 0x1B => some .und
  | 0x1F => some .sys
  | _ => none

/-- A register group: one of the R13, R14 pairs, or the fast-interrupt group (R26). -/
inductive Group where
  | pair (g : PairGroup)
  | fiq
  deriving DecidableEq, Repr

/-- The group a mode uses (R26). -/
def Mode.group : Mode → Group
  | .usr => .pair .usr
  | .fiq => .fiq
  | .irq => .pair .irq
  | .svc => .pair .svc
  | .abt => .pair .abt
  | .und => .pair .und
  | .sys => .pair .usr

/-- `group(m)` of 40_bank_switch.md R121: none is its `malformed`. -/
def groupOf (p : CoreId) (m : BitVec 5) : Option Group := (modeOf p m).map Mode.group

/-- `legal(p, m)` of 40_bank_switch.md R121. -/
def legalMode (p : CoreId) (m : BitVec 5) : Bool := (groupOf p m).isSome

/-! ### Saved status registers (R36, R37) -/

/-- The slot of a mode: USER and SYSTEM have none (R36). -/
def Mode.slot : Mode → Option SpsrSlot
  | .usr => none
  | .fiq => some .fiq
  | .irq => some .irq
  | .svc => some .svc
  | .abt => some .abt
  | .und => some .und
  | .sys => none

/-- The slot of the current mode: none in USR, SYS or a malformed mode (R37). -/
def currentSlot (p : CoreId) (c : Core) : Option SpsrSlot :=
  (modeOf p (modeField c.cpsr)).bind Mode.slot

def SpsrFile.get (f : SpsrFile) : SpsrSlot → Word
  | .svc => f.svc
  | .abt => f.abt
  | .und => f.und
  | .irq => f.irq
  | .fiq => f.fiq

def SpsrFile.set (f : SpsrFile) (s : SpsrSlot) (v : Word) : SpsrFile :=
  match s with
  | .svc => { f with svc := v }
  | .abt => { f with abt := v }
  | .und => { f with und := v }
  | .irq => { f with irq := v }
  | .fiq => { f with fiq := v }

/-- Whether core `p` has a slot (R36). -/
def hasSlot (p : CoreId) : SpsrSlot → Bool
  | .svc => true
  | .abt => true
  | .und => true
  | .irq => true
  | .fiq => p.hasFiq

/-! ### Dispatch indices and tables (30_encoding.md R92, R93, R95, R96) -/

/-- `index32`: op_hi above op_lo, 12 bits (R92). -/
def index32 (opHi : BitVec 8) (opLo : BitVec 4) : BitVec 12 := opHi ++ opLo

/-- `index16`: op16, 10 bits (R93). -/
def index16 (op16 : BitVec 10) : BitVec 10 := op16

/-- The first entry of a list of entries for an index. -/
def lookupEntry {n : Nat} (i : BitVec n) : List (BitVec n × Handler) → Option Handler
  | [] => none
  | (k, h) :: rest => if i = k then some h else lookupEntry i rest

/-- The handler an index resolves to: total (R96). -/
def DispatchTable.handlerAt {n : Nat} (t : DispatchTable n) (i : BitVec n) : Handler :=
  match lookupEntry i t.assigned with
  | some h => h
  | none => t.unassigned

/-! ### Operand expressions of handler scripts (43_dispatch.md R210) -/

/-- A handler under way: the core and memory it has made so far, its local values (latest first), and the cycles it
has added. -/
structure HandlerRun where
  core : Core
  mem : SharedMemory
  locals : List (Nat × Word)
  cycles : Nat
  deriving DecidableEq, Repr

/-- A local value: zero before it is kept. -/
def localValue : List (Nat × Word) → Nat → Word
  | [], _ => 0
  | (k, v) :: rest, n => if n = k then v else localValue rest n

/-- 1 or 0. -/
def wordOfBool (b : Bool) : Word :=
  match b with
  | true => 1
  | false => 0

/-- The operators. -/
def BinOp.apply (op : BinOp) (a b : Word) : Word :=
  match op with
  | .add => a + b
  | .sub => a - b
  | .mul => a * b
  | .and => a &&& b
  | .or => a ||| b
  | .xor => a ^^^ b
  | .shl => a <<< min b.toNat 32
  | .lshr => a >>> min b.toNat 32
  | .ashr => a.sshiftRight (min b.toNat 32)
  | .eq => wordOfBool (a == b)
  | .ult => wordOfBool (a.ult b)
  | .slt => wordOfBool (a.slt b)

/-- The current saved status register (R36): Fault(NoSPSR) where there is none (R37). -/
def readSpsr (p : CoreId) (c : Core) : Except Stop Word :=
  match currentSlot p c with
  | some s => .ok (c.spsrs.get s)
  | none => .error (.fault .noSpsr)

/-- The value of an operand expression of core `p`. -/
def Expr.eval (p : CoreId) (r : HandlerRun) : Expr → Except Stop Word
  | .const v => .ok v
  | .loc n => .ok (localValue r.locals n)
  | .reg n =>
    match Expr.eval p r n with
    | .ok k => .ok (r.core.reg (regNumber k))
    | .error e => .error e
  | .cpsr => .ok r.core.cpsr
  | .spsr => readSpsr p r.core
  | .spsrOf slot =>
    if hasSlot p slot then .ok (r.core.spsrs.get slot) else .error (.refused .absentStorage)
  | .shadow x =>
    match r.core.shadow p x with
    | some v => .ok v
    | none => .error (.refused .absentStorage)
  | .latchWord => .ok r.core.pI
  | .latchAddr => .ok r.core.pIA
  | .nextFetch => .ok r.core.nFA
  | .vectorBase => .ok r.core.interruptVectorBase
  | .halted => .ok (wordOfBool r.core.waitingForInterrupt)
  | .irqPending => .ok (wordOfBool r.core.irqPending)
  | .bin op a b =>
    match Expr.eval p r a with
    | .error e => .error e
    | .ok x =>
      match Expr.eval p r b with
      | .ok y => .ok (op.apply x y)
      | .error e => .error e
  | .cond c a b =>
    match Expr.eval p r c with
    | .error e => .error e
    | .ok x => if x = 0 then Expr.eval p r b else Expr.eval p r a

end Sys2Proof.Machine
end

