-- ==== Sys2Proof/Machine/Ops.lean ====
section
/-! DEFINITION. The engine's shared operations, on one core: the Register Bank Manager's switchMode (40_bank_switch.md), the
Fetch/Prefetch Unit's prefetch (41_prefetch.md), taking an interrupt and returning from one (60_exceptions.md), reset
(70_reset_and_hazards.md R292), running a handler script under its contract (43_dispatch.md R211), and completing a
step (R207 to R209). -/

namespace Sys2Proof.Machine

/-! ### switchMode (40_bank_switch.md R120 to R131) -/

/-- Exchange R[8] to R[12] with the fast-interrupt shadows (R124). -/
def exchangeFiq (c : Core) : Core :=
  { c with
    regs := ((((c.regs.set 8 c.bankFiq.r8).set 9 c.bankFiq.r9).set 10 c.bankFiq.r10).set 11 c.bankFiq.r11).set 12
      c.bankFiq.r12
    bankFiq :=
      { c.bankFiq with r8 := c.regs[8], r9 := c.regs[9], r10 := c.regs[10], r11 := c.regs[11], r12 := c.regs[12] } }

/-- The save phase, for the group of the mode being left; none is `malformed` (R122). -/
def saveBank (g : Option Group) (c : Core) : Core :=
  match g with
  | none => c
  | some (.pair g) => c.setPair g { r13 := c.reg 13, r14 := c.reg 14 }
  | some .fiq =>
    { exchangeFiq c with bankFiq := { (exchangeFiq c).bankFiq with r13 := c.reg 13, r14 := c.reg 14 } }

/-- The restore phase, for the group of the mode being entered; none is `malformed` (R123). -/
def restoreBank (g : Option Group) (c : Core) : Core :=
  match g with
  | none => c
  | some (.pair g) => (c.setReg 13 (c.pair g).r13).setReg 14 (c.pair g).r14
  | some .fiq => ((exchangeFiq c).setReg 13 c.bankFiq.r13).setReg 14 c.bankFiq.r14

/-- Write the mode field and nothing else of the status register (R125). -/
def writeMode (m : BitVec 5) (c : Core) : Core := { c with cpsr := setModeField c.cpsr m }

/-- The three phases: save, restore, mode write (R120, R122, R123, R125). -/
def bankSwap (p : CoreId) (new : BitVec 5) (c : Core) : Core :=
  writeMode new (restoreBank (groupOf p new) (saveBank (groupOf p (modeField c.cpsr)) c))

/-- Whether a switch between two mode values is made: where malformed modes are trapped, only between legal ones (R130). -/
def switchAllowed (policy : MalformedModePolicy) (p : CoreId) (old new : BitVec 5) : Bool :=
  match policy with
  | .noopSwap => true
  | .fault => legalMode p old && legalMode p new

/-- `switchMode(core, newMode) -> oldMode` (R120): only bits 4:0 of the new mode are used; a mode that is not legal, left
or entered, faults under the policy `fault` (R130), and otherwise its phase does nothing. The result is the mode before
the call (R126). -/
def switchMode (policy : MalformedModePolicy) (p : CoreId) (newMode : Word) (c : Core) :
    Except Stop (BitVec 5 × Core) :=
  match switchAllowed policy p (modeField c.cpsr) (modeField newMode) with
  | true => .ok (modeField c.cpsr, bankSwap p (modeField newMode) c)
  | false => .error (.fault .malformedMode)

/-! ### prefetch (41_prefetch.md R150 to R159) -/

/-- The width of an instruction, by T: four bytes or two (30_encoding.md R90). -/
def instrWidth (t : Bool) : Word :=
  match t with
  | false => 4
  | true => 2

/-- The fetch width, by T (R154). -/
def fetchWidth (t : Bool) : FetchWidth :=
  match t with
  | false => .four
  | true => .two

/-- Whether an address is a multiple of the fetch width (R156). -/
def fetchAligned (t : Bool) (a : Word) : Bool :=
  match t with
  | false => AccessWidth.word.aligned a
  | true => AccessWidth.half.aligned a

/-- What the latch receives: the word, or the halfword zero-extended (10_state.md R38). -/
def fetchLatched (pf : Platform) (p : CoreId) (m : SharedMemory) (t : Bool) (a : Word) : Word :=
  match t with
  | false => (fetch32 pf p m a).1
  | true => (fetch16 pf p m a).1.setWidth 32

/-- The memory the one fetch of a prefetch leaves (20_memory.md R67). -/
def fetchLeaves (pf : Platform) (p : CoreId) (m : SharedMemory) (t : Bool) (a : Word) : SharedMemory :=
  match t with
  | false => (fetch32 pf p m a).2
  | true => (fetch16 pf p m a).2

/-- Fill the latch from nFA with an instruction of width `w`: pI, pIA, nFA and R[15] (R150, R151). -/
def Core.fillLatch (c : Core) (v w : Word) : Core :=
  { c with pI := v, pIA := c.nFA, nFA := c.nFA + w, regs := c.regs.set 15 (c.nFA + w + w) }

/-- Whether the fetch address may be handed to the collaborator (R156). -/
def fetchAllowed (pf : Platform) (c : Core) : Bool :=
  match pf.misalignedFetch with
  | .passThrough => true
  | .fault => fetchAligned (flagT c.cpsr) c.nFA

/-- The core after a prefetch: the width is chosen by T at that moment (R150, R151, R154). -/
def prefetched (pf : Platform) (p : CoreId) (m : SharedMemory) (c : Core) : Core :=
  c.fillLatch (fetchLatched pf p m (flagT c.cpsr) c.nFA) (instrWidth (flagT c.cpsr))

/-- The memory after a prefetch: what its fetch leaves. -/
def prefetchedMem (pf : Platform) (p : CoreId) (m : SharedMemory) (c : Core) : SharedMemory :=
  fetchLeaves pf p m (flagT c.cpsr) c.nFA

/-- The cost a prefetch returns (R152). -/
def prefetchCost (p : CoreId) (c : Core) : Nat := Config.costOfFetch p c.nFA (fetchWidth (flagT c.cpsr))

/-- `prefetch(core) -> cycleCost` (R150, R151, R152, R156): the core and memory it leaves, and the cost. -/
def prefetch (pf : Platform) (p : CoreId) (m : SharedMemory) (c : Core) : Except Stop (Core × SharedMemory × Nat) :=
  match fetchAllowed pf c with
  | true => .ok (prefetched pf p m c, prefetchedMem pf p m c, prefetchCost p c)
  | false => .error (.fault .misalignedFetch)

/-! ### Taking an interrupt (60_exceptions.md R241 to R248) -/

/-- The offset of the IRQ vector (R246). -/
def irqVectorOffset : Word := 0x18

/-- What entry writes between the mode switch and its prefetch (R243): `before` is the core as it was, `c` the core in
IRQ mode. The link register (R244), the saved status (R245), T, I, the vector (R246), the halt and the request. -/
def irqEntryWrites (before c : Core) : Core :=
  { c.setReg 14 (before.pIA + 4) with
    spsrs := { c.spsrs with irq := before.cpsr }
    cpsr := setFlagI (setFlagT c.cpsr false) true
    nFA := c.interruptVectorBase + irqVectorOffset
    waitingForInterrupt := false
    irqPending := false }

/-- `enterInterrupt(core) -> accepted` (R242, R243), with the core and memory it leaves; the cost of its prefetch is
discarded (D22). -/
def enterInterrupt (pf : Platform) (p : CoreId) (m : SharedMemory) (c : Core) : Except Stop (Bool × Core × SharedMemory) :=
  if c.initialised = false then .error (.fault .notReset)
  else if flagI c.cpsr = true then .ok (false, c, m)
  else
    match switchMode pf.malformedMode p 0x12 c with
    | .error e => .error e
    | .ok (_, inIrq) =>
      match prefetch pf p m (irqEntryWrites c inIrq) with
      | .error e => .error e
      | .ok (entered, m', _) => .ok (true, entered, m')

/-- `flagInterrupt(core) -> accepted` (R241). -/
def flagInterrupt (c : Core) : Except Stop (Bool × Core) :=
  if c.initialised = false then .error (.fault .notReset)
  else if flagI c.cpsr = true then .ok (false, c)
  else .ok (true, { c with waitingForInterrupt := false, irqPending := true })

/-- The exception state machine's state, derived from the core (R240). -/
inductive ExceptionState where
  | running | irqPending | inException
  deriving DecidableEq, Repr

def exceptionState (c : Core) : ExceptionState :=
  if c.irqPending then .irqPending
  else if modeField c.cpsr = Mode.irq.bits then .inException
  else .running

/-! ### Returning from an exception, and writing a status word, as handlers do them (R252; 43_dispatch.md R213) -/

/-- Write the whole status word `v` with a new mode: switchMode(v[4:0]), then the other bits (43_dispatch.md R213).
Local 0 keeps the word, local 1 the prior mode. -/
def writeStatusScript (v : Expr) : Script :=
  .seq (.act (.setLoc 0 v)) (.seq (.act (.switchMode (.loc 0) 1)) (.act (.setCpsr (.loc 0))))

/-- Return from an exception to the address `target`, which is read before the mode changes: the saved status of the
current mode becomes the status word, and control goes to the address (R252). -/
def exceptionReturnScript (target : Expr) : Script :=
  .seq (.act (.setLoc 2 target)) (.seq (writeStatusScript .spsr) (.act (.setNextFetch (.loc 2))))

/-! ### Reset (70_reset_and_hazards.md R292) -/

/-- A core with everything reset writes before its prefetch; memoryInterface and debugHalted stay (R292). -/
def resetWrites (p : CoreId) (vectorBase entryAddress : Word) (c : Core) : Core where
  regs := Vector.replicate 16 0
  cpsr := 0x0000001F
  spsrs := ⟨0, 0, 0, 0, 0⟩
  bankUsr := ⟨0, 0⟩
  bankSvc := ⟨0, 0⟩
  bankAbt := ⟨0, 0⟩
  bankUnd := ⟨0, 0⟩
  bankIrq := ⟨0, 0⟩
  bankFiq := ⟨0, 0, 0, 0, 0, 0, 0⟩
  pI := c.pI
  pIA := c.pIA
  nFA := entryAddress
  interruptVectorBase := vectorBase
  waitingForInterrupt := false
  irqPending := false
  coprocessorHandles := resetHandles p
  memoryInterface := c.memoryInterface
  debugHalted := c.debugHalted
  initialised := true

/-- `reset(entryAddress)` (R292): the core and memory it leaves; the cost of its prefetch is discarded (D31). -/
def resetCore (pf : Platform) (p : CoreId) (m : SharedMemory) (entryAddress : Word) (c : Core) :
    Except Stop (Core × SharedMemory) :=
  match prefetch pf p m (resetWrites p (pf.vectorBase.get p) entryAddress c) with
  | .error e => .error e
  | .ok (c', m', _) => .ok (c', m')

/-! ### Handler scripts under their contract (43_dispatch.md R210 to R214) -/

/-- Write the whole status word; a change of the mode field breaks obligation 2 (R211). -/
def writeCpsr (c : Core) (v : Word) : Except Stop Core :=
  if modeField v = modeField c.cpsr then .ok { c with cpsr := v } else .error (.fault .handlerContract)

/-- Write the current saved status register (10_state.md R36); Fault(NoSPSR) where there is none (R37). -/
def writeSpsr (p : CoreId) (c : Core) (v : Word) : Except Stop Core :=
  match currentSlot p c with
  | some s => .ok { c with spsrs := c.spsrs.set s v }
  | none => .error (.fault .noSpsr)

/-- One effect of a handler of core `p`, its operand values computed before it writes. -/
def Action.perform (pf : Platform) (p : CoreId) (a : Action) (r : HandlerRun) : Except Stop HandlerRun :=
  match a with
  | .setLoc n e =>
    match e.eval p r with
    | .error x => .error x
    | .ok v => .ok { r with locals := (n, v) :: r.locals }
  | .setReg n e =>
    match n.eval p r with
    | .error x => .error x
    | .ok k =>
      match e.eval p r with
      | .error x => .error x
      | .ok v => .ok { r with core := r.core.setReg (regNumber k) v }
  | .setCpsr e =>
    match e.eval p r with
    | .error x => .error x
    | .ok v =>
      match writeCpsr r.core v with
      | .error x => .error x
      | .ok c => .ok { r with core := c }
  | .setSpsr e =>
    match e.eval p r with
    | .error x => .error x
    | .ok v =>
      match writeSpsr p r.core v with
      | .error x => .error x
      | .ok c => .ok { r with core := c }
  | .setSpsrOf slot e =>
    match e.eval p r with
    | .error x => .error x
    | .ok v =>
      if hasSlot p slot then .ok { r with core := { r.core with spsrs := r.core.spsrs.set slot v } }
      else .error (.refused .absentStorage)
  | .setShadow x e =>
    match e.eval p r with
    | .error x => .error x
    | .ok v =>
      match r.core.setShadow p x v with
      | none => .error (.refused .absentStorage)
      | some c => .ok { r with core := c }
  | .setNextFetch e =>
    match e.eval p r with
    | .error x => .error x
    | .ok v => .ok { r with core := { r.core with nFA := v } }
  | .setLatchWord e =>
    match e.eval p r with
    | .error x => .error x
    | .ok v => .ok { r with core := { r.core with pI := v } }
  | .setLatchAddr e =>
    match e.eval p r with
    | .error x => .error x
    | .ok v => .ok { r with core := { r.core with pIA := v } }
  | .switchMode e dst =>
    match e.eval p r with
    | .error x => .error x
    | .ok v =>
      match Sys2Proof.Machine.switchMode pf.malformedMode p v r.core with
      | .error x => .error x
      | .ok (old, c) => .ok { r with core := c, locals := (dst, old.setWidth 32) :: r.locals }
  | .load w ea dst =>
    match ea.eval p r with
    | .error x => .error x
    | .ok a =>
      .ok { r with mem := (memRead pf p r.mem w a).2, locals := (dst, (memRead pf p r.mem w a).1) :: r.locals }
  | .store w ea ev =>
    match ea.eval p r with
    | .error x => .error x
    | .ok a =>
      match ev.eval p r with
      | .error x => .error x
      | .ok v => .ok { r with mem := memWrite pf p r.mem w a v }
  | .halt => .ok { r with core := { r.core with waitingForInterrupt := true } }
  | .addCycles e =>
    match e.eval p r with
    | .error x => .error x
    | .ok v => .ok { r with cycles := r.cycles + v.toNat }
  | .callEngine _ => .error (.fault .handlerContract)
  | .writeProtected _ => .error (.fault .handlerContract)

/-- A script's effects in order, up to the first stop. -/
def Script.run (pf : Platform) (p : CoreId) : Script → HandlerRun → Except Stop HandlerRun
  | .done, r => .ok r
  | .act a, r => a.perform pf p r
  | .seq first second, r =>
    match Script.run pf p first r with
    | .error x => .error x
    | .ok r' => Script.run pf p second r'
  | .branch c ifNonzero ifZero, r =>
    match c.eval p r with
    | .error x => .error x
    | .ok v => if v = 0 then Script.run pf p ifZero r else Script.run pf p ifNonzero r

/-- The script a table entry performs when it is called (R210). -/
def Handler.scriptFor (h : Handler) (p : CoreId) (compressed : Bool) (index : Nat) (c : Core) (m : SharedMemory) :
    Script :=
  match h with
  | .scripted body => body
  | .external => Config.externalHandler p compressed index c m

/-- HANDLER32[p][i] of a platform (30_encoding.md R95, R96). -/
def handler32At (pf : Platform) (p : CoreId) (i : BitVec 12) : Handler := (pf.handler32.get p).handlerAt i

/-- HANDLER16[p][i] of a platform (30_encoding.md R95, R96). -/
def handler16At (pf : Platform) (p : CoreId) (i : BitVec 10) : Handler := (pf.handler16.get p).handlerAt i

/-- A handler about to run. -/
def startRun (c : Core) (m : SharedMemory) : HandlerRun := { core := c, mem := m, locals := [], cycles := 0 }

/-- HANDLER32[p][i]() for the current core (R204, R210). -/
def runHandler32 (s : State) (i : BitVec 12) : Except Stop HandlerRun :=
  ((handler32At s.platform s.current i).scriptFor s.current false i.toNat (s.core s.current) s.mem).run s.platform
    s.current (startRun (s.core s.current) s.mem)

/-- HANDLER16[p][i]() for the current core (R206, R210). -/
def runHandler16 (s : State) (i : BitVec 10) : Except Stop HandlerRun :=
  ((handler16At s.platform s.current i).scriptFor s.current true i.toNat (s.core s.current) s.mem).run s.platform
    s.current (startRun (s.core s.current) s.mem)

/-! ### Completing a step (43_dispatch.md R204 to R209) -/

/-- An operation's stop as the outcome of the machine. -/
def stopped (e : Stop) : Host.Outcome State Fault Refusal :=
  match e with
  | .fault f => .fault f
  | .refused r => .refused r

/-- The notification hook's calls after the current core's dispatched or skipped instruction: one more where the
control-plane is attached, with the address and encoding sampled before dispatch (R207). -/
def notify (s : State) : List Notification :=
  if s.platform.debugAttached.get s.current then
    s.notifications ++
      [{ core := s.current
         address := (s.core s.current).pIA
         compressed := flagT (s.core s.current).cpsr }]
  else s.notifications

/-- The state a step leaves: the current core and memory as given, the cost returned, the hook called. -/
def stepResult (s : State) (c : Core) (m : SharedMemory) (cost : Nat) : State :=
  { s with
    cores := s.cores.set s.current c
    mem := m
    result := .cost cost
    notifications := notify s }

/-- The end of every step that reaches dispatch: `s` is the state before dispatch, `c`, `m` and `cycles` what the
handler left (the core and memory unchanged and 0 where it was skipped). Notification, closing prefetch and cost (R207,
R208, R209). -/
def completeStep (s : State) (c : Core) (m : SharedMemory) (cycles : Nat) : Host.Outcome State Fault Refusal :=
  match prefetch s.platform s.current m c with
  | .error e => stopped e
  | .ok (c', m', f) => .next (stepResult s c' m' (1 + cycles + f))

/-- The rest of a step whose handler was called. -/
def afterHandler (s : State) (r : Except Stop HandlerRun) : Host.Outcome State Fault Refusal :=
  match r with
  | .error e => stopped e
  | .ok r => completeStep s r.core r.mem r.cycles

/-- A skipped instruction: no handler, cost 0, the closing prefetch still runs (R205, 41_prefetch.md R158). -/
def skipInstr (s : State) : Host.Outcome State Fault Refusal := completeStep s (s.core s.current) s.mem 0

/-- An A32 class: its handler where the condition passes (R204), skipped otherwise (R205). -/
def dispatchA32 (c : Cond) (opHi : BitVec 8) (opLo : BitVec 4) (s : State) : Host.Outcome State Fault Refusal :=
  match passes c (s.core s.current).cpsr with
  | true => afterHandler s (runHandler32 s (index32 opHi opLo))
  | false => skipInstr s

/-- The T16 class: its handler always (R206). -/
def dispatchT16 (op16 : BitVec 10) (s : State) : Host.Outcome State Fault Refusal :=
  afterHandler s (runHandler16 s (index16 op16))

end Sys2Proof.Machine
end

