-- ==== Sys2Proof/Machine/A32.lean ====
section
/-! DEFINITION. The meanings of the sixteen A32 classes (30_encoding.md R100, 43_dispatch.md R204, R205): each has the
condition of its own rule of 42_condition.md, and dispatches to its handler or is skipped. -/

namespace Sys2Proof.Machine

/-- A32.EQ (42_condition.md R171): executed when Z = 1. -/
def execA32Eq (opHi : BitVec 8) (opLo : BitVec 4) (s : State) : Host.Outcome State Fault Refusal :=
  dispatchA32 .eq opHi opLo s

/-- A32.NE (42_condition.md R172): executed when Z = 0. -/
def execA32Ne (opHi : BitVec 8) (opLo : BitVec 4) (s : State) : Host.Outcome State Fault Refusal :=
  dispatchA32 .ne opHi opLo s

/-- A32.CS (42_condition.md R173): executed when C = 1. -/
def execA32Cs (opHi : BitVec 8) (opLo : BitVec 4) (s : State) : Host.Outcome State Fault Refusal :=
  dispatchA32 .cs opHi opLo s

/-- A32.CC (42_condition.md R174): executed when C = 0. -/
def execA32Cc (opHi : BitVec 8) (opLo : BitVec 4) (s : State) : Host.Outcome State Fault Refusal :=
  dispatchA32 .cc opHi opLo s

/-- A32.MI (42_condition.md R175): executed when N = 1. -/
def execA32Mi (opHi : BitVec 8) (opLo : BitVec 4) (s : State) : Host.Outcome State Fault Refusal :=
  dispatchA32 .mi opHi opLo s

/-- A32.PL (42_condition.md R176): executed when N = 0. -/
def execA32Pl (opHi : BitVec 8) (opLo : BitVec 4) (s : State) : Host.Outcome State Fault Refusal :=
  dispatchA32 .pl opHi opLo s

/-- A32.VS (42_condition.md R177): executed when V = 1. -/
def execA32Vs (opHi : BitVec 8) (opLo : BitVec 4) (s : State) : Host.Outcome State Fault Refusal :=
  dispatchA32 .vs opHi opLo s

/-- A32.VC (42_condition.md R178): executed when V = 0. -/
def execA32Vc (opHi : BitVec 8) (opLo : BitVec 4) (s : State) : Host.Outcome State Fault Refusal :=
  dispatchA32 .vc opHi opLo s

/-- A32.HI (42_condition.md R179): executed when C = 1 and Z = 0. -/
def execA32Hi (opHi : BitVec 8) (opLo : BitVec 4) (s : State) : Host.Outcome State Fault Refusal :=
  dispatchA32 .hi opHi opLo s

/-- A32.LS (42_condition.md R180): executed when C = 0 or Z = 1. -/
def execA32Ls (opHi : BitVec 8) (opLo : BitVec 4) (s : State) : Host.Outcome State Fault Refusal :=
  dispatchA32 .ls opHi opLo s

/-- A32.GE (42_condition.md R181): executed when N = V. -/
def execA32Ge (opHi : BitVec 8) (opLo : BitVec 4) (s : State) : Host.Outcome State Fault Refusal :=
  dispatchA32 .ge opHi opLo s

/-- A32.LT (42_condition.md R182): executed when N differs from V. -/
def execA32Lt (opHi : BitVec 8) (opLo : BitVec 4) (s : State) : Host.Outcome State Fault Refusal :=
  dispatchA32 .lt opHi opLo s

/-- A32.GT (42_condition.md R183): executed when Z = 0 and N = V. -/
def execA32Gt (opHi : BitVec 8) (opLo : BitVec 4) (s : State) : Host.Outcome State Fault Refusal :=
  dispatchA32 .gt opHi opLo s

/-- A32.LE (42_condition.md R184): executed when Z = 1 or N differs from V. -/
def execA32Le (opHi : BitVec 8) (opLo : BitVec 4) (s : State) : Host.Outcome State Fault Refusal :=
  dispatchA32 .le opHi opLo s

/-- A32.AL (42_condition.md R185): always executed. -/
def execA32Al (opHi : BitVec 8) (opLo : BitVec 4) (s : State) : Host.Outcome State Fault Refusal :=
  dispatchA32 .al opHi opLo s

/-- A32.NV (42_condition.md R186): never executed: the word is skipped on both cores, whatever the flags. -/
def execA32Nv (opHi : BitVec 8) (opLo : BitVec 4) (s : State) : Host.Outcome State Fault Refusal :=
  dispatchA32 .nv opHi opLo s

end Sys2Proof.Machine
end

