-- ==== Sys2Proof/Machine/T16.lean ====
section
/-! DEFINITION. The meaning of the T16 class (30_encoding.md R93, R94; 43_dispatch.md R206). -/

namespace Sys2Proof.Machine

/-- T16 (43_dispatch.md R206): HANDLER16[p][op16] always runs; there is no condition. -/
def execT16 (op16 : BitVec 10) (s : State) : Host.Outcome State Fault Refusal := dispatchT16 op16 s

end Sys2Proof.Machine
end

