-- ==== Sys2Proof/Machine/Dispatch.lean ====
section
/-! DEFINITION. From an instruction to its meaning, one arm per dispatch class (30_encoding.md R100). -/

namespace Sys2Proof.Machine

def exec (i : Instr) (s : State) : Host.Outcome State Fault Refusal :=
  match i with
  | .a32Eq opHi _ opLo _ => Sys2Proof.Machine.execA32Eq opHi opLo s
  | .a32Ne opHi _ opLo _ => Sys2Proof.Machine.execA32Ne opHi opLo s
  | .a32Cs opHi _ opLo _ => Sys2Proof.Machine.execA32Cs opHi opLo s
  | .a32Cc opHi _ opLo _ => Sys2Proof.Machine.execA32Cc opHi opLo s
  | .a32Mi opHi _ opLo _ => Sys2Proof.Machine.execA32Mi opHi opLo s
  | .a32Pl opHi _ opLo _ => Sys2Proof.Machine.execA32Pl opHi opLo s
  | .a32Vs opHi _ opLo _ => Sys2Proof.Machine.execA32Vs opHi opLo s
  | .a32Vc opHi _ opLo _ => Sys2Proof.Machine.execA32Vc opHi opLo s
  | .a32Hi opHi _ opLo _ => Sys2Proof.Machine.execA32Hi opHi opLo s
  | .a32Ls opHi _ opLo _ => Sys2Proof.Machine.execA32Ls opHi opLo s
  | .a32Ge opHi _ opLo _ => Sys2Proof.Machine.execA32Ge opHi opLo s
  | .a32Lt opHi _ opLo _ => Sys2Proof.Machine.execA32Lt opHi opLo s
  | .a32Gt opHi _ opLo _ => Sys2Proof.Machine.execA32Gt opHi opLo s
  | .a32Le opHi _ opLo _ => Sys2Proof.Machine.execA32Le opHi opLo s
  | .a32Al opHi _ opLo _ => Sys2Proof.Machine.execA32Al opHi opLo s
  | .a32Nv opHi _ opLo _ => Sys2Proof.Machine.execA32Nv opHi opLo s
  | .t16 op16 _ => Sys2Proof.Machine.execT16 op16 s

end Sys2Proof.Machine
end

