-- ==== Sys2Proof/Machine/Engine.lean ====
section
/-! DEFINITION. The engine's operations on the whole machine: a step of the current core up to its dispatch (43_dispatch.md
R200 to R203), the host's calls (00_scope.md R8; 60_exceptions.md; 70_reset_and_hazards.md R292), and which of them comes
next (20_memory.md R70, log 1). -/

namespace Sys2Proof.Machine

/-- The current core's Core State. -/
def State.cur (s : State) : Core := s.core s.current

/-- The instruction the current core has latched (43_dispatch.md R200): its class, by CPSR.T (30_encoding.md R90). -/
def State.latched (s : State) : Instr := decodeLatch (flagT s.cur.cpsr) s.cur.pI

/-- Run the latched instruction. -/
def dispatch (s : State) : Host.Outcome State Fault Refusal := exec s.latched s

/-- The state an operation on core `p` leaves, with what it returns. -/
def State.returning (s : State) (p : CoreId) (c : Core) (r : CallResult) : State :=
  { s.setCore p c with result := r }

/-- The same, of an operation that also accesses memory. -/
def State.returningWith (s : State) (p : CoreId) (c : Core) (m : SharedMemory) (r : CallResult) : State :=
  { s.setCoreAndMem p c m with result := r }

/-- `step(core)` for the current core (43_dispatch.md R200): the never-reset check, the debug halt (R201), the halt
(R202), the pending interrupt (R203), then dispatch of what is latched. -/
def stepCore (s : State) : Host.Outcome State Fault Refusal :=
  if s.cur.initialised = false then .fault .notReset
  else if s.platform.debugAttached.get s.current = true ∧ s.cur.debugHalted = true then
    .next { s with result := .cost Config.debugHaltCost }
  else if s.cur.waitingForInterrupt = true then .next { s with result := .cost Config.idleCost }
  else if s.cur.irqPending = true then
    match enterInterrupt s.platform s.current s.mem s.cur with
    | .error e => stopped e
    | .ok (_, c, m) => dispatch (s.setCoreAndMem s.current c m)
  else dispatch s

/-- The value of a component of core `p`, for the debug port (60_exceptions.md R262): none where the core has no such
storage. -/
def Core.field (p : CoreId) (c : Core) : CoreField → Option FieldValue
  | .reg n => some (.word (c.reg n))
  | .cpsr => some (.word c.cpsr)
  | .spsr slot => if hasSlot p slot then some (.word (c.spsrs.get slot)) else none
  | .shadow x => (c.shadow p x).map .word
  | .pI => some (.word c.pI)
  | .pIA => some (.word c.pIA)
  | .nFA => some (.word c.nFA)
  | .interruptVectorBase => some (.word c.interruptVectorBase)
  | .waitingForInterrupt => some (.flag c.waitingForInterrupt)
  | .irqPending => some (.flag c.irqPending)
  | .coprocessorHandle k => some (.handle c.coprocessorHandles[k])
  | .memoryInterface => some (.ref c.memoryInterface)
  | .debugHalted => some (.flag c.debugHalted)
  | .initialised => some (.flag c.initialised)

/-- A debug-port write (60_exceptions.md R262): R[0] to R[14] only. -/
def debugWriteField (c : Core) (f : CoreField) (v : Word) : Except Stop Core :=
  match f with
  | .reg n => if n.val < 15 then .ok (c.setReg n v) else .error (.fault .debugWriteRefused)
  | .cpsr => .error (.fault .debugWriteRefused)
  | .spsr _ => .error (.fault .debugWriteRefused)
  | .shadow _ => .error (.fault .debugWriteRefused)
  | .pI => .error (.fault .debugWriteRefused)
  | .pIA => .error (.fault .debugWriteRefused)
  | .nFA => .error (.fault .debugWriteRefused)
  | .interruptVectorBase => .error (.fault .debugWriteRefused)
  | .waitingForInterrupt => .error (.fault .debugWriteRefused)
  | .irqPending => .error (.fault .debugWriteRefused)
  | .coprocessorHandle _ => .error (.fault .debugWriteRefused)
  | .memoryInterface => .error (.fault .debugWriteRefused)
  | .debugHalted => .error (.fault .debugWriteRefused)
  | .initialised => .error (.fault .debugWriteRefused)

/-- What stands before every debug-port call: the core was reset (10_state.md R50) and the control-plane is attached
(60_exceptions.md R261). -/
def debugPort (s : State) (p : CoreId) : Except Stop Core :=
  if (s.core p).initialised = false then .error (.fault .notReset)
  else if s.platform.debugAttached.get p = true then .ok (s.core p)
  else .error (.refused .noDebugPort)

/-- The debug port's halt toggle (60_exceptions.md R261). -/
def debugHalt (s : State) (p : CoreId) (on : Bool) : Host.Outcome State Fault Refusal :=
  match debugPort s p with
  | .error e => stopped e
  | .ok c => .next (s.returning p { c with debugHalted := on } .nothing)

/-- The debug port's read (60_exceptions.md R262). -/
def debugRead (s : State) (p : CoreId) (f : CoreField) : Host.Outcome State Fault Refusal :=
  match debugPort s p with
  | .error e => stopped e
  | .ok c =>
    match c.field p f with
    | some v => .next { s with result := .value v }
    | none => .refused .absentStorage

/-- The debug port's write (60_exceptions.md R262). -/
def debugWrite (s : State) (p : CoreId) (f : CoreField) (v : Word) : Host.Outcome State Fault Refusal :=
  match debugPort s p with
  | .error e => stopped e
  | .ok c =>
    match debugWriteField c f v with
    | .error e => stopped e
    | .ok c' => .next (s.returning p c' .nothing)

/-- `flagInterrupt` on core `p` (60_exceptions.md R241); it returns whether it was accepted. -/
def hostFlagInterrupt (s : State) (p : CoreId) : Host.Outcome State Fault Refusal :=
  match flagInterrupt (s.core p) with
  | .error e => stopped e
  | .ok (b, c) => .next (s.returning p c (.accepted b))

/-- `enterInterrupt` on core `p` (60_exceptions.md R243); it returns whether it was accepted. -/
def hostEnterInterrupt (s : State) (p : CoreId) : Host.Outcome State Fault Refusal :=
  match enterInterrupt s.platform p s.mem (s.core p) with
  | .error e => stopped e
  | .ok (b, c, m) => .next (s.returningWith p c m (.accepted b))

/-- `reset(entryAddress)` on core `p` (70_reset_and_hazards.md R292); it returns nothing. -/
def hostReset (s : State) (p : CoreId) (entryAddress : Word) : Host.Outcome State Fault Refusal :=
  match resetCore s.platform p s.mem entryAddress (s.core p) with
  | .error e => stopped e
  | .ok (c, m) => .next (s.returningWith p c m .nothing)

/-- One call of the host. A host's store reaches the bytes the collaborator holds (20_memory.md R73; log 19). -/
def hostCall (call : HostCall) (s : State) : Host.Outcome State Fault Refusal :=
  match call with
  | .step p => stepCore { s with current := p }
  | .reset p entryAddress => hostReset s p entryAddress
  | .flagInterrupt p => hostFlagInterrupt s p
  | .enterInterrupt p => hostEnterInterrupt s p
  | .debugHalt p on => debugHalt s p on
  | .debugRead p f => debugRead s p f
  | .debugWrite p f v => debugWrite s p f v
  | .store a v => .next { s with mem := { s.mem with bytes := s.mem.bytes.setByte a v }, result := .nothing }

/-- The machine's next operation: the host's oldest call, or a step of the current core where none is queued (log 1). -/
def nextOperation (s : State) : Host.Outcome State Fault Refusal :=
  match s.calls with
  | [] => stepCore s
  | call :: rest => hostCall call { s with calls := rest }

/-- Bits as an instruction of `nbits` bits for the current core, stored where its latch was filled from and latched,
with T selecting that format, and nothing in the way of running it (log 14). -/
def placeInstr (s : State) (nbits w : Nat) : State :=
  let t := decide (nbits ≤ 16)
  let bits : Word := BitVec.ofNat 32 w
  let c := s.cur
  let bytes := match t with
    | true => halfBytes s.platform.byteOrder bits
    | false => wordBytes s.platform.byteOrder bits
  let latchedBits := match t with
    | true => (bits.setWidth 16).setWidth 32
    | false => bits
  let ready : Core :=
    { c with
      cpsr := setFlagT c.cpsr t
      nFA := c.pIA
      waitingForInterrupt := false
      irqPending := false
      debugHalted := false
      initialised := true }
  { s with
    cores := s.cores.set s.current (ready.fillLatch latchedBits (instrWidth t))
    mem := { s.mem with bytes := s.mem.bytes.setBytes c.pIA bytes }
    calls := [] }

end Sys2Proof.Machine
end

