-- ==== Sys2Proof/Machine/Step.lean ====
section
/-! DEFINITION. One step of the machine: the host's next operation (20_memory.md R70), and the load of one instruction
where the current core's next step runs it. -/

namespace Sys2Proof.Machine

/-- One step of the machine: the host's oldest queued call, or a step of the current core. -/
def step (s : State) : Host.Outcome State Fault Refusal := nextOperation s

/-- The state with one instruction placed and latched for the current core, so that the very next step runs it. -/
def State.withFetchWord (s : State) (nbits w : Nat) : State := placeInstr s nbits w

end Sys2Proof.Machine
end

