-- ==== Sys2Proof/Safety.lean ====
section
/-! DEFINITION. What claims may take for granted of a reachable state, and what a safe run is: the invariants the spec
states of a core at every step boundary (10_state.md R24, R38, R39, R40, R46, R47) and the canonical form of memory. -/

namespace Sys2Proof.Safety

open Sys2Proof.Machine

/-- The pipeline invariant of a core (10_state.md R24, R38, R39): nFA is one instruction width beyond pIA, R[15] two,
and a latched halfword is zero-extended. -/
def LagHolds (c : Core) : Prop :=
  c.nFA = c.pIA + instrWidth (flagT c.cpsr) ∧
    c.reg 15 = c.pIA + instrWidth (flagT c.cpsr) + instrWidth (flagT c.cpsr) ∧
    (flagT c.cpsr = true → c.pI.extractLsb' 16 16 = 0#16)

/-- The current mode is legal (10_state.md R34, R46). -/
def ModeLegal (p : CoreId) (c : Core) : Prop := legalMode p (modeField c.cpsr) = true

/-- The core holds what its identity allows: no fast-interrupt storage on core 1 (10_state.md R26, R36), the handles
reset installed (R43), its platform's vector base (R40). -/
def IdentityHolds (pf : Platform) (p : CoreId) (c : Core) : Prop :=
  c.interruptVectorBase = pf.vectorBase.get p ∧
    c.coprocessorHandles = resetHandles p ∧
    (p.hasFiq = false → c.bankFiq = ⟨0, 0, 0, 0, 0, 0, 0⟩ ∧ c.spsrs.fiq = 0)

/-- A debug halt only where a control-plane is attached (10_state.md R45). -/
def DebugHolds (pf : Platform) (p : CoreId) (c : Core) : Prop :=
  c.debugHalted = true → pf.debugAttached.get p = true

/-- Every core that was reset meets a condition. -/
def EachCore (s : State) (P : CoreId → Core → Prop) : Prop :=
  ∀ p : CoreId, (s.core p).initialised = true → P p (s.core p)

/-- The pipeline invariant, of both cores. -/
def PipelineInv (s : State) : Prop := EachCore s fun _ c => LagHolds c

/-- Legal modes, of both cores, where malformed modes are trapped (R46, 40_bank_switch.md R130). -/
def ModeInv (s : State) : Prop := s.platform.malformedMode = .fault ∧ EachCore s ModeLegal

/-- Capabilities, of both cores. -/
def IdentityInv (s : State) : Prop := EachCore s (IdentityHolds s.platform)

/-- The debug halt, of both cores, whether or not they were reset: it is false from construction on (R45). -/
def DebugInv (s : State) : Prop := ∀ p : CoreId, DebugHolds s.platform p (s.core p)

/-- The memory is in canonical form. -/
def MemoryInv (s : State) : Prop := s.mem.bytes.wf = true

/-- Everything together. -/
structure Inv (s : State) : Prop where
  pipeline : PipelineInv s
  identity : IdentityInv s
  debug : DebugInv s
  memory : MemoryInv s

/-! ### Handlers that cannot stop -/

/-- An operand expression that always has a value: it reads no current SPSR and no fast-interrupt storage. -/
def exprTotal : Expr → Bool
  | .const _ => true
  | .loc _ => true
  | .reg n => exprTotal n
  | .cpsr => true
  | .spsr => false
  | .spsrOf slot => hasSlot .secondary slot
  | .shadow (.pair _ _) => true
  | .shadow (.fiq _) => false
  | .latchWord => true
  | .latchAddr => true
  | .nextFetch => true
  | .vectorBase => true
  | .halted => true
  | .irqPending => true
  | .bin _ a b => exprTotal a && exprTotal b
  | .cond c a b => exprTotal c && exprTotal a && exprTotal b

/-- An effect that cannot stop, and writes neither nFA nor the status word. -/
def actionPlain : Action → Bool
  | .setLoc _ v => exprTotal v
  | .setReg n v => exprTotal n && exprTotal v
  | .setCpsr _ => false
  | .setSpsr _ => false
  | .setSpsrOf slot v => hasSlot .secondary slot && exprTotal v
  | .setShadow (.pair _ _) v => exprTotal v
  | .setShadow (.fiq _) _ => false
  | .setNextFetch _ => false
  | .setLatchWord v => exprTotal v
  | .setLatchAddr v => exprTotal v
  | .switchMode _ _ => false
  | .load _ a _ => exprTotal a
  | .store _ a v => exprTotal a && exprTotal v
  | .halt => true
  | .addCycles v => exprTotal v
  | .callEngine _ => false
  | .writeProtected _ => false

/-- A handler script that cannot stop and redirects nothing (43_dispatch.md R212). -/
def scriptPlain : Script → Bool
  | .done => true
  | .act a => actionPlain a
  | .seq a b => scriptPlain a && scriptPlain b
  | .branch c a b => exprTotal c && scriptPlain a && scriptPlain b

/-! ### The debug port -/

/-- A debug-port read of a component answers a value and changes nothing but the result (60_exceptions.md R262). -/
def DebugReads (s : State) (p : CoreId) (f : CoreField) (v : FieldValue) : Prop :=
  hostCall (.debugRead p f) s = .next { s with result := .value v }

/-! ### Runs -/

/-- A run outside the document's contract: the operation faults (00_scope.md R13). -/
def Faults (s : State) : Prop := ∃ f, Sys2Proof.Machine.step s = .fault f

/-- A safe operation: it ends in a next state. -/
def Safe (s : State) : Prop := ∃ t, Sys2Proof.Machine.step s = .next t

end Sys2Proof.Safety
end

