-- ==== Sys2Proof/Certificates/Slice0/Obligations.lean ====
section
/-! DEFINITION. The statements for the provers. Each docstring names the rule of spec/ it formalises; where a clause rests on
a choice of the spec's own (marked there as a decision, as derived, or as general knowledge) or of this model, the
statement is of basis 'derived' and the docstring says so. -/

open Sys2Proof Sys2Proof.Machine Sys2Proof.Safety

/-! ### Encoding (30_encoding.md) -/

/-- Decoding an encoded well-formed instruction gives it back, in the format CPSR.T selects for it (30_encoding.md
sections 1 and 5; the bit positions are the spec's own choices D14, D15, log 20). -/
def Obligations.DecodeOfEncodeIsTheInstruction : Prop :=
  ∀ i : Instr, i.wellFormed = true → decodeLatch i.compressed (encode i) = i

/-- Every latched word decodes to a well-formed instruction of the format T selects, and encoding that gives the word back:
no pattern is reserved and no bit is dropped (30_encoding.md sections 1 and 3; the bit positions are D14, D15, log 20). -/
def Obligations.EncodeOfDecodeIsTheWord : Prop :=
  (∀ w : Word, (decodeLatch false w).wellFormed = true ∧ (decodeLatch false w).compressed = false ∧
      encode (decodeLatch false w) = w) ∧
  (∀ w : Word, w.extractLsb' 16 16 = 0#16 →
      (decodeLatch true w).wellFormed = true ∧ (decodeLatch true w).compressed = true ∧
        encode (decodeLatch true w) = w)

/-- From bytes at rising addresses, in either byte order, the decoder reads the instruction that was encoded and hands back
the bytes after it; it refuses only bytes that are too few for the format, by name, and the format is T's, whatever the
bits (30_encoding.md sections 1 and 3; byte order is a parameter, 20_memory.md section 1). -/
def Obligations.DecoderReadsBytesAndRefusesOnlyTooFew : Prop :=
  (∀ (order : ByteOrder) (i : Instr) (rest : List Byte), i.wellFormed = true →
    decode i.compressed order (encodeBytes order i ++ rest) = .ok (i, rest)) ∧
  ∀ (t : Bool) (order : ByteOrder) (bytes : List Byte),
    (bytes.length < (if t then 2 else 4) →
      decode t order bytes = .error (.truncated (if t then 2 else 4) bytes.length)) ∧
    ((if t then 2 else 4) ≤ bytes.length → ∃ i, decode t order bytes = .ok (i, bytes.drop (if t then 2 else 4)) ∧
      i.compressed = t)

/-- Words written out from the spec's formats and vectors decode to the instructions they stand for (30_encoding.md sections 1
and 5; 95_test_vectors.md sections 2.1, 2.5 and 3). The four A32 words rest on the positions of the condition field and of
the index bits, general knowledge the spec adopts (D14, D15; log 20), and two of them on 0xE being AL, which is so too (G11;
log 20). -/
def Obligations.SpecWordsDecodeAsWritten : Prop :=
  decodeTableWord 32 0xE3A01002 = some (.a32Al 0x3A 0x010 0x0 0x2) ∧
  decodeTableWord 32 0x03A00001 = some (.a32Eq 0x3A 0x000 0x0 0x1) ∧
  decodeTableWord 32 0xE12FFF10 = some (.a32Al 0x12 0xFFF 0x1 0x0) ∧
  decodeTableWord 32 0xF3A02003 = some (.a32Nv 0x3A 0x020 0x0 0x3) ∧
  decodeTableWord 16 0x2105 = some (.t16 0x084 0x05) ∧
  decodeTableWord 16 0xE7FE = some (.t16 0x39F 0x3E)

/-- The dispatch index: for A32 bits 27:20 above bits 7:4 of the latched word, whatever its condition field; for T16 bits
15:6 (30_encoding.md section 1; the A32 positions, the condition field's among them, are the spec's own choices D14, D15,
log 20). And exec calls the handler of that index of the current core's table, for any A32 word whose condition passes and
any T16 halfword. -/
def Obligations.DispatchIndexOfTheLatchedWord : Prop :=
  (∀ (w : Word) (s : State), passes (condOfField (w.extractLsb' 28 4)) s.cur.cpsr = true →
    ∃ i : BitVec 12, i.toNat = (w.toNat / 2 ^ 20 % 256) * 16 + w.toNat / 16 % 16 ∧
      exec (decodeLatch false w) s = afterHandler s (runHandler32 s i)) ∧
  (∀ (w : Word) (s : State),
    ∃ i : BitVec 10, i.toNat = w.toNat / 64 % 1024 ∧ exec (decodeLatch true w) s = afterHandler s (runHandler16 s i))

/-! ### The condition evaluator (42_condition.md) -/

/-- R171: EQ passes exactly when Z, bit 30, is 1. -/
def Obligations.EqualPassesExactlyWhenZ : Prop :=
  fieldOfCond .eq = 0x0#4 ∧ ∀ cpsr : Word, passes .eq cpsr = true ↔ cpsr.getLsbD 30 = true

/-- The other standard conditions: the value of the condition field that names each (30_encoding.md section 5), and when it
passes, by N, Z, C, V at bits 31 to 28 (42_condition.md section 2: general knowledge, so derived; log 20). -/
def Obligations.StandardConditionsFollowTheFlags : Prop :=
  (fieldOfCond .ne = 0x1#4 ∧ fieldOfCond .cs = 0x2#4 ∧ fieldOfCond .cc = 0x3#4 ∧ fieldOfCond .mi = 0x4#4 ∧
    fieldOfCond .pl = 0x5#4 ∧ fieldOfCond .vs = 0x6#4 ∧ fieldOfCond .vc = 0x7#4 ∧ fieldOfCond .hi = 0x8#4 ∧
    fieldOfCond .ls = 0x9#4 ∧ fieldOfCond .ge = 0xA#4 ∧ fieldOfCond .lt = 0xB#4 ∧ fieldOfCond .gt = 0xC#4 ∧
    fieldOfCond .le = 0xD#4 ∧ fieldOfCond .al = 0xE#4) ∧
  ∀ cpsr : Word, ∀ n z c v : Bool, cpsr.getLsbD 31 = n → cpsr.getLsbD 30 = z → cpsr.getLsbD 29 = c → cpsr.getLsbD 28 = v →
    passes .ne cpsr = !z ∧ passes .cs cpsr = c ∧ passes .cc cpsr = !c ∧ passes .mi cpsr = n ∧ passes .pl cpsr = !n ∧
    passes .vs cpsr = v ∧ passes .vc cpsr = !v ∧ passes .hi cpsr = (c && !z) ∧ passes .ls cpsr = (!c || z) ∧
    passes .ge cpsr = (n == v) ∧ passes .lt cpsr = (n != v) ∧ passes .gt cpsr = (!z && n == v) ∧
    passes .le cpsr = (z || n != v) ∧ passes .al cpsr = true

/-- The evaluator agrees with the printed table (42_condition.md section 3; derived there, log 20): its sixteen rows by the
value of the condition field, its columns by bits 31:28 of the status word, which are all it reads. -/
def Obligations.ConditionTableMatchesThePrintedMasks : Prop :=
  ∀ (field : BitVec 4) (cpsr : Word),
    passes (condOfField field) cpsr =
      (([0xF0F0, 0x0F0F, 0xCCCC, 0x3333, 0xFF00, 0x00FF, 0xAAAA, 0x5555, 0x0C0C, 0xF3F3, 0xAA55, 0x55AA, 0x0A05, 0xF5FA,
        0xFFFF, 0x0000] : List (BitVec 16)).getD field.toNat 0).getLsbD (cpsr.extractLsb' 28 4).toNat ∧
    condMask (condOfField field) =
      ([0xF0F0, 0x0F0F, 0xCCCC, 0x3333, 0xFF00, 0x00FF, 0xAAAA, 0x5555, 0x0C0C, 0xF3F3, 0xAA55, 0x55AA, 0x0A05, 0xF5FA,
        0xFFFF, 0x0000] : List (BitVec 16)).getD field.toNat 0

/-- R186: the sixteenth condition never passes, and every word that carries it is skipped, on both cores, whatever the flags
and whatever its handler index holds. -/
def Obligations.ReservedConditionIsAlwaysSkipped : Prop :=
  (∀ cpsr : Word, passes .nv cpsr = false) ∧
  ∀ (w : Word) (s : State), w.extractLsb' 28 4 = 0xF#4 →
    (∃ opHi mid opLo low, decodeLatch false w = .a32Nv opHi mid opLo low) ∧
    exec (decodeLatch false w) s = skipInstr s

/-! ### The dispatch classes (43_dispatch.md) -/

/-- Every A32 class whose condition fails (A32.EQ to A32.LE, and A32.NV) completes: no handler runs, the closing prefetch
does, and the cost is 1 plus the fetch (43_dispatch.md section 2, R205; the hypothesis that the closing fetch is
aligned, or passed through, is the spec's own choice D10). -/
def Obligations.FailedConditionSkipsAndCompletes : Prop :=
  ∀ (c : Cond) (opHi : BitVec 8) (mid : Nat) (opLo : BitVec 4) (low : Nat) (s : State),
    passes c s.cur.cpsr = false → fetchAllowed s.platform s.cur = true →
      exec (Instr.a32 c opHi mid opLo low) s =
        .next (stepResult s (prefetched s.platform s.current s.mem s.cur)
          (prefetchedMem s.platform s.current s.mem s.cur) (1 + 0 + prefetchCost s.current s.cur))

/-- R205's frame: a skipped instruction changes no state except through the closing prefetch (pI, pIA, nFA, R[15], and
whatever the collaborator does to memory at that one fetch), what the step returns and the notification: not one other
register, flag, saved status, shadow register or special register, and nothing of the other core. In plain memory an
aligned fetch does nothing, so not one byte changes (20_memory.md section 1; the two collaborators are this model's, log
19). -/
def Obligations.SkippedInstructionFrame : Prop :=
  ∀ (c : Cond) (opHi : BitVec 8) (mid : Nat) (opLo : BitVec 4) (low : Nat) (s t : State),
    passes c s.cur.cpsr = false → exec (Instr.a32 c opHi mid opLo low) s = .next t →
      (∀ j : Fin 16, j ≠ 15 → t.cur.reg j = s.cur.reg j) ∧ t.cur.cpsr = s.cur.cpsr ∧ t.cur.spsrs = s.cur.spsrs ∧
      (∀ g, t.cur.pair g = s.cur.pair g) ∧ t.cur.bankFiq = s.cur.bankFiq ∧
      t.cur.interruptVectorBase = s.cur.interruptVectorBase ∧
      t.cur.waitingForInterrupt = s.cur.waitingForInterrupt ∧ t.cur.irqPending = s.cur.irqPending ∧
      t.cur.coprocessorHandles = s.cur.coprocessorHandles ∧ t.cur.memoryInterface = s.cur.memoryInterface ∧
      t.cur.debugHalted = s.cur.debugHalted ∧ t.cur.initialised = s.cur.initialised ∧
      t.mem = prefetchedMem s.platform s.current s.mem s.cur ∧
      (s.platform.collaborator = .plain → fetchAligned (flagT s.cur.cpsr) s.cur.nFA = true →
        ∀ a : Word, t.mem.bytes.byteAt a = s.mem.bytes.byteAt a) ∧
      t.core s.current.other = s.core s.current.other ∧ t.platform = s.platform ∧ t.current = s.current ∧ t.calls = s.calls

/-- Every A32 class whose condition passes (A32.EQ to A32.AL) runs HANDLER32[p][index] of its own index and completes from
what the handler left, with the closing prefetch and the cost 1 + handler + fetch (43_dispatch.md section 2, R204; D10
for the aligned closing fetch). The hypotheses are on the state and operands alone: the state's table holds a handler
that runs to its end on this state. -/
def Obligations.PassedConditionRunsItsHandlerAndCompletes : Prop :=
  ∀ (c : Cond) (opHi : BitVec 8) (mid : Nat) (opLo : BitVec 4) (low : Nat) (s : State) (r : HandlerRun),
    passes c s.cur.cpsr = true → runHandler32 s (index32 opHi opLo) = .ok r → fetchAllowed s.platform r.core = true →
      exec (Instr.a32 c opHi mid opLo low) s =
        .next (stepResult s (prefetched s.platform s.current r.mem r.core)
          (prefetchedMem s.platform s.current r.mem r.core) (1 + r.cycles + prefetchCost s.current r.core))

/-- The T16 class always runs HANDLER16[p][op16], whatever the flags, and completes from what the handler left
(43_dispatch.md section 2, R206; 30_encoding.md R94; D10 for the aligned closing fetch). -/
def Obligations.CompressedInstructionRunsItsHandlerAndCompletes : Prop :=
  ∀ (op16 : BitVec 10) (low : Nat) (s : State) (r : HandlerRun),
    runHandler16 s op16 = .ok r → fetchAllowed s.platform r.core = true →
      exec (.t16 op16 low) s =
        .next (stepResult s (prefetched s.platform s.current r.mem r.core)
          (prefetchedMem s.platform s.current r.mem r.core) (1 + r.cycles + prefetchCost s.current r.core))

/-- Every class that runs a handler (A32.EQ to A32.AL with the condition passed, and T16) completes and falls through where
the state's table holds, at the instruction's index, a script that cannot stop and redirects nothing, and the next
fetch is aligned: the next instruction is the one at nFA, in the same encoding and mode (43_dispatch.md R212, marked
derived there; scripts are this model's form of a handler, log 3). -/
def Obligations.PlainHandlerFallsThrough : Prop :=
  (∀ (c : Cond) (opHi : BitVec 8) (mid : Nat) (opLo : BitVec 4) (low : Nat) (s : State) (body : Script),
    passes c s.cur.cpsr = true →
    handler32At s.platform s.current (index32 opHi opLo) = .scripted body → scriptPlain body = true →
    fetchAllowed s.platform s.cur = true →
      ∃ t, exec (Instr.a32 c opHi mid opLo low) s = .next t ∧ t.cur.pIA = s.cur.nFA ∧ t.cur.cpsr = s.cur.cpsr ∧
        t.cur.nFA = s.cur.nFA + instrWidth (flagT s.cur.cpsr)) ∧
  (∀ (op16 : BitVec 10) (low : Nat) (s : State) (body : Script),
    handler16At s.platform s.current op16 = .scripted body → scriptPlain body = true →
    fetchAllowed s.platform s.cur = true →
      ∃ t, exec (.t16 op16 low) s = .next t ∧ t.cur.pIA = s.cur.nFA ∧ t.cur.cpsr = s.cur.cpsr ∧
        t.cur.nFA = s.cur.nFA + instrWidth (flagT s.cur.cpsr))

/-- Where the classes stop, and that they stop nowhere else: a handler's own stop is the step's, by the same name, and a
closing fetch that is misaligned and not passed through faults; an instruction that stops is one of these (41_prefetch.md
section 2, D10; 43_dispatch.md section 3, D18). -/
def Obligations.InstructionsStopOnlyByName : Prop :=
  (∀ (c : Cond) (opHi : BitVec 8) (mid : Nat) (opLo : BitVec 4) (low : Nat) (s : State) (e : Stop),
    passes c s.cur.cpsr = true → runHandler32 s (index32 opHi opLo) = .error e →
      exec (Instr.a32 c opHi mid opLo low) s = stopped e) ∧
  (∀ (op16 : BitVec 10) (low : Nat) (s : State) (e : Stop), runHandler16 s op16 = .error e →
      exec (.t16 op16 low) s = stopped e) ∧
  (∀ (c : Cond) (opHi : BitVec 8) (mid : Nat) (opLo : BitVec 4) (low : Nat) (s : State),
    passes c s.cur.cpsr = false → fetchAllowed s.platform s.cur = false →
      exec (Instr.a32 c opHi mid opLo low) s = .fault .misalignedFetch) ∧
  (∀ (c : Cond) (opHi : BitVec 8) (mid : Nat) (opLo : BitVec 4) (low : Nat) (s : State) (r : HandlerRun),
    passes c s.cur.cpsr = true → runHandler32 s (index32 opHi opLo) = .ok r →
    fetchAllowed s.platform r.core = false → exec (Instr.a32 c opHi mid opLo low) s = .fault .misalignedFetch) ∧
  (∀ (op16 : BitVec 10) (low : Nat) (s : State) (r : HandlerRun), runHandler16 s op16 = .ok r →
    fetchAllowed s.platform r.core = false → exec (.t16 op16 low) s = .fault .misalignedFetch) ∧
  (∀ (i : Instr) (s : State) (f : Fault), exec i s = .fault f →
    (∃ c opHi mid opLo low, i = Instr.a32 c opHi mid opLo low ∧ passes c s.cur.cpsr = true ∧
      runHandler32 s (index32 opHi opLo) = .error (.fault f)) ∨
    (∃ op16 low, i = .t16 op16 low ∧ runHandler16 s op16 = .error (.fault f)) ∨
    (f = .misalignedFetch ∧
      ((∃ c opHi mid opLo low, i = Instr.a32 c opHi mid opLo low ∧ passes c s.cur.cpsr = false ∧
          fetchAllowed s.platform s.cur = false) ∨
        (∃ c opHi mid opLo low r, i = Instr.a32 c opHi mid opLo low ∧ passes c s.cur.cpsr = true ∧
          runHandler32 s (index32 opHi opLo) = .ok r ∧ fetchAllowed s.platform r.core = false) ∨
        (∃ op16 low r, i = .t16 op16 low ∧ runHandler16 s op16 = .ok r ∧ fetchAllowed s.platform r.core = false)))) ∧
  (∀ (i : Instr) (s : State) (e : Refusal), exec i s = .refused e →
    (∃ c opHi mid opLo low, i = Instr.a32 c opHi mid opLo low ∧ passes c s.cur.cpsr = true ∧
      runHandler32 s (index32 opHi opLo) = .error (.refused e)) ∨
    (∃ op16 low, i = .t16 op16 low ∧ runHandler16 s op16 = .error (.refused e)))

/-- R208: every step that reaches dispatch ends with the prefetch, whether the instruction was executed or skipped, and the
latch then holds the instruction that becomes current: what the one closing fetch answers at pIA, in the width of the T
the step leaves, from the memory the handler left (or, skipped, the memory as it was). -/
def Obligations.EveryInstructionEndsWithThePrefetch : Prop :=
  ∀ (i : Instr) (s t : State), exec i s = .next t →
    t.cur.nFA = t.cur.pIA + instrWidth (flagT t.cur.cpsr) ∧
    t.cur.reg 15 = t.cur.pIA + instrWidth (flagT t.cur.cpsr) + instrWidth (flagT t.cur.cpsr) ∧
    ∃ (c : Core) (m : SharedMemory), t.cur = prefetched s.platform s.current m c ∧
      t.cur.pI = fetchLatched s.platform s.current m (flagT t.cur.cpsr) t.cur.pIA ∧
      t.mem = fetchLeaves s.platform s.current m (flagT t.cur.cpsr) t.cur.pIA ∧
      ((∃ k opHi mid opLo low, i = Instr.a32 k opHi mid opLo low ∧ passes k s.cur.cpsr = false ∧ c = s.cur ∧ m = s.mem) ∨
        (∃ k opHi mid opLo low r, i = Instr.a32 k opHi mid opLo low ∧ passes k s.cur.cpsr = true ∧
          runHandler32 s (index32 opHi opLo) = .ok r ∧ c = r.core ∧ m = r.mem) ∨
        (∃ op16 low r, i = .t16 op16 low ∧ runHandler16 s op16 = .ok r ∧ c = r.core ∧ m = r.mem))

/-- R209: the cost is the base 1, plus the handler's cost (0 if skipped), plus the fetch cost of the instruction that becomes
current after the step, in both encodings; an idle step and a debug-halted step return their fixed costs. -/
def Obligations.StepCostIsBaseHandlerAndFetch : Prop :=
  (∀ (c : Cond) (opHi : BitVec 8) (mid : Nat) (opLo : BitVec 4) (low : Nat) (s t : State),
    exec (Instr.a32 c opHi mid opLo low) s = .next t →
      (passes c s.cur.cpsr = false → t.result = .cost (1 + 0 +
        Config.fetchCost s.current (Config.region s.current t.cur.pIA) (fetchWidth (flagT t.cur.cpsr)))) ∧
      (∀ r, passes c s.cur.cpsr = true → runHandler32 s (index32 opHi opLo) = .ok r → t.result = .cost (1 + r.cycles +
        Config.fetchCost s.current (Config.region s.current t.cur.pIA) (fetchWidth (flagT t.cur.cpsr))))) ∧
  (∀ (op16 : BitVec 10) (low : Nat) (s t : State) (r : HandlerRun),
    exec (.t16 op16 low) s = .next t → runHandler16 s op16 = .ok r → t.result = .cost (1 + r.cycles +
      Config.fetchCost s.current (Config.region s.current t.cur.pIA) (fetchWidth (flagT t.cur.cpsr)))) ∧
  (∀ s : State, s.cur.initialised = true →
    (s.platform.debugAttached.get s.current = true → s.cur.debugHalted = true →
      ∃ t, stepCore s = .next t ∧ t.result = .cost Config.debugHaltCost) ∧
    ((s.platform.debugAttached.get s.current && s.cur.debugHalted) = false → s.cur.waitingForInterrupt = true →
      ∃ t, stepCore s = .next t ∧ t.result = .cost Config.idleCost))

/-- After every dispatched or skipped instruction the hook is called once where the control-plane is attached, with the
address and encoding sampled before dispatch, and not where it is absent (43_dispatch.md section 1; the sampling and the
skipped instructions are the spec's own choice D21). -/
def Obligations.NotificationAfterEveryInstruction : Prop :=
  ∀ (i : Instr) (s t : State), exec i s = .next t →
    (s.platform.debugAttached.get s.current = true →
      t.notifications = s.notifications ++ [⟨s.current, s.cur.pIA, flagT s.cur.cpsr⟩]) ∧
    (s.platform.debugAttached.get s.current = false → t.notifications = s.notifications)

/-- The frame of an executed instruction around its handler: the engine itself then writes only the latch, nFA and R[15] of the
current core; every other register, flag, saved status and shadow is as the handler left it, memory is what the closing
fetch leaves (in plain memory, every byte as the handler left it), and the other core is untouched (43_dispatch.md
sections 1 and 2; 41_prefetch.md R159, derived there). That the request, the vector base, the handles, the memory
reference, the debug halt and initialised are as before the step also rests on the handler's contract: obligation 4 of
43_dispatch.md section 3, the spec's own choice D18, and log 3. -/
def Obligations.ExecutedInstructionFrame : Prop :=
  ∀ (i : Instr) (s t : State) (r : HandlerRun), exec i s = .next t →
    ((∃ c opHi mid opLo low, i = Instr.a32 c opHi mid opLo low ∧ passes c s.cur.cpsr = true ∧
        runHandler32 s (index32 opHi opLo) = .ok r) ∨
      (∃ op16 low, i = .t16 op16 low ∧ runHandler16 s op16 = .ok r)) →
      (∀ j : Fin 16, j ≠ 15 → t.cur.reg j = r.core.reg j) ∧ t.cur.cpsr = r.core.cpsr ∧ t.cur.spsrs = r.core.spsrs ∧
      (∀ g, t.cur.pair g = r.core.pair g) ∧ t.cur.bankFiq = r.core.bankFiq ∧
      t.cur.waitingForInterrupt = r.core.waitingForInterrupt ∧
      t.mem = prefetchedMem s.platform s.current r.mem r.core ∧
      (s.platform.collaborator = .plain → fetchAligned (flagT r.core.cpsr) r.core.nFA = true →
        ∀ a : Word, t.mem.bytes.byteAt a = r.mem.bytes.byteAt a) ∧
      t.cur.pIA = r.core.nFA ∧
      t.cur.irqPending = s.cur.irqPending ∧ t.cur.interruptVectorBase = s.cur.interruptVectorBase ∧
      t.cur.coprocessorHandles = s.cur.coprocessorHandles ∧ t.cur.memoryInterface = s.cur.memoryInterface ∧
      t.cur.debugHalted = s.cur.debugHalted ∧ t.cur.initialised = s.cur.initialised ∧
      t.core s.current.other = s.core s.current.other ∧
      t.platform = s.platform ∧ t.current = s.current ∧ t.calls = s.calls

/-! ### Handlers under their contract (43_dispatch.md section 3) -/

/-- A breach of an obligation is a fault, whatever the state: a status word with another mode written directly, an engine
operation called, a protected component written (43_dispatch.md section 3; the obligations are the spec's own choice
D18, the effects this model's, log 3). A status word with the same mode is written whole. -/
def Obligations.HandlerContractBreachesFault : Prop :=
  ∀ (pf : Platform) (p : CoreId) (r : HandlerRun),
    (∀ (e : Expr) (v : Word), e.eval p r = .ok v →
      (modeField v ≠ modeField r.core.cpsr → (Action.setCpsr e).perform pf p r = .error (.fault .handlerContract)) ∧
      (modeField v = modeField r.core.cpsr →
        (Action.setCpsr e).perform pf p r = .ok { r with core := { r.core with cpsr := v } })) ∧
    (∀ op, (Action.callEngine op).perform pf p r = .error (.fault .handlerContract)) ∧
    (∀ f, (Action.writeProtected f).perform pf p r = .error (.fault .handlerContract))

/-- A handler that runs to its end has written none of the components it must not write, and a legal mode is still legal where
malformed modes are trapped (43_dispatch.md section 3, obligations 2 and 4; D18). -/
def Obligations.HandlersKeepTheirContract : Prop :=
  ∀ (pf : Platform) (p : CoreId) (b : Script) (r r' : HandlerRun), b.run pf p r = .ok r' →
    r'.core.interruptVectorBase = r.core.interruptVectorBase ∧
    r'.core.coprocessorHandles = r.core.coprocessorHandles ∧ r'.core.memoryInterface = r.core.memoryInterface ∧
    r'.core.irqPending = r.core.irqPending ∧ r'.core.debugHalted = r.core.debugHalted ∧
    r'.core.initialised = r.core.initialised ∧
    (pf.malformedMode = .fault → legalMode p (modeField r.core.cpsr) = true →
      legalMode p (modeField r'.core.cpsr) = true)

/-- A handler's writes to pI, pIA and R[15] have no effect on the step: it completes to the same state whatever they are, so
in particular a write of R[15] does not branch (43_dispatch.md section 3, obligation 5; 70_reset_and_hazards.md section
3; derived there). -/
def Obligations.LatchAndR15WritesHaveNoEffect : Prop :=
  ∀ (s : State) (c : Core) (m : SharedMemory) (n : Nat) (x y v : Word),
    completeStep s (({ c with pI := x, pIA := y } : Core).setReg 15 v) m n = completeStep s c m n

/-- Redirection and change of encoding: a handler that only writes nFA makes the next instruction the one at the target, in
the same encoding; one that also writes the status word, in the same mode, makes it one of the encoding of the T it wrote,
latched with that width (43_dispatch.md R212, R216; 41_prefetch.md R154; derived there). For T16 and for every A32 class
whose condition passes. -/
def Obligations.RedirectionReachesTheTarget : Prop :=
  ∀ (i : Instr) (s : State) (target status : Word) (body : Script),
    ((∃ c opHi mid opLo low, i = Instr.a32 c opHi mid opLo low ∧ passes c s.cur.cpsr = true ∧
        handler32At s.platform s.current (index32 opHi opLo) = .scripted body) ∨
      (∃ op16 low, i = .t16 op16 low ∧ handler16At s.platform s.current op16 = .scripted body)) →
    ((body = .act (.setNextFetch (.const target)) ∧ status = s.cur.cpsr) ∨
      (body = .seq (.act (.setCpsr (.const status))) (.act (.setNextFetch (.const target))) ∧
        modeField status = modeField s.cur.cpsr)) →
    fetchAligned (flagT status) target = true →
      ∃ t, exec i s = .next t ∧ t.cur.cpsr = status ∧ t.cur.pIA = target ∧
        t.cur.nFA = target + instrWidth (flagT status) ∧
        t.cur.reg 15 = target + instrWidth (flagT status) + instrWidth (flagT status) ∧
        t.cur.pI = fetchLatched s.platform s.current s.mem (flagT status) target ∧
        t.mem = fetchLeaves s.platform s.current s.mem (flagT status) target ∧
        (s.platform.collaborator = .plain →
          t.cur.pI = s.mem.bytes.load s.platform.byteOrder (if flagT status then .half else .word) target ∧
          ∀ a : Word, t.mem.bytes.byteAt a = s.mem.bytes.byteAt a) ∧
        (∀ j : Fin 16, j ≠ 15 → t.cur.reg j = s.cur.reg j)

/-- The effects and frames of a handler's writes and accesses. A write of R[k] writes that register and nothing else, none
being hardwired (10_state.md R22); a write of a shadow register, or of a saved status register by name, writes it alone,
and on core 1, which has no fast-interrupt storage, that storage is refused (10_state.md R26, R36; log 24). A store to
plain memory at a multiple of its width changes the bytes from its address on, as many as the width, and no other byte
and no register, and is read back; a load there keeps what memory holds and changes nothing. Every other access is the
collaborator's: one answer, whatever it is (00_scope.md R6, R12; 20_memory.md section 1; the form of accesses is this
model's choice, log 18, 19). -/
def Obligations.HandlerEffectFrame : Prop :=
  ∀ (pf : Platform) (p : CoreId) (r : HandlerRun) (ea ev : Expr) (a v : Word),
    ea.eval p r = .ok a → ev.eval p r = .ok v →
      (∃ r', (Action.setReg ea ev).perform pf p r = .ok r' ∧ r'.core.reg (Fin.ofNat 16 a.toNat) = v ∧
        (∀ j : Fin 16, j.val ≠ a.toNat % 16 → r'.core.reg j = r.core.reg j) ∧
        { r'.core with regs := r.core.regs } = r.core ∧ r'.mem = r.mem ∧ r'.cycles = r.cycles) ∧
      (∀ (g : PairGroup) (k : PairReg), ∃ r', (Action.setShadow (.pair g k) ev).perform pf p r = .ok r' ∧
        (r'.core.pair g).get k = v ∧ (∀ j, j ≠ k → (r'.core.pair g).get j = (r.core.pair g).get j) ∧
        r'.core.setPair g (r.core.pair g) = r.core ∧ r'.mem = r.mem ∧ r'.cycles = r.cycles) ∧
      (∀ k : FiqReg,
        (p = .primary → ∃ r', (Action.setShadow (.fiq k) ev).perform pf p r = .ok r' ∧ r'.core.bankFiq.get k = v ∧
          (∀ j, j ≠ k → r'.core.bankFiq.get j = r.core.bankFiq.get j) ∧
          { r'.core with bankFiq := r.core.bankFiq } = r.core ∧ r'.mem = r.mem ∧ r'.cycles = r.cycles) ∧
        (p = .secondary → (Action.setShadow (.fiq k) ev).perform pf p r = .error (.refused .absentStorage) ∧
          (Expr.shadow (.fiq k)).eval p r = .error (.refused .absentStorage))) ∧
      (∀ slot : SpsrSlot, slot ≠ .fiq ∨ p = .primary →
        ∃ r', (Action.setSpsrOf slot ev).perform pf p r = .ok r' ∧ r'.core.spsrs.get slot = v ∧
          (∀ j, j ≠ slot → r'.core.spsrs.get j = r.core.spsrs.get j) ∧
          { r'.core with spsrs := r.core.spsrs } = r.core ∧ r'.mem = r.mem ∧ r'.cycles = r.cycles) ∧
      (p = .secondary → (Action.setSpsrOf .fiq ev).perform pf p r = .error (.refused .absentStorage) ∧
        (Expr.spsrOf .fiq).eval p r = .error (.refused .absentStorage)) ∧
      (∀ w : AccessWidth, ∃ r', (Action.store w ea ev).perform pf p r = .ok r' ∧ r'.core = r.core ∧
        r'.cycles = r.cycles ∧
        (pf.collaborator = .plain → a.toNat % w.bytes = 0 →
          (∀ b : Word, (∀ k : Nat, k < w.bytes → b ≠ a + BitVec.ofNat 32 k) →
            r'.mem.bytes.byteAt b = r.mem.bytes.byteAt b) ∧
          (r.mem.bytes.wf = true → r'.mem.bytes.wf = true ∧
            r'.mem.bytes.load pf.byteOrder w a =
              match w with
              | .byte => (v.setWidth 8).setWidth 32
              | .half => (v.setWidth 16).setWidth 32
              | .word => v)) ∧
        (pf.collaborator = .oracle ∨ a.toNat % w.bytes ≠ 0 → r'.mem = r.mem.answered ⟨p, .store v, w, a⟩)) ∧
      ∀ (w : AccessWidth) (dst : Nat), ∃ r', (Action.load w ea dst).perform pf p r = .ok r' ∧ r'.core = r.core ∧
        r'.cycles = r.cycles ∧
        (pf.collaborator = .plain → a.toNat % w.bytes = 0 →
          r'.mem = r.mem ∧ (Expr.loc dst).eval p r' = .ok (r.mem.bytes.load pf.byteOrder w a)) ∧
        (pf.collaborator = .oracle ∨ a.toNat % w.bytes ≠ 0 →
          r'.mem = r.mem.answered ⟨p, .load, w, a⟩ ∧
          (Expr.loc dst).eval p r' = .ok (w.narrow (r.mem.answer ⟨p, .load, w, a⟩).value))

/-- The current saved status register is the slot of the current mode; in USR, SYS or a malformed mode an access is
Fault(NoSPSR) (10_state.md R36, R37; the fault is the spec's own choice D4). The third clause says which slot is which mode's
by the mode field's numbers (R33): the numbers are general knowledge the spec adopts (D2, log 20), and that 0x11 is no mode
of core 1 is its choice D17. -/
def Obligations.CurrentSpsrIsTheModesSlot : Prop :=
  ∀ (p : CoreId) (c : Core) (v : Word),
    (∀ slot, currentSlot p c = some slot →
      readSpsr p c = .ok (c.spsrs.get slot) ∧
      ∃ d, writeSpsr p c v = .ok d ∧ d.spsrs.get slot = v ∧
        (∀ other, other ≠ slot → d.spsrs.get other = c.spsrs.get other) ∧ { d with spsrs := c.spsrs } = c) ∧
    (currentSlot p c = none →
      readSpsr p c = .error (.fault .noSpsr) ∧ writeSpsr p c v = .error (.fault .noSpsr)) ∧
    (currentSlot p c =
      if modeField c.cpsr = 0x13#5 then some .svc else if modeField c.cpsr = 0x17#5 then some .abt
      else if modeField c.cpsr = 0x1B#5 then some .und else if modeField c.cpsr = 0x12#5 then some .irq
      else if modeField c.cpsr = 0x11#5 ∧ p = .primary then some .fiq else none)

/-! ### The Register Bank Manager (40_bank_switch.md) -/

/-- R125 and R126: the mode field becomes newMode & 0x1F, CPSR[31:5] is unchanged, and the result is the mode before. -/
def Obligations.SwitchWritesTheModeAndReturnsTheOldOne : Prop :=
  ∀ (policy : MalformedModePolicy) (p : CoreId) (newMode : Word) (c d : Core) (old : BitVec 5),
    switchMode policy p newMode c = .ok (old, d) →
      (modeField d.cpsr).setWidth 32 = newMode &&& 0x1F#32 ∧
      (∀ k, 5 ≤ k → d.cpsr.getLsbD k = c.cpsr.getLsbD k) ∧ old = modeField c.cpsr

/-- R127: switchMode has no other effect: not R[0] to R[7], not R[15], not the latch or nFA, not CPSR[31:5], no saved status
register, not the halt or the pending request (nor any other special register); and the handler that calls it finds
memory as it was and no cycles added. -/
def Obligations.SwitchHasNoOtherEffect : Prop :=
  (∀ (pf : Platform) (p : CoreId) (e : Expr) (dst : Nat) (r r' : HandlerRun),
    (Action.switchMode e dst).perform pf p r = .ok r' → r'.mem = r.mem ∧ r'.cycles = r.cycles) ∧
  ∀ (policy : MalformedModePolicy) (p : CoreId) (newMode : Word) (c d : Core) (old : BitVec 5),
    switchMode policy p newMode c = .ok (old, d) →
      (∀ j : Fin 16, j.val < 8 ∨ j = 15 → d.reg j = c.reg j) ∧ d.pI = c.pI ∧ d.pIA = c.pIA ∧ d.nFA = c.nFA ∧
      (∀ k, 5 ≤ k → d.cpsr.getLsbD k = c.cpsr.getLsbD k) ∧ d.spsrs = c.spsrs ∧
      d.waitingForInterrupt = c.waitingForInterrupt ∧ d.irqPending = c.irqPending ∧
      d.interruptVectorBase = c.interruptVectorBase ∧ d.coprocessorHandles = c.coprocessorHandles ∧
      d.memoryInterface = c.memoryInterface ∧ d.debugHalted = c.debugHalted ∧ d.initialised = c.initialised

/-- Between two modes of pair groups (40_bank_switch.md R122, R123): the left group's shadows get R[13] and R[14], those get
the entered group's shadows (their own values where the group is the same), and every other shadow and R[8] to R[12]
stay. The switch completes. -/
def Obligations.SwitchBetweenPairGroups : Prop :=
  ∀ (policy : MalformedModePolicy) (p : CoreId) (newMode : Word) (c : Core) (g k : PairGroup),
    groupOf p (modeField c.cpsr) = some (.pair g) → groupOf p (modeField newMode) = some (.pair k) →
      ∃ d, switchMode policy p newMode c = .ok (modeField c.cpsr, d) ∧
        d.pair g = { r13 := c.reg 13, r14 := c.reg 14 } ∧
        d.reg 13 = (if k = g then c.reg 13 else (c.pair k).r13) ∧
        d.reg 14 = (if k = g then c.reg 14 else (c.pair k).r14) ∧
        (∀ j, j ≠ g → d.pair j = c.pair j) ∧ d.bankFiq = c.bankFiq ∧
        (∀ j : Fin 16, 8 ≤ j.val → j.val ≤ 12 → d.reg j = c.reg j)

/-- Into and out of the fast-interrupt mode on core 0 (40_bank_switch.md R122 to R124): R[8] to R[12] are exchanged with their
shadows; R[13] and R[14] are copied into the left group's shadows and taken from the entered group's; every other shadow
stays. That 0x11 is the fast-interrupt mode is general knowledge the spec adopts (D2, log 20). -/
def Obligations.FastInterruptSwitchExchangesRegisters : Prop :=
  ∀ (policy : MalformedModePolicy) (newMode : Word) (c : Core) (g : PairGroup),
    (groupOf .primary (modeField c.cpsr) = some (.pair g) → modeField newMode = 0x11#5 →
      ∃ d, switchMode policy .primary newMode c = .ok (modeField c.cpsr, d) ∧
        d.pair g = { r13 := c.reg 13, r14 := c.reg 14 } ∧ (∀ j, j ≠ g → d.pair j = c.pair j) ∧
        d.reg 8 = c.bankFiq.r8 ∧ d.reg 9 = c.bankFiq.r9 ∧ d.reg 10 = c.bankFiq.r10 ∧ d.reg 11 = c.bankFiq.r11 ∧
        d.reg 12 = c.bankFiq.r12 ∧ d.reg 13 = c.bankFiq.r13 ∧ d.reg 14 = c.bankFiq.r14 ∧
        d.bankFiq = { c.bankFiq with r8 := c.reg 8, r9 := c.reg 9, r10 := c.reg 10, r11 := c.reg 11, r12 := c.reg 12 }) ∧
    (modeField c.cpsr = 0x11#5 → groupOf .primary (modeField newMode) = some (.pair g) →
      ∃ d, switchMode policy .primary newMode c = .ok (0x11#5, d) ∧
        (∀ j, d.pair j = c.pair j) ∧ d.reg 13 = (c.pair g).r13 ∧ d.reg 14 = (c.pair g).r14 ∧
        d.reg 8 = c.bankFiq.r8 ∧ d.reg 9 = c.bankFiq.r9 ∧ d.reg 10 = c.bankFiq.r10 ∧ d.reg 11 = c.bankFiq.r11 ∧
        d.reg 12 = c.bankFiq.r12 ∧
        d.bankFiq = { r8 := c.reg 8, r9 := c.reg 9, r10 := c.reg 10, r11 := c.reg 11, r12 := c.reg 12,
                      r13 := c.reg 13, r14 := c.reg 14 })

/-- Two modes of one group (40_bank_switch.md R128, R129, derived there): a switch to the current mode, or between USER and
SYSTEM, changes no general register, and of the status word only the mode field. That USER is 0x10 and SYSTEM 0x1F is general
knowledge the spec adopts (D2, log 20). -/
def Obligations.SameGroupSwitchKeepsTheRegisters : Prop :=
  ∀ (policy : MalformedModePolicy) (p : CoreId) (newMode : Word) (c : Core),
    (groupOf p (modeField c.cpsr)).isSome = true → groupOf p (modeField newMode) = groupOf p (modeField c.cpsr) →
      ∃ d, switchMode policy p newMode c = .ok (modeField c.cpsr, d) ∧ (∀ j, d.reg j = c.reg j) ∧
        (modeField newMode = modeField c.cpsr → d.cpsr = c.cpsr) ∧
        groupOf p 0x10#5 = groupOf p 0x1F#5

/-- Malformed modes (40_bank_switch.md R130, R131; the policy is the spec's parameter, D16, D17): the legal values are the
modes of the core (10_state.md section 4 and 40_bank_switch.md section 1; the values are the spec's general knowledge, log
20 and D2, and core 1's lack of 0x11 is its choice D17); under the policy fault a switch from or to any other value is
Fault(MalformedMode), otherwise the switch is made; under noop_swap every switch is made, the phase of a malformed mode
does nothing and the other phase runs: a pair group's copy, or on core 0 the fast-interrupt group's exchange. -/
def Obligations.MalformedModePolicyIsFollowed : Prop :=
  (∀ (p : CoreId) (m : BitVec 5), legalMode p m = true ↔
    (m = 0x10#5 ∨ m = 0x12#5 ∨ m = 0x13#5 ∨ m = 0x17#5 ∨ m = 0x1B#5 ∨ m = 0x1F#5 ∨ (m = 0x11#5 ∧ p = .primary))) ∧
  (∀ (p : CoreId) (newMode : Word) (c : Core),
    (legalMode p (modeField c.cpsr) = false ∨ legalMode p (modeField newMode) = false →
      switchMode .fault p newMode c = .error (.fault .malformedMode)) ∧
    (legalMode p (modeField c.cpsr) = true → legalMode p (modeField newMode) = true →
      ∃ d, switchMode .fault p newMode c = .ok (modeField c.cpsr, d)) ∧
    (∃ d, switchMode .noopSwap p newMode c = .ok (modeField c.cpsr, d) ∧
      (∀ g, groupOf p (modeField c.cpsr) = some (.pair g) → legalMode p (modeField newMode) = false →
        d.pair g = { r13 := c.reg 13, r14 := c.reg 14 } ∧ ∀ j, d.reg j = c.reg j) ∧
      (∀ g, legalMode p (modeField c.cpsr) = false → groupOf p (modeField newMode) = some (.pair g) →
        d.reg 13 = (c.pair g).r13 ∧ d.reg 14 = (c.pair g).r14 ∧ ∀ j, d.pair j = c.pair j) ∧
      (legalMode p (modeField c.cpsr) = false → legalMode p (modeField newMode) = false →
        d = { c with cpsr := setModeField c.cpsr (modeField newMode) }))) ∧
  (∀ (newMode : Word) (c : Core), modeField c.cpsr = 0x11#5 → legalMode .primary (modeField newMode) = false →
    ∃ d, switchMode .noopSwap .primary newMode c = .ok (0x11#5, d) ∧
      d.reg 8 = c.bankFiq.r8 ∧ d.reg 9 = c.bankFiq.r9 ∧ d.reg 10 = c.bankFiq.r10 ∧ d.reg 11 = c.bankFiq.r11 ∧
      d.reg 12 = c.bankFiq.r12 ∧ d.reg 13 = c.reg 13 ∧ d.reg 14 = c.reg 14 ∧ (∀ j, d.pair j = c.pair j) ∧
      d.bankFiq = { r8 := c.reg 8, r9 := c.reg 9, r10 := c.reg 10, r11 := c.reg 11, r12 := c.reg 12,
                    r13 := c.reg 13, r14 := c.reg 14 }) ∧
  (∀ (newMode : Word) (c : Core), legalMode .primary (modeField c.cpsr) = false → modeField newMode = 0x11#5 →
    ∃ d, switchMode .noopSwap .primary newMode c = .ok (modeField c.cpsr, d) ∧
      d.reg 8 = c.bankFiq.r8 ∧ d.reg 9 = c.bankFiq.r9 ∧ d.reg 10 = c.bankFiq.r10 ∧ d.reg 11 = c.bankFiq.r11 ∧
      d.reg 12 = c.bankFiq.r12 ∧ d.reg 13 = c.bankFiq.r13 ∧ d.reg 14 = c.bankFiq.r14 ∧ (∀ j, d.pair j = c.pair j) ∧
      d.bankFiq = { c.bankFiq with r8 := c.reg 8, r9 := c.reg 9, r10 := c.reg 10, r11 := c.reg 11, r12 := c.reg 12 })

/-- Bank isolation (40_bank_switch.md R133, derived there): for every two legal modes whose groups differ, R[13] and R[14]
written in the first, and others written in the second, the first's are back after returning to it; so are R[8] to R[12]
when exactly one of the modes is the fast-interrupt mode. -/
def Obligations.BankIsolation : Prop :=
  ∀ (policy : MalformedModePolicy) (p : CoreId) (m1 m2 : Word) (c : Core) (a13 a14 b13 b14 a8 b8 : Word) (j : Fin 16),
    modeField c.cpsr = modeField m1 → legalMode p (modeField m1) = true → legalMode p (modeField m2) = true →
    groupOf p (modeField m1) ≠ groupOf p (modeField m2) → 8 ≤ j.val → j.val ≤ 12 →
      ∃ d e, switchMode policy p m2 (((c.setReg 13 a13).setReg 14 a14).setReg j a8) = .ok (modeField m1, d) ∧
        switchMode policy p m1 (((d.setReg 13 b13).setReg 14 b14).setReg j b8) = .ok (modeField m2, e) ∧
        e.reg 13 = a13 ∧ e.reg 14 = a14 ∧
        ((groupOf p (modeField m1) = some .fiq ∨ groupOf p (modeField m2) = some .fiq) → e.reg j = a8)

/-- The fast-interrupt round trip (40_bank_switch.md R134, derived there): on core 0, from any other legal mode, into the
fast-interrupt mode (0x11: D2, log 20) and back leaves R[8] to R[12] and their shadows as they were. -/
def Obligations.FastInterruptRoundTrip : Prop :=
  ∀ (policy : MalformedModePolicy) (m : Word) (c : Core), modeField c.cpsr = modeField m → modeField m ≠ 0x11#5 →
    legalMode .primary (modeField m) = true →
      ∃ d e, switchMode policy .primary 0x11 c = .ok (modeField m, d) ∧
        switchMode policy .primary m d = .ok (0x11#5, e) ∧
        (∀ j : Fin 16, 8 ≤ j.val → j.val ≤ 12 → e.reg j = c.reg j) ∧
        e.bankFiq.r8 = c.bankFiq.r8 ∧ e.bankFiq.r9 = c.bankFiq.r9 ∧ e.bankFiq.r10 = c.bankFiq.r10 ∧
        e.bankFiq.r11 = c.bankFiq.r11 ∧ e.bankFiq.r12 = c.bankFiq.r12

/-! ### The Fetch/Prefetch Unit (41_prefetch.md) -/

/-- A prefetch at an aligned address (41_prefetch.md R150, R151, R152; the zero-extension of a halfword is the spec's own choice
D6): the instruction at nFA, its address, the next address, R[15] two instructions ahead, the cost of (identity, region,
width), and nothing else of the core. Plain memory answers what it holds and is unchanged; an oracle answers anything, to
one access (20_memory.md section 1; 00_scope.md section 2; the two collaborators are this model's, log 19). -/
def Obligations.PrefetchFillsTheLatchFromMemory : Prop :=
  ∀ (pf : Platform) (p : CoreId) (m : SharedMemory) (c : Core),
    (flagT c.cpsr = false → c.nFA.toNat % 4 = 0 →
      ∃ d m', prefetch pf p m c = .ok (d, m', Config.fetchCost p (Config.region p c.nFA) .four) ∧
        (pf.collaborator = .plain → d.pI = m.bytes.wordAt pf.byteOrder c.nFA ∧ m' = m) ∧
        (pf.collaborator = .oracle →
          d.pI = (Config.memoryOracle m.asked ⟨p, .fetch, .word, c.nFA⟩ m.bytes).value ∧
          m' = m.answered ⟨p, .fetch, .word, c.nFA⟩ ∧ m'.asked = m.asked + 1) ∧
        d.pIA = c.nFA ∧ d.nFA = c.nFA + 4#32 ∧ d.reg 15 = c.nFA + 8#32 ∧
        (∀ j : Fin 16, j ≠ 15 → d.reg j = c.reg j) ∧
        { d with pI := c.pI, pIA := c.pIA, nFA := c.nFA, regs := c.regs } = c) ∧
    (flagT c.cpsr = true → c.nFA.toNat % 2 = 0 →
      ∃ d m', prefetch pf p m c = .ok (d, m', Config.fetchCost p (Config.region p c.nFA) .two) ∧
        (pf.collaborator = .plain → d.pI = (m.bytes.halfAt pf.byteOrder c.nFA).setWidth 32 ∧ m' = m) ∧
        (pf.collaborator = .oracle →
          d.pI = ((Config.memoryOracle m.asked ⟨p, .fetch, .half, c.nFA⟩ m.bytes).value.setWidth 16).setWidth 32 ∧
          m' = m.answered ⟨p, .fetch, .half, c.nFA⟩ ∧ m'.asked = m.asked + 1) ∧
        d.pIA = c.nFA ∧ d.nFA = c.nFA + 2#32 ∧ d.reg 15 = c.nFA + 4#32 ∧
        (∀ j : Fin 16, j ≠ 15 → d.reg j = c.reg j) ∧
        { d with pI := c.pI, pIA := c.pIA, nFA := c.nFA, regs := c.regs } = c)

/-- A misaligned prefetch (41_prefetch.md R156; the policy is the spec's parameter, D10): Fault(MisalignedFetch) under fault;
under pass_through it runs from the address as it stands, for whatever the collaborator answers, be its aligned accesses
plain memory's or an oracle's (log 11). -/
def Obligations.MisalignedPrefetchFollowsThePolicy : Prop :=
  ∀ (pf : Platform) (p : CoreId) (m : SharedMemory) (c : Core),
    c.nFA.toNat % (if flagT c.cpsr then 2 else 4) ≠ 0 →
      (pf.misalignedFetch = .fault → prefetch pf p m c = .error (.fault .misalignedFetch)) ∧
      (pf.misalignedFetch = .passThrough →
        ∃ d n, prefetch pf p m c = .ok (d, m.answered ⟨p, .fetch, if flagT c.cpsr then .half else .word, c.nFA⟩, n) ∧
          d.pI = AccessWidth.narrow (if flagT c.cpsr then .half else .word)
            (m.answer ⟨p, .fetch, if flagT c.cpsr then .half else .word, c.nFA⟩).value ∧
          d.pIA = c.nFA ∧ d.nFA = c.nFA + instrWidth (flagT c.cpsr) ∧
          d.reg 15 = c.nFA + instrWidth (flagT c.cpsr) + instrWidth (flagT c.cpsr) ∧
          (∀ j : Fin 16, j ≠ 15 → d.reg j = c.reg j) ∧
          { d with pI := c.pI, pIA := c.pIA, nFA := c.nFA, regs := c.regs } = c)

/-! ### Interrupts (60_exceptions.md) -/

/-- flagInterrupt (60_exceptions.md R241; the latch is the spec's own choice D7): rejected with nothing changed while I is
set, otherwise accepted: the halt is cleared, the request is held, and nothing else changes. -/
def Obligations.FlagInterruptHoldsTheRequest : Prop :=
  ∀ c : Core, c.initialised = true →
    (c.cpsr.getLsbD 7 = true → flagInterrupt c = .ok (false, c)) ∧
    (c.cpsr.getLsbD 7 = false →
      flagInterrupt c = .ok (true, { c with waitingForInterrupt := false, irqPending := true }))

/-- R242: with IRQ-disable set, enterInterrupt is false and leaves every Core State field unchanged, irqPending included (and
memory as it was: it makes no access). -/
def Obligations.MaskedInterruptEntryChangesNothing : Prop :=
  ∀ (pf : Platform) (p : CoreId) (m : SharedMemory) (c : Core), c.initialised = true → c.cpsr.getLsbD 7 = true →
    enterInterrupt pf p m c = .ok (false, c, m)

/-- Interrupt entry (60_exceptions.md R243, R244; D7, D22, D23 are the spec's own choices): from a legal mode with I clear, and a
vector base that is a multiple of four, it is accepted; the whole status word goes to SPSR[IRQ], R[14] gets pIA + 4, the
mode is IRQ with T clear and I set and every other status bit kept, R[13] comes from the IRQ shadow (unless the mode
already was IRQ), R[13] and R[14] as they were are in the left group's shadows, from the fast-interrupt mode R[8] to R[12]
are exchanged with theirs, and the vector's instruction is latched, from plain memory or from an oracle's one answer (log
19). From a malformed mode under the policy fault it is Fault(MalformedMode) (D16). That IRQ is 0x12 is general knowledge the
spec adopts (D2, log 20). -/
def Obligations.InterruptEntrySequence : Prop :=
  ∀ (pf : Platform) (p : CoreId) (m : SharedMemory) (c : Core), c.initialised = true → c.cpsr.getLsbD 7 = false →
    (legalMode p (modeField c.cpsr) = true → c.interruptVectorBase.toNat % 4 = 0 →
      ∃ d m', enterInterrupt pf p m c = .ok (true, d, m') ∧
        d.spsrs = { c.spsrs with irq := c.cpsr } ∧ d.reg 14 = c.pIA + 4#32 ∧
        d.reg 13 = (if modeField c.cpsr = 0x12#5 then c.reg 13 else c.bankIrq.r13) ∧
        (∀ g, groupOf p (modeField c.cpsr) = some (.pair g) → d.pair g = { r13 := c.reg 13, r14 := c.reg 14 }) ∧
        (groupOf p (modeField c.cpsr) = some .fiq →
          d.reg 8 = c.bankFiq.r8 ∧ d.reg 9 = c.bankFiq.r9 ∧ d.reg 10 = c.bankFiq.r10 ∧ d.reg 11 = c.bankFiq.r11 ∧
          d.reg 12 = c.bankFiq.r12 ∧
          d.bankFiq = { r8 := c.reg 8, r9 := c.reg 9, r10 := c.reg 10, r11 := c.reg 11, r12 := c.reg 12,
                        r13 := c.reg 13, r14 := c.reg 14 }) ∧
        modeField d.cpsr = 0x12#5 ∧ d.cpsr.getLsbD 5 = false ∧ d.cpsr.getLsbD 7 = true ∧
        (∀ k, 5 < k → k ≠ 7 → d.cpsr.getLsbD k = c.cpsr.getLsbD k) ∧
        (pf.collaborator = .plain →
          d.pI = m.bytes.wordAt pf.byteOrder (c.interruptVectorBase + 0x18#32) ∧ m' = m) ∧
        (pf.collaborator = .oracle →
          d.pI = (m.answer ⟨p, .fetch, .word, c.interruptVectorBase + 0x18#32⟩).value ∧
          m' = m.answered ⟨p, .fetch, .word, c.interruptVectorBase + 0x18#32⟩) ∧
        d.pIA = c.interruptVectorBase + 0x18#32 ∧ d.nFA = c.interruptVectorBase + 0x1C#32 ∧
        d.reg 15 = c.interruptVectorBase + 0x20#32 ∧ d.waitingForInterrupt = false ∧ d.irqPending = false) ∧
    (pf.malformedMode = .fault → legalMode p (modeField c.cpsr) = false →
      enterInterrupt pf p m c = .error (.fault .malformedMode))

/-- R245: an accepted entry stores the whole status word as it was before the mode switch into SPSR[IRQ], and writes no other
saved status slot. -/
def Obligations.EntrySavesTheStatusWordInTheIrqSlot : Prop :=
  ∀ (pf : Platform) (p : CoreId) (m m' : SharedMemory) (c d : Core), enterInterrupt pf p m c = .ok (true, d, m') →
    d.spsrs.get .irq = c.cpsr ∧ ∀ slot, slot ≠ .irq → d.spsrs.get slot = c.spsrs.get slot

/-- What entry preserves (60_exceptions.md R248, derived there): R[0] to R[7], and from a mode other than the fast-interrupt
one R[8] to R[12] and its shadows; every shadow pair but the left group's; the special registers it does not name. -/
def Obligations.EntryKeepsEverythingElse : Prop :=
  ∀ (pf : Platform) (p : CoreId) (m m' : SharedMemory) (c d : Core), enterInterrupt pf p m c = .ok (true, d, m') →
    (∀ j : Fin 16, j.val < 8 → d.reg j = c.reg j) ∧
    (groupOf p (modeField c.cpsr) ≠ some .fiq →
      d.bankFiq = c.bankFiq ∧ ∀ j : Fin 16, 8 ≤ j.val → j.val ≤ 12 → d.reg j = c.reg j) ∧
    (∀ g, groupOf p (modeField c.cpsr) ≠ some (.pair g) → d.pair g = c.pair g) ∧
    d.interruptVectorBase = c.interruptVectorBase ∧ d.coprocessorHandles = c.coprocessorHandles ∧
    d.memoryInterface = c.memoryInterface ∧ d.debugHalted = c.debugHalted ∧ d.initialised = c.initialised

/-- The step-boundary check (43_dispatch.md R203; D7, D19 are the spec's own choices): a step that is neither debug-halted nor
idle, with a request pending, enters the interrupt and dispatches the vector's instruction in the same step; while I is
set it changes nothing first and dispatches what was latched, and the request stays. -/
def Obligations.StepEntersThePendingInterrupt : Prop :=
  ∀ s : State, s.cur.initialised = true → (s.platform.debugAttached.get s.current && s.cur.debugHalted) = false →
    s.cur.waitingForInterrupt = false → s.cur.irqPending = true →
      (s.cur.cpsr.getLsbD 7 = true → stepCore s = exec s.latched s) ∧
      (∀ d m, enterInterrupt s.platform s.current s.mem s.cur = .ok (true, d, m) →
        stepCore s = exec (decodeLatch false d.pI) (s.setCoreAndMem s.current d m)) ∧
      (∀ e, enterInterrupt s.platform s.current s.mem s.cur = .error e → stepCore s = stopped e)

/-- Entry and return (60_exceptions.md R244, R252; the offset in T16 is the spec's own choice D23, the return a handler's, here
the script of R252): from any legal mode but IRQ itself, an accepted entry followed by the handler's return to R[14] - 4
gives back the status word, every general register but R[15], the shadows of every group but the two used, and the next
fetch at the interrupted instruction; the return makes no access to memory. That IRQ is 0x12 is general knowledge the spec
adopts (D2, log 20). -/
def Obligations.ReturnFromInterruptResumesTheInstruction : Prop :=
  ∀ (pf : Platform) (p : CoreId) (m m' : SharedMemory) (c d : Core), enterInterrupt pf p m c = .ok (true, d, m') →
    legalMode p (modeField c.cpsr) = true → modeField c.cpsr ≠ 0x12#5 →
      ∃ r, (exceptionReturnScript (.bin .sub (.reg (.const 14)) (.const 4))).run pf p (startRun d m') = .ok r ∧
        r.core.cpsr = c.cpsr ∧ r.core.nFA = c.pIA ∧ r.mem = m' ∧ (∀ j : Fin 16, j ≠ 15 → r.core.reg j = c.reg j) ∧
        (∀ g, g ≠ .irq → groupOf p (modeField c.cpsr) ≠ some (.pair g) → r.core.pair g = c.pair g)

/-- On a core with I set: the host's queued entry is taken from the queue and answers false with nothing else changed (the
queue and the result are this model's choices, log 1 and log 16); and where the core also is halted it hangs
(60_exceptions.md R264, derived there): both interrupt calls are rejected and a step is idle, and after each of them the
cores are as they were. -/
def Obligations.MaskedHaltedCoreHangs : Prop :=
  ∀ (s : State) (p : CoreId), (s.core p).initialised = true → (s.core p).cpsr.getLsbD 7 = true →
    (∀ rest, s.calls = .enterInterrupt p :: rest → step s = .next { s with calls := rest, result := .accepted false }) ∧
    ((s.core p).waitingForInterrupt = true →
      (∃ t, hostCall (.flagInterrupt p) s = .next t ∧ t.result = .accepted false ∧ t.cores = s.cores) ∧
      (∃ t, hostCall (.enterInterrupt p) s = .next t ∧ t.result = .accepted false ∧ t.cores = s.cores) ∧
      (∃ t, hostCall (.step p) s = .next t ∧ t.cores = s.cores ∧ t.mem = s.mem))

/-- The exception state machine (60_exceptions.md R240; its representation is the spec's own choice D26): a flagged request is
IRQ-Pending, an accepted entry is In-Exception, and reset is Running. -/
def Obligations.ExceptionStateFollowsTheOperations : Prop :=
  (∀ (c d : Core), flagInterrupt c = .ok (true, d) → exceptionState d = .irqPending) ∧
  (∀ (pf : Platform) (p : CoreId) (m m' : SharedMemory) (c d : Core), enterInterrupt pf p m c = .ok (true, d, m') →
    exceptionState d = .inException) ∧
  (∀ (pf : Platform) (p : CoreId) (m m' : SharedMemory) (a : Word) (c d : Core), resetCore pf p m a c = .ok (d, m') →
    exceptionState d = .running)

/-! ### Halt, debug and never-reset cores -/

/-- R202: a step of a core that waits for an interrupt (and is not debug-halted) returns the idle cost and changes nothing else, not
even the pending request, and so does every further one. -/
def Obligations.HaltedStepIsIdle : Prop :=
  ∀ s : State, s.cur.initialised = true → (s.platform.debugAttached.get s.current && s.cur.debugHalted) = false →
    s.cur.waitingForInterrupt = true →
      stepCore s = .next { s with result := .cost Config.idleCost } ∧
      stepCore { s with result := .cost Config.idleCost } = .next { s with result := .cost Config.idleCost }

/-- R201: with the control-plane attached and its halt toggle on, a step returns DEBUG_HALT_COST and changes no state. -/
def Obligations.DebugHaltedStepIsANoOp : Prop :=
  ∀ s : State, s.cur.initialised = true → s.platform.debugAttached.get s.current = true → s.cur.debugHalted = true →
    stepCore s = .next { s with result := .cost Config.debugHaltCost }

/-- A handler that halts (43_dispatch.md R214): its step completes normally, closing prefetch included, with
waitingForInterrupt set, and the step after it is idle. For T16 and every A32 class whose condition passes, with the
halting script as the handler (log 3). -/
def Obligations.HaltingHandlerStopsTheCore : Prop :=
  ∀ (i : Instr) (s : State),
    ((∃ c opHi mid opLo low, i = Instr.a32 c opHi mid opLo low ∧ passes c s.cur.cpsr = true ∧
        handler32At s.platform s.current (index32 opHi opLo) = .scripted (.act .halt)) ∨
      (∃ op16 low, i = .t16 op16 low ∧ handler16At s.platform s.current op16 = .scripted (.act .halt))) →
    s.cur.initialised = true → (s.platform.debugAttached.get s.current && s.cur.debugHalted) = false →
    fetchAllowed s.platform s.cur = true →
      ∃ t, exec i s = .next t ∧ t.cur.waitingForInterrupt = true ∧ t.cur.pIA = s.cur.nFA ∧
        stepCore t = .next { t with result := .cost Config.idleCost }

/-- The debug port (60_exceptions.md R262): where it is attached to a core that was reset, a write of R[0] to R[14] writes that
register alone; a write of anything else faults (of R[15], CPSR, a saved status register, a shadow register and the latch
by the spec's own choice D28; of the rest by log 17's DEDUCED row); and a read answers the component, whichever it is, and
changes nothing. Fast-interrupt storage is core 0's: on core 1 a read of it is refused (log 17). -/
def Obligations.DebugPortReadsAllAndWritesGeneralRegisters : Prop :=
  ∀ (s : State) (p : CoreId), (s.core p).initialised = true → s.platform.debugAttached.get p = true →
    (∀ (n : Fin 16) (v : Word), n ≠ 15 →
      hostCall (.debugWrite p (.reg n) v) s = .next (s.returning p ((s.core p).setReg n v) .nothing)) ∧
    (∀ (f : CoreField) (v : Word), (∀ n : Fin 16, n ≠ 15 → f ≠ .reg n) →
      hostCall (.debugWrite p f v) s = .fault .debugWriteRefused) ∧
    (∀ n : Fin 16, DebugReads s p (.reg n) (.word ((s.core p).reg n))) ∧
    DebugReads s p .cpsr (.word (s.core p).cpsr) ∧
    DebugReads s p (.spsr .svc) (.word (s.core p).spsrs.svc) ∧ DebugReads s p (.spsr .abt) (.word (s.core p).spsrs.abt) ∧
    DebugReads s p (.spsr .und) (.word (s.core p).spsrs.und) ∧ DebugReads s p (.spsr .irq) (.word (s.core p).spsrs.irq) ∧
    (∀ g, DebugReads s p (.shadow (.pair g .r13)) (.word ((s.core p).pair g).r13) ∧
      DebugReads s p (.shadow (.pair g .r14)) (.word ((s.core p).pair g).r14)) ∧
    (p = .primary → DebugReads s p (.spsr .fiq) (.word (s.core p).spsrs.fiq) ∧
      ∀ k, DebugReads s p (.shadow (.fiq k)) (.word ((s.core p).bankFiq.get k))) ∧
    (p = .secondary → hostCall (.debugRead p (.spsr .fiq)) s = .refused .absentStorage ∧
      ∀ k, hostCall (.debugRead p (.shadow (.fiq k))) s = .refused .absentStorage) ∧
    DebugReads s p .pI (.word (s.core p).pI) ∧ DebugReads s p .pIA (.word (s.core p).pIA) ∧
    DebugReads s p .nFA (.word (s.core p).nFA) ∧
    DebugReads s p .interruptVectorBase (.word (s.core p).interruptVectorBase) ∧
    DebugReads s p .waitingForInterrupt (.flag (s.core p).waitingForInterrupt) ∧
    DebugReads s p .irqPending (.flag (s.core p).irqPending) ∧
    (∀ k : Fin 16, DebugReads s p (.coprocessorHandle k) (.handle (s.core p).coprocessorHandles[k])) ∧
    DebugReads s p .memoryInterface (.ref (s.core p).memoryInterface) ∧
    DebugReads s p .debugHalted (.flag (s.core p).debugHalted) ∧
    DebugReads s p .initialised (.flag (s.core p).initialised) ∧
    (∀ on : Bool, hostCall (.debugHalt p on) s =
      .next (s.returning p { s.core p with debugHalted := on } .nothing))

/-- Before the first reset every operation of a core but reset faults (10_state.md R50; the spec's own choice D30). -/
def Obligations.NeverResetCoreOnlyResets : Prop :=
  ∀ (s : State) (p : CoreId), (s.core p).initialised = false →
    hostCall (.step p) s = .fault .notReset ∧ hostCall (.flagInterrupt p) s = .fault .notReset ∧
    hostCall (.enterInterrupt p) s = .fault .notReset ∧ (∀ on, hostCall (.debugHalt p on) s = .fault .notReset) ∧
    (∀ f, hostCall (.debugRead p f) s = .fault .notReset) ∧
    (∀ f v, hostCall (.debugWrite p f v) s = .fault .notReset)

/-! ### Reset (70_reset_and_hazards.md) -/

/-- The values reset leaves (70_reset_and_hazards.md R292, 10_state.md R48; the ones the document does not give are the spec's
own choices D29, D31, D32, and SYSTEM's 0x1F in CPSR is general knowledge it adopts, D2, log 20), at any entry address that
is a multiple of four, from any state of the core; the entry's word is plain memory's, or an oracle's one answer (log 19).
At any other entry address it is Fault(MisalignedFetch) under the policy fault (D10). -/
def Obligations.ResetLeavesTheStatedValues : Prop :=
  ∀ (pf : Platform) (p : CoreId) (m : SharedMemory) (entry : Word) (c : Core),
    (entry.toNat % 4 ≠ 0 → pf.misalignedFetch = .fault →
      resetCore pf p m entry c = .error (.fault .misalignedFetch)) ∧
    (entry.toNat % 4 = 0 →
      ∃ d m', resetCore pf p m entry c = .ok (d, m') ∧ (∀ j : Fin 16, j ≠ 15 → d.reg j = 0#32) ∧
      d.reg 15 = entry + 8#32 ∧
      d.cpsr = 0x0000001F#32 ∧ (∀ slot, d.spsrs.get slot = 0#32) ∧ (∀ g, d.pair g = ⟨0#32, 0#32⟩) ∧
      (∀ k, d.bankFiq.get k = 0#32) ∧
      (pf.collaborator = .plain → d.pI = m.bytes.wordAt pf.byteOrder entry ∧ m' = m) ∧
      (pf.collaborator = .oracle → d.pI = (m.answer ⟨p, .fetch, .word, entry⟩).value ∧
        m' = m.answered ⟨p, .fetch, .word, entry⟩) ∧
      d.pIA = entry ∧ d.nFA = entry + 4#32 ∧
      d.interruptVectorBase = pf.vectorBase.get p ∧ d.waitingForInterrupt = false ∧ d.irqPending = false ∧
      (∀ k : Fin 16, d.coprocessorHandles[k] =
        if k = 15 ∧ p = .primary then some (Config.createSystemControlCoprocessor p) else none) ∧
      d.memoryInterface = c.memoryInterface ∧ d.debugHalted = c.debugHalted ∧ d.initialised = true)

/-- R294: reset discards all pipeline and register state: two cores of one identity that agree on what reset does not touch (the
memory reference and the debug halt) are equal after it, a pending request, a halt and a latched instruction included. -/
def Obligations.ResetDiscardsWhatWasBefore : Prop :=
  ∀ (pf : Platform) (p : CoreId) (m : SharedMemory) (entry : Word) (c d : Core), c.memoryInterface = d.memoryInterface →
    c.debugHalted = d.debugHalted → resetCore pf p m entry c = resetCore pf p m entry d

/-- State.reset is what bring-up leaves: both cores reset at entry 0 from construction, with the platform's suggested values and
nothing in memory (70_reset_and_hazards.md section 2; which platform and entry is this model's choice, log 14). -/
def Obligations.BringUpEndsInTheResetState : Prop :=
  ∃ s : State, step (State.constructed Platform.suggested [] [.reset .primary 0, .reset .secondary 0]) = .next s ∧
    step s = .next State.reset

/-! ### Steps and invariants -/

/-- A step runs the decoded instruction: where nothing is queued and the current core is neither debug-halted, halted nor
interrupted, and the bytes of memory at pIA decode (in the format T selects) to an instruction that the latch holds, the
step is exec of it and nothing more (43_dispatch.md section 1; the queue is this model's, log 1). -/
def Obligations.StepRunsTheDecodedInstruction : Prop :=
  ∀ (s : State) (i : Instr), s.calls = [] → s.cur.initialised = true →
    (s.platform.debugAttached.get s.current && s.cur.debugHalted) = false → s.cur.waitingForInterrupt = false →
    s.cur.irqPending = false →
    decode (flagT s.cur.cpsr) s.platform.byteOrder
      [s.mem.bytes.byteAt s.cur.pIA, s.mem.bytes.byteAt (s.cur.pIA + 1), s.mem.bytes.byteAt (s.cur.pIA + 2), s.mem.bytes.byteAt (s.cur.pIA + 3)]
        = .ok (i, if flagT s.cur.cpsr then [s.mem.bytes.byteAt (s.cur.pIA + 2), s.mem.bytes.byteAt (s.cur.pIA + 3)] else []) →
    s.cur.pI = (if flagT s.cur.cpsr then (s.mem.bytes.halfAt s.platform.byteOrder s.cur.pIA).setWidth 32
      else s.mem.bytes.wordAt s.platform.byteOrder s.cur.pIA) →
      step s = exec i s

/-- The latched instruction can be stale (20_memory.md R72, R73, derived there): a host's store of one byte, even to the
latched instruction's address, completes and changes no core, so the current core's latched instruction is the one before;
the bytes memory holds after it are the stored one at its address and every other as before. That a host's store reaches
those bytes past any translation or device, on an oracle's platform too, is this model's choice (log 19; the canonical
form of memory is log 6, the host's call log 1). -/
def Obligations.StoreDoesNotChangeTheLatchedInstruction : Prop :=
  ∀ (s : State) (a : Word) (v : Byte), s.mem.bytes.wf = true →
    ∃ t, hostCall (.store a v) s = .next t ∧ t.cores = s.cores ∧ t.latched = s.latched ∧ t.mem.bytes.byteAt a = v ∧
      ∀ b : Word, b ≠ a → t.mem.bytes.byteAt b = s.mem.bytes.byteAt b

/-- R49: the two cores share no architectural state: an operation of one core changes no component of the other, whatever the
operation. -/
def Obligations.CoresShareNoArchitecturalState : Prop :=
  (∀ (s t : State), stepCore s = .next t → t.core s.current.other = s.core s.current.other) ∧
  (∀ (s t : State) (p : CoreId) (call : HostCall),
    (call = .step p ∨ (∃ a, call = .reset p a) ∨ call = .flagInterrupt p ∨ call = .enterInterrupt p ∨
      (∃ on, call = .debugHalt p on) ∨ (∃ f, call = .debugRead p f) ∨ (∃ f v, call = .debugWrite p f v)) →
    hostCall call s = .next t → t.core p.other = s.core p.other) ∧
  (∀ (s t : State) (a : Word) (v : Byte), hostCall (.store a v) s = .next t → t.cores = s.cores)

/-- Every operation keeps the pipeline invariant of both cores: nFA one instruction beyond pIA, R[15] two, a latched halfword
zero-extended (10_state.md R24, R39, derived there; R38). -/
def Obligations.EveryStepKeepsThePipelineInvariant : Prop :=
  ∀ s t : State, PipelineInv s → step s = .next t → PipelineInv t

/-- Every operation keeps both cores in legal modes, where malformed modes are trapped (10_state.md R46). -/
def Obligations.EveryStepKeepsLegalModes : Prop :=
  ∀ s t : State, ModeInv s → step s = .next t → ModeInv t

/-- Every operation keeps each core within its identity and platform: the vector base, the coprocessor handles, no fast-interrupt
storage on core 1, no debug halt without a control-plane; and the platform itself (10_state.md R26, R36, R40, R43, R45). -/
def Obligations.EveryStepKeepsTheCapabilities : Prop :=
  ∀ s t : State, IdentityInv s → DebugInv s → step s = .next t →
    IdentityInv t ∧ DebugInv t ∧ t.platform = s.platform

/-- Every operation keeps memory in canonical form (the form is this model's, log 6). -/
def Obligations.EveryStepKeepsMemoryCanonical : Prop :=
  ∀ s t : State, MemoryInv s → step s = .next t → MemoryInv t

/-- All invariants hold in the reset state. -/
def Obligations.InvariantsHoldAfterReset : Prop := Inv State.reset ∧ ModeInv State.reset
end

