-- ==== Sys2Proof/Laws/Decode.lean ====
section
/-! SUPPORT. The laws of the encoding: the fields of an encoded word, and the bytes of a word put together again. -/

namespace Sys2Proof

theorem fieldOfCond_condOfField : ∀ f : BitVec 4, fieldOfCond (condOfField f) = f := by decide

theorem condOfField_fieldOfCond (c : Cond) : condOfField (fieldOfCond c) = c := by cases c <;> rfl

theorem encode_a32 (c : Cond) (opHi : BitVec 8) (mid : Nat) (opLo : BitVec 4) (low : Nat) :
    encode (Instr.a32 c opHi mid opLo low) = encodeA32 c opHi mid opLo low := by cases c <;> rfl

theorem compressed_a32 (c : Cond) (opHi : BitVec 8) (mid : Nat) (opLo : BitVec 4) (low : Nat) :
    (Instr.a32 c opHi mid opLo low).compressed = false := by cases c <;> rfl

theorem wellFormed_a32 (c : Cond) (opHi : BitVec 8) (mid : Nat) (opLo : BitVec 4) (low : Nat) :
    (Instr.a32 c opHi mid opLo low).wellFormed = a32OperandsFit mid low := by cases c <;> rfl

/-! ### The fields of an encoded word (30_encoding.md R91, R93) -/

theorem condField_encodeA32 (c : Cond) (opHi : BitVec 8) (mid : Nat) (opLo : BitVec 4) (low : Nat) :
    condField (encodeA32 c opHi mid opLo low) = fieldOfCond c := by
  unfold condField encodeA32
  apply BitVec.eq_of_getLsbD_eq
  intro i hi
  rw [BitVec.getLsbD_extractLsb']
  simp only [BitVec.getLsbD_append, hi, decide_true, Bool.true_and]
  repeat rw [if_neg (by omega)]
  congr 1
  omega

theorem opHiField_encodeA32 (c : Cond) (opHi : BitVec 8) (mid : Nat) (opLo : BitVec 4) (low : Nat) :
    opHiField (encodeA32 c opHi mid opLo low) = opHi := by
  unfold opHiField encodeA32
  apply BitVec.eq_of_getLsbD_eq
  intro i hi
  rw [BitVec.getLsbD_extractLsb']
  simp only [BitVec.getLsbD_append, hi, decide_true, Bool.true_and]
  rw [if_neg (by omega), if_neg (by omega), if_neg (by omega), if_pos (by omega)]
  congr 1
  omega

theorem midField_encodeA32 (c : Cond) (opHi : BitVec 8) (mid : Nat) (opLo : BitVec 4) (low : Nat) (h : mid < 4096) :
    midField (encodeA32 c opHi mid opLo low) = mid := by
  have e : (encodeA32 c opHi mid opLo low).extractLsb' 8 12 = BitVec.ofNat 12 mid := by
    unfold encodeA32
    apply BitVec.eq_of_getLsbD_eq
    intro i hi
    rw [BitVec.getLsbD_extractLsb']
    simp only [BitVec.getLsbD_append, hi, decide_true, Bool.true_and]
    rw [if_neg (by omega), if_neg (by omega), if_pos (by omega)]
    congr 1
    omega
  rw [midField, e, BitVec.toNat_ofNat]
  omega

theorem opLoField_encodeA32 (c : Cond) (opHi : BitVec 8) (mid : Nat) (opLo : BitVec 4) (low : Nat) :
    opLoField (encodeA32 c opHi mid opLo low) = opLo := by
  unfold opLoField encodeA32
  apply BitVec.eq_of_getLsbD_eq
  intro i hi
  rw [BitVec.getLsbD_extractLsb']
  simp only [BitVec.getLsbD_append, hi, decide_true, Bool.true_and]
  rw [if_neg (by omega), if_pos (by omega)]
  congr 1
  omega

theorem lowField_encodeA32 (c : Cond) (opHi : BitVec 8) (mid : Nat) (opLo : BitVec 4) (low : Nat) (h : low < 16) :
    lowField (encodeA32 c opHi mid opLo low) = low := by
  have e : (encodeA32 c opHi mid opLo low).extractLsb' 0 4 = BitVec.ofNat 4 low := by
    unfold encodeA32
    apply BitVec.eq_of_getLsbD_eq
    intro i hi
    rw [BitVec.getLsbD_extractLsb']
    simp only [BitVec.getLsbD_append, hi, decide_true, Bool.true_and]
    rw [if_pos (by omega)]
    congr 1
    omega
  rw [lowField, e, BitVec.toNat_ofNat]
  omega

theorem op16Field_encodeT16 (op16 : BitVec 10) (low : Nat) : op16Field (encodeT16 op16 low) = op16 := by
  unfold op16Field encodeT16
  apply BitVec.eq_of_getLsbD_eq
  intro i hi
  rw [BitVec.getLsbD_extractLsb', BitVec.getLsbD_setWidth, BitVec.getLsbD_append, if_neg (by omega)]
  simp [hi, show 6 + i < 32 by omega]

theorem low16Field_encodeT16 (op16 : BitVec 10) (low : Nat) (h : low < 64) : low16Field (encodeT16 op16 low) = low := by
  have e : (encodeT16 op16 low).extractLsb' 0 6 = BitVec.ofNat 6 low := by
    unfold encodeT16
    apply BitVec.eq_of_getLsbD_eq
    intro i hi
    rw [BitVec.getLsbD_extractLsb', BitVec.getLsbD_setWidth, BitVec.getLsbD_append, if_pos (by omega)]
    simp [hi, show i < 32 by omega]
  rw [low16Field, e, BitVec.toNat_ofNat]
  omega

/-- A T16 halfword is zero-extended in the latch (10_state.md R38). -/
theorem encodeT16_high (op16 : BitVec 10) (low : Nat) : (encodeT16 op16 low).extractLsb' 16 16 = 0#16 := by
  apply BitVec.eq_of_getLsbD_eq
  intro i hi
  simp [encodeT16, BitVec.getLsbD_extractLsb']

/-! ### Bytes of a word -/

theorem append_bytes_word (w : Word) : byteOf w 3 ++ byteOf w 2 ++ byteOf w 1 ++ byteOf w 0 = w := by
  apply BitVec.eq_of_getLsbD_eq
  intro i hi
  simp only [byteOf, BitVec.getLsbD_append, BitVec.getLsbD_extractLsb']
  repeat' split
  all_goals
    rw [decide_eq_true (by omega), Bool.true_and]
    congr 1
    omega

theorem append_bytes_half (w : Word) : (byteOf w 1 ++ byteOf w 0 : Half) = w.setWidth 16 := by
  apply BitVec.eq_of_getLsbD_eq
  intro i hi
  simp only [byteOf, BitVec.getLsbD_append, BitVec.getLsbD_extractLsb', BitVec.getLsbD_setWidth, hi, decide_true,
    Bool.true_and]
  repeat' split
  all_goals
    rw [decide_eq_true (by omega), Bool.true_and]
    congr 1
    omega

end Sys2Proof
end

