-- ==== Sys2Proof/Laws/Flags.lean ====
section
/-! SUPPORT. The laws of the status register's fields: what a write of one field leaves of the others. -/

namespace Sys2Proof.Machine

theorem getLsbD_setBit (w : Word) (k j : Nat) (b : Bool) (hk : k < 32) :
    (setBit w k b).getLsbD j = if j = k then b else w.getLsbD j := by
  by_cases hj : j < 32
  · have h1 : (1#32 <<< k).getLsbD j = decide (j = k) := by
      rw [BitVec.getLsbD_shiftLeft, BitVec.getLsbD_one]
      by_cases h : j = k
      · simp [h, hk]
      · by_cases h' : j < k
        · simp [h, h']
        · have : j - k ≠ 0 := by omega
          simp [h, this]
    cases b
    · simp only [setBit, BitVec.getLsbD_and, BitVec.getLsbD_not, h1, hj, decide_true, Bool.true_and]
      by_cases h : j = k <;> simp [h]
    · simp only [setBit, BitVec.getLsbD_or, h1]
      by_cases h : j = k <;> simp [h]
  · have h : j ≠ k := by omega
    rw [if_neg h, BitVec.getLsbD_of_ge _ j (by omega), BitVec.getLsbD_of_ge _ j (by omega)]

theorem getLsbD_setModeField (w : Word) (m : BitVec 5) (j : Nat) :
    (setModeField w m).getLsbD j = if j < 5 then m.getLsbD j else w.getLsbD j := by
  have hmask : ∀ j : Fin 32, (0x1F#32).getLsbD j = decide (j.val < 5) := by decide
  by_cases hj : j < 32
  · have h1 := hmask ⟨j, hj⟩
    simp only [setModeField, BitVec.getLsbD_or, BitVec.getLsbD_and, BitVec.getLsbD_not, BitVec.getLsbD_setWidth, h1, hj,
      decide_true, Bool.true_and]
    by_cases h : j < 5
    · simp [h]
    · simp [h, BitVec.getLsbD_of_ge m j (by omega)]
  · have h : ¬ j < 5 := by omega
    rw [if_neg h, BitVec.getLsbD_of_ge _ j (by omega), BitVec.getLsbD_of_ge _ j (by omega)]

@[simp] theorem modeField_setModeField (w : Word) (m : BitVec 5) : modeField (setModeField w m) = m := by
  apply BitVec.eq_of_getLsbD_eq
  intro i hi
  rw [modeField, BitVec.getLsbD_setWidth, getLsbD_setModeField, if_pos hi]
  simp [hi]

/-- A status word is its mode field and the bits above it. -/
theorem setModeField_modeField (w v : Word) (h : ∀ j, 5 ≤ j → w.getLsbD j = v.getLsbD j) :
    setModeField w (modeField v) = v := by
  apply BitVec.eq_of_getLsbD_eq
  intro i hi
  rw [getLsbD_setModeField]
  split
  · rename_i h5
    rw [modeField, BitVec.getLsbD_setWidth]
    simp [h5]
  · rename_i h5
    exact h i (by omega)

@[simp] theorem setModeField_self (w : Word) : setModeField w (modeField w) = w :=
  setModeField_modeField w w fun _ _ => rfl

@[simp] theorem setModeField_setModeField (w : Word) (m k : BitVec 5) :
    setModeField (setModeField w m) k = setModeField w k := by
  apply BitVec.eq_of_getLsbD_eq
  intro i hi
  simp only [getLsbD_setModeField]
  split <;> rfl

@[simp] theorem flagT_setModeField (w : Word) (m : BitVec 5) : flagT (setModeField w m) = flagT w := by
  rw [flagT, flagT, getLsbD_setModeField, if_neg (by decide)]

@[simp] theorem flagI_setModeField (w : Word) (m : BitVec 5) : flagI (setModeField w m) = flagI w := by
  rw [flagI, flagI, getLsbD_setModeField, if_neg (by decide)]

@[simp] theorem flagT_setFlagT (w : Word) (b : Bool) : flagT (setFlagT w b) = b := by
  rw [flagT, setFlagT, getLsbD_setBit _ _ _ _ (by decide), if_pos rfl]

@[simp] theorem flagI_setFlagI (w : Word) (b : Bool) : flagI (setFlagI w b) = b := by
  rw [flagI, setFlagI, getLsbD_setBit _ _ _ _ (by decide), if_pos rfl]

@[simp] theorem flagT_setFlagI (w : Word) (b : Bool) : flagT (setFlagI w b) = flagT w := by
  rw [flagT, flagT, setFlagI, getLsbD_setBit _ _ _ _ (by decide), if_neg (by decide)]

@[simp] theorem flagI_setFlagT (w : Word) (b : Bool) : flagI (setFlagT w b) = flagI w := by
  rw [flagI, flagI, setFlagT, getLsbD_setBit _ _ _ _ (by decide), if_neg (by decide)]

@[simp] theorem modeField_setFlagI (w : Word) (b : Bool) : modeField (setFlagI w b) = modeField w := by
  apply BitVec.eq_of_getLsbD_eq
  intro i hi
  have h : i ≠ 7 := by omega
  simp only [modeField, BitVec.getLsbD_setWidth, setFlagI, getLsbD_setBit _ _ _ _ (by decide : 7 < 32), if_neg h]

@[simp] theorem modeField_setFlagT (w : Word) (b : Bool) : modeField (setFlagT w b) = modeField w := by
  apply BitVec.eq_of_getLsbD_eq
  intro i hi
  have h : i ≠ 5 := by omega
  simp only [modeField, BitVec.getLsbD_setWidth, setFlagT, getLsbD_setBit _ _ _ _ (by decide : 5 < 32), if_neg h]

/-- The flags nibble is bits 31 to 28 (42_condition.md R170). -/
theorem getLsbD_flagsNibble (w : Word) (k : Nat) (h : k < 4) : (flagsNibble w).getLsbD k = w.getLsbD (28 + k) := by
  rw [flagsNibble, BitVec.getLsbD_extractLsb']
  simp [h]

/-! ### Modes -/

@[simp] theorem modeOf_bits (p : CoreId) (m : Mode) (h : m ≠ .fiq) : modeOf p m.bits = some m := by
  cases m <;> first | rfl | exact absurd rfl h

theorem modeOf_primary_fiq : modeOf .primary Mode.fiq.bits = some .fiq := rfl

theorem modeOf_secondary_fiq : modeOf .secondary Mode.fiq.bits = none := rfl

/-- The legal values are exactly the modes' own (10_state.md R34). -/
theorem modeOf_eq_some : ∀ (p : CoreId) (m : BitVec 5) (k : Mode), modeOf p m = some k → m = k.bits := by
  intro p m k
  cases p <;> cases k <;> revert m <;> decide

theorem legalMode_irq (p : CoreId) : legalMode p 0x12 = true := by cases p <;> rfl

theorem legalMode_sys (p : CoreId) : legalMode p 0x1F = true := by cases p <;> rfl

/-- Only core 0 has a mode of the fast-interrupt group (40_bank_switch.md R121, R131). -/
theorem groupOf_fiq {p : CoreId} {m : BitVec 5} (h : groupOf p m = some .fiq) : p.hasFiq = true := by
  cases p
  · rfl
  · revert m
    decide

theorem currentSlot_fiq {p : CoreId} {c : Core} (h : currentSlot p c = some .fiq) : p.hasFiq = true := by
  cases p
  · rfl
  · unfold currentSlot at h
    revert h
    generalize modeField c.cpsr = m
    revert m
    decide

/-- The slot of a mode of the core is one the core has (10_state.md R36). -/
theorem hasSlot_currentSlot {p : CoreId} {c : Core} {s : SpsrSlot} (h : currentSlot p c = some s) :
    hasSlot p s = true := by
  cases s with
  | fiq => exact currentSlot_fiq h
  | svc => rfl
  | abt => rfl
  | und => rfl
  | irq => rfl

theorem hasSlot_of_secondary {p : CoreId} {s : SpsrSlot} (h : hasSlot .secondary s = true) : hasSlot p s = true := by
  cases s with
  | fiq => cases h
  | svc => rfl
  | abt => rfl
  | und => rfl
  | irq => rfl

end Sys2Proof.Machine
end

