-- ==== Sys2Proof/Laws/Memory.lean ====
section
/-! SUPPORT. The laws of memory: every operation keeps the canonical form, whoever answers it; in plain memory a read after
a write to the same place gives the value written, and a write leaves every other place alone. -/

namespace Sys2Proof.Machine

theorem Memory.wfFrom_mono {lo lo' : Nat} (h : lo ≤ lo') : ∀ {m : Memory}, m.wfFrom lo' = true → m.wfFrom lo = true
  | [], _ => rfl
  | (a, b) :: rest, hm => by
    simp only [Memory.wfFrom, Bool.and_eq_true, decide_eq_true_eq] at hm ⊢
    exact ⟨⟨⟨le_trans h hm.1.1.1, hm.1.1.2⟩, hm.1.2⟩, hm.2⟩

/-- An address below everything listed reads as an unlisted one. -/
theorem Memory.read_below : ∀ {m : Memory} {lo x : Nat}, m.wfFrom lo = true → x < lo → m.read x = unlistedByte
  | [], _, _, _, _ => rfl
  | (a, b) :: rest, lo, x, hm, hx => by
    simp only [Memory.wfFrom, Bool.and_eq_true, decide_eq_true_eq] at hm
    have hne : x ≠ a := by omega
    simp only [Memory.read, hne, if_false]
    exact Memory.read_below hm.2 (by omega)

theorem Memory.write_wfFrom {x : Nat} (v : Byte) (hx : x < 2 ^ 32) :
    ∀ {m : Memory} {lo : Nat}, lo ≤ x → m.wfFrom lo = true → (m.write x v).wfFrom lo = true
  | [], lo, hlo, _ => by
    unfold Memory.write
    split
    · rfl
    · rename_i hv
      simp only [Memory.wfFrom, Bool.and_eq_true, decide_eq_true_eq]
      exact ⟨⟨⟨hlo, hx⟩, hv⟩, trivial⟩
  | (a, b) :: rest, lo, hlo, hm => by
    have hm' := hm
    simp only [Memory.wfFrom, Bool.and_eq_true, decide_eq_true_eq] at hm'
    obtain ⟨⟨⟨h1, h2⟩, h3⟩, h4⟩ := hm'
    unfold Memory.write
    split
    · rename_i hlt
      split
      · exact hm
      · rename_i hv
        simp only [Memory.wfFrom, Bool.and_eq_true, decide_eq_true_eq]
        exact ⟨⟨⟨hlo, hx⟩, hv⟩, ⟨⟨by omega, h2⟩, h3⟩, h4⟩
    · rename_i hlt
      split
      · rename_i heq
        subst heq
        split
        · exact Memory.wfFrom_mono (by omega) h4
        · rename_i hv
          simp only [Memory.wfFrom, Bool.and_eq_true, decide_eq_true_eq]
          exact ⟨⟨⟨hlo, hx⟩, hv⟩, h4⟩
      · simp only [Memory.wfFrom, Bool.and_eq_true, decide_eq_true_eq]
        exact ⟨⟨⟨h1, h2⟩, h3⟩, Memory.write_wfFrom v hx (by omega) h4⟩

theorem Memory.read_write_same {x : Nat} (v : Byte) :
    ∀ {m : Memory} {lo : Nat}, m.wfFrom lo = true → (m.write x v).read x = v
  | [], _, _ => by
    unfold Memory.write
    split
    · rename_i hv
      exact hv.symm
    · simp [Memory.read]
  | (a, b) :: rest, lo, hm => by
    have hm' := hm
    simp only [Memory.wfFrom, Bool.and_eq_true, decide_eq_true_eq] at hm'
    obtain ⟨⟨⟨h1, h2⟩, h3⟩, h4⟩ := hm'
    unfold Memory.write
    split
    · rename_i hlt
      split
      · rename_i hv
        have hne : x ≠ a := by omega
        simp only [Memory.read, hne, if_false, hv]
        exact Memory.read_below h4 (by omega)
      · simp [Memory.read]
    · split
      · rename_i heq
        subst heq
        split
        · rename_i hv
          rw [hv]
          exact Memory.read_below h4 (by omega)
        · simp [Memory.read]
      · rename_i hne
        simp only [Memory.read, hne, if_false]
        exact Memory.read_write_same v h4

theorem Memory.read_write_other {x y : Nat} (v : Byte) (hxy : y ≠ x) :
    ∀ {m : Memory}, (m.write x v).read y = m.read y
  | [] => by
    unfold Memory.write
    split
    · rfl
    · simp [Memory.read, hxy]
  | (a, b) :: rest => by
    unfold Memory.write
    split
    · split
      · rfl
      · simp [Memory.read, hxy]
    · split
      · rename_i heq
        subst heq
        split <;> simp [Memory.read, hxy]
      · simp only [Memory.read]
        rw [Memory.read_write_other v hxy]

theorem Memory.setByte_wf {m : Memory} (a : Word) (v : Byte) (h : m.wf = true) : (m.setByte a v).wf = true :=
  Memory.write_wfFrom v a.isLt (Nat.zero_le _) h

theorem Memory.byteAt_setByte_same {m : Memory} (a : Word) (v : Byte) (h : m.wf = true) :
    (m.setByte a v).byteAt a = v := Memory.read_write_same v h

theorem Memory.byteAt_setByte_other {m : Memory} {a b : Word} (v : Byte) (h : b ≠ a) :
    (m.setByte a v).byteAt b = m.byteAt b :=
  Memory.read_write_other v fun e => h (BitVec.eq_of_toNat_eq e)

theorem Memory.setBytes_wf : ∀ (bytes : List Byte) {m : Memory} (a : Word), m.wf = true → (m.setBytes a bytes).wf = true
  | [], _, _, h => h
  | b :: rest, _, a, h => Memory.setBytes_wf rest (a + 1) (Memory.setByte_wf a b h)

theorem Memory.store_wf {m : Memory} (order : ByteOrder) (w : AccessWidth) (a v : Word) (h : m.wf = true) :
    (m.store order w a v).wf = true := Memory.setBytes_wf _ a h

/-- A byte outside the bytes stored reads as before. -/
theorem Memory.byteAt_setBytes_outside : ∀ (bytes : List Byte) {m : Memory} (a b : Word),
    (∀ k : Nat, k < bytes.length → b ≠ a + BitVec.ofNat 32 k) → (m.setBytes a bytes).byteAt b = m.byteAt b
  | [], _, _, _, _ => rfl
  | x :: rest, m, a, b, h => by
    have h0 : b ≠ a := by simpa using h 0 (by simp)
    have hrest : ∀ k : Nat, k < rest.length → b ≠ a + 1 + BitVec.ofNat 32 k := by
      intro k hk
      have := h (k + 1) (by simpa using hk)
      have e : BitVec.ofNat 32 (k + 1) = 1 + BitVec.ofNat 32 k := by rw [Nat.add_comm, BitVec.ofNat_add]; rfl
      rwa [e, ← BitVec.add_assoc] at this
    unfold Memory.setBytes
    rw [Memory.byteAt_setBytes_outside rest (a + 1) b hrest, Memory.byteAt_setByte_other x h0]

theorem storedBytes_length (order : ByteOrder) (w : AccessWidth) (v : Word) :
    (storedBytes order w v).length = w.bytes := by
  cases w <;> cases order <;> rfl

/-! ### Reading back what a sized store laid down -/

theorem Memory.byteAt_setBytes_two {m : Memory} (hw : m.wf = true) (a : Word) (x y : Byte) :
    (m.setBytes a [x, y]).byteAt a = x ∧ (m.setBytes a [x, y]).byteAt (a + 1) = y := by
  simp only [Memory.setBytes]
  refine ⟨?_, ?_⟩
  · rw [Memory.byteAt_setByte_other, Memory.byteAt_setByte_same _ _ hw]
    bv_omega
  · rw [Memory.byteAt_setByte_same _ _ (Memory.setByte_wf _ _ hw)]

theorem Memory.byteAt_setBytes_four {m : Memory} (hw : m.wf = true) (a : Word) (x y z w : Byte) :
    (m.setBytes a [x, y, z, w]).byteAt a = x ∧ (m.setBytes a [x, y, z, w]).byteAt (a + 1) = y ∧
      (m.setBytes a [x, y, z, w]).byteAt (a + 2) = z ∧ (m.setBytes a [x, y, z, w]).byteAt (a + 3) = w := by
  have e2 : a + 1 + 1 = a + 2 := by bv_omega
  have e3 : a + 2 + 1 = a + 3 := by bv_omega
  simp only [Memory.setBytes, e2, e3]
  have w1 := Memory.setByte_wf a x hw
  have w2 := Memory.setByte_wf (a + 1) y w1
  have w3 := Memory.setByte_wf (a + 2) z w2
  refine ⟨?_, ?_, ?_, ?_⟩
  · rw [Memory.byteAt_setByte_other, Memory.byteAt_setByte_other, Memory.byteAt_setByte_other,
      Memory.byteAt_setByte_same _ _ hw] <;> bv_omega
  · rw [Memory.byteAt_setByte_other, Memory.byteAt_setByte_other, Memory.byteAt_setByte_same _ _ w1] <;> bv_omega
  · rw [Memory.byteAt_setByte_other, Memory.byteAt_setByte_same _ _ w2]
    bv_omega
  · rw [Memory.byteAt_setByte_same _ _ w3]

/-- A word stored is the word read back. -/
theorem Memory.wordAt_store {m : Memory} (hw : m.wf = true) (order : ByteOrder) (a v : Word) :
    (m.store order .word a v).wordAt order a = v := by
  simp only [Memory.store, storedBytes, Memory.wordAt]
  cases order <;> simp only [wordBytes, assembleWord]
  all_goals
    obtain ⟨h0, h1, h2, h3⟩ := Memory.byteAt_setBytes_four hw a _ _ _ _
    rw [h0, h1, h2, h3, append_bytes_word]

/-- A halfword stored is the halfword read back. -/
theorem Memory.halfAt_store {m : Memory} (hw : m.wf = true) (order : ByteOrder) (a v : Word) :
    (m.store order .half a v).halfAt order a = v.setWidth 16 := by
  simp only [Memory.store, storedBytes, Memory.halfAt]
  cases order <;> simp only [halfBytes, assembleHalf]
  all_goals
    obtain ⟨h0, h1⟩ := Memory.byteAt_setBytes_two hw a _ _
    rw [h0, h1, append_bytes_half]

/-- A sized store is read back by the load of its width. -/
theorem Memory.load_store {m : Memory} (hw : m.wf = true) (order : ByteOrder) (w : AccessWidth) (a v : Word) :
    (m.store order w a v).load order w a = w.narrow v := by
  cases w with
  | byte =>
    simp only [Memory.load, Memory.store, storedBytes, Memory.setBytes, Memory.byteAt_setByte_same _ _ hw,
      AccessWidth.narrow]
    congr 1
  | half => simp only [Memory.load, Memory.halfAt_store hw, AccessWidth.narrow]
  | word => simp only [Memory.load, Memory.wordAt_store hw, AccessWidth.narrow]

/-! ### Whoever answers -/

theorem Memory.setAll_wf : ∀ (l : List (Word × Byte)) {m : Memory}, m.wf = true → (m.setAll l).wf = true
  | [], _, h => h
  | (a, b) :: rest, _, h => Memory.setAll_wf rest (Memory.setByte_wf a b h)

@[simp] theorem SharedMemory.answered_bytes (m : SharedMemory) (x : Access) :
    (m.answered x).bytes = m.bytes.setAll (m.answer x).writes := rfl

@[simp] theorem SharedMemory.answered_asked (m : SharedMemory) (x : Access) : (m.answered x).asked = m.asked + 1 := rfl

theorem Platform.answersPlain_plain {pf : Platform} {x : Access} (h : pf.collaborator = .plain)
    (k : x.width.aligned x.addr = true) : pf.answersPlain x = true := by simp [Platform.answersPlain, h, k]

theorem Platform.answersPlain_oracle {pf : Platform} {x : Access}
    (h : pf.collaborator = .oracle ∨ x.width.aligned x.addr = false) : pf.answersPlain x = false := by
  rcases h with h | h
  · simp [Platform.answersPlain, h]
  · cases hc : pf.collaborator <;> simp [Platform.answersPlain, hc, h]

/-- A read answered by plain memory. -/
theorem SharedMemory.read_plain {m : SharedMemory} {pf : Platform} {x : Access} (h : pf.answersPlain x = true) :
    m.read pf x = (m.bytes.load pf.byteOrder x.width x.addr, m) := by simp [SharedMemory.read, h]

/-- A read answered by the oracle. -/
theorem SharedMemory.read_oracle {m : SharedMemory} {pf : Platform} {x : Access} (h : pf.answersPlain x = false) :
    m.read pf x = (x.width.narrow (m.answer x).value, m.answered x) := by simp [SharedMemory.read, h]

/-- A store answered by plain memory. -/
theorem SharedMemory.write_plain {m : SharedMemory} {pf : Platform} {x : Access} {v : Word}
    (h : pf.answersPlain x = true) :
    m.write pf x v = { m with bytes := m.bytes.store pf.byteOrder x.width x.addr v } := by simp [SharedMemory.write, h]

/-- A store answered by the oracle. -/
theorem SharedMemory.write_oracle {m : SharedMemory} {pf : Platform} {x : Access} {v : Word}
    (h : pf.answersPlain x = false) : m.write pf x v = m.answered x := by simp [SharedMemory.write, h]

theorem SharedMemory.read_wf {m : SharedMemory} (pf : Platform) (x : Access) (h : m.bytes.wf = true) :
    (m.read pf x).2.bytes.wf = true := by
  cases hp : pf.answersPlain x
  · rw [SharedMemory.read_oracle hp]; exact Memory.setAll_wf _ h
  · rw [SharedMemory.read_plain hp]; exact h

theorem SharedMemory.write_wf {m : SharedMemory} (pf : Platform) (x : Access) (v : Word) (h : m.bytes.wf = true) :
    (m.write pf x v).bytes.wf = true := by
  cases hp : pf.answersPlain x
  · rw [SharedMemory.write_oracle hp]; exact Memory.setAll_wf _ h
  · rw [SharedMemory.write_plain hp]; exact Memory.store_wf _ _ _ _ h

end Sys2Proof.Machine
end

