-- ==== Sys2Proof/Laws/State.lean ====
section
/-! SUPPORT. One lemma per field of each update of a core and of the machine, so that no later proof unfolds one. -/

namespace Sys2Proof.Machine

/-! ### Two cores -/

@[simp] theorem PerCore_get_set_same {α : Type} (x : PerCore α) (p : CoreId) (v : α) : (x.set p v).get p = v := by
  cases p <;> rfl

@[simp] theorem PerCore_get_set_other {α : Type} (x : PerCore α) (p : CoreId) (v : α) :
    (x.set p v).get p.other = x.get p.other := by cases p <;> rfl

theorem PerCore_get_set {α : Type} (x : PerCore α) (p q : CoreId) (v : α) :
    (x.set p v).get q = if q = p then v else x.get q := by cases p <;> cases q <;> rfl

@[simp] theorem PerCore_set_get_self {α : Type} (x : PerCore α) (p : CoreId) : x.set p (x.get p) = x := by
  cases p <;> rfl

@[simp] theorem PerCore_set_set {α : Type} (x : PerCore α) (p : CoreId) (v w : α) : (x.set p v).set p w = x.set p w := by
  cases p <;> rfl

theorem CoreId.eq_or_other (p q : CoreId) : q = p ∨ q = p.other := by cases p <;> cases q <;> simp [CoreId.other]

@[simp] theorem CoreId.other_ne (p : CoreId) : p.other ≠ p := by cases p <;> simp [CoreId.other]

/-! ### Updates of the machine -/

@[simp] theorem State.setCore_core_same (s : State) (p : CoreId) (c : Core) : (s.setCore p c).core p = c := by
  cases p <;> rfl

@[simp] theorem State.setCore_core_other (s : State) (p : CoreId) (c : Core) :
    (s.setCore p c).core p.other = s.core p.other := by cases p <;> rfl

theorem State.setCore_core (s : State) (p q : CoreId) (c : Core) :
    (s.setCore p c).core q = if q = p then c else s.core q := by cases p <;> cases q <;> rfl

@[simp] theorem State.setCore_mem (s : State) (p : CoreId) (c : Core) : (s.setCore p c).mem = s.mem := rfl

@[simp] theorem State.setCore_platform (s : State) (p : CoreId) (c : Core) : (s.setCore p c).platform = s.platform := rfl

@[simp] theorem State.setCore_current (s : State) (p : CoreId) (c : Core) : (s.setCore p c).current = s.current := rfl

@[simp] theorem State.setCore_calls (s : State) (p : CoreId) (c : Core) : (s.setCore p c).calls = s.calls := rfl

@[simp] theorem State.setCore_result (s : State) (p : CoreId) (c : Core) : (s.setCore p c).result = s.result := rfl

@[simp] theorem State.setCore_notifications (s : State) (p : CoreId) (c : Core) : (s.setCore p c).notifications = s.notifications := rfl

theorem State.cur_eq_core (s : State) : s.cur = s.core s.current := rfl

@[simp] theorem State.setCore_core_self (s : State) (p : CoreId) : s.setCore p (s.core p) = s := by
  cases p <;> rfl

@[simp] theorem State.returning_core_same (s : State) (p : CoreId) (c : Core) (r : CallResult) :
    (s.returning p c r).core p = c := by cases p <;> rfl

theorem State.returning_core (s : State) (p q : CoreId) (c : Core) (r : CallResult) :
    (s.returning p c r).core q = if q = p then c else s.core q := by cases p <;> cases q <;> rfl

@[simp] theorem State.returning_result (s : State) (p : CoreId) (c : Core) (r : CallResult) :
    (s.returning p c r).result = r := rfl

@[simp] theorem State.returning_mem (s : State) (p : CoreId) (c : Core) (r : CallResult) :
    (s.returning p c r).mem = s.mem := rfl

@[simp] theorem State.returning_platform (s : State) (p : CoreId) (c : Core) (r : CallResult) :
    (s.returning p c r).platform = s.platform := rfl

@[simp] theorem State.returning_current (s : State) (p : CoreId) (c : Core) (r : CallResult) :
    (s.returning p c r).current = s.current := rfl

@[simp] theorem State.returning_calls (s : State) (p : CoreId) (c : Core) (r : CallResult) :
    (s.returning p c r).calls = s.calls := rfl

@[simp] theorem State.returning_notifications (s : State) (p : CoreId) (c : Core) (r : CallResult) :
    (s.returning p c r).notifications = s.notifications := rfl

@[simp] theorem State.setCoreAndMem_core_same (s : State) (p : CoreId) (c : Core) (m : SharedMemory) :
    (s.setCoreAndMem p c m).core p = c := by cases p <;> rfl

theorem State.setCoreAndMem_core (s : State) (p q : CoreId) (c : Core) (m : SharedMemory) :
    (s.setCoreAndMem p c m).core q = if q = p then c else s.core q := by cases p <;> cases q <;> rfl

@[simp] theorem State.setCoreAndMem_core_other (s : State) (p : CoreId) (c : Core) (m : SharedMemory) :
    (s.setCoreAndMem p c m).core p.other = s.core p.other := by cases p <;> rfl

@[simp] theorem State.setCoreAndMem_mem (s : State) (p : CoreId) (c : Core) (m : SharedMemory) :
    (s.setCoreAndMem p c m).mem = m := rfl

@[simp] theorem State.setCoreAndMem_platform (s : State) (p : CoreId) (c : Core) (m : SharedMemory) :
    (s.setCoreAndMem p c m).platform = s.platform := rfl

@[simp] theorem State.setCoreAndMem_current (s : State) (p : CoreId) (c : Core) (m : SharedMemory) :
    (s.setCoreAndMem p c m).current = s.current := rfl

@[simp] theorem State.setCoreAndMem_calls (s : State) (p : CoreId) (c : Core) (m : SharedMemory) :
    (s.setCoreAndMem p c m).calls = s.calls := rfl

@[simp] theorem State.setCoreAndMem_result (s : State) (p : CoreId) (c : Core) (m : SharedMemory) :
    (s.setCoreAndMem p c m).result = s.result := rfl

@[simp] theorem State.setCoreAndMem_notifications (s : State) (p : CoreId) (c : Core) (m : SharedMemory) :
    (s.setCoreAndMem p c m).notifications = s.notifications := rfl

/-- An operation that left a core and the memory as they were. -/
@[simp] theorem State.setCoreAndMem_self (s : State) (p : CoreId) : s.setCoreAndMem p (s.core p) s.mem = s := by
  cases p <;> rfl

@[simp] theorem State.returningWith_core_same (s : State) (p : CoreId) (c : Core) (m : SharedMemory) (r : CallResult) :
    (s.returningWith p c m r).core p = c := by cases p <;> rfl

theorem State.returningWith_core (s : State) (p q : CoreId) (c : Core) (m : SharedMemory) (r : CallResult) :
    (s.returningWith p c m r).core q = if q = p then c else s.core q := by cases p <;> cases q <;> rfl

@[simp] theorem State.returningWith_mem (s : State) (p : CoreId) (c : Core) (m : SharedMemory) (r : CallResult) :
    (s.returningWith p c m r).mem = m := rfl

@[simp] theorem State.returningWith_result (s : State) (p : CoreId) (c : Core) (m : SharedMemory) (r : CallResult) :
    (s.returningWith p c m r).result = r := rfl

@[simp] theorem State.returningWith_platform (s : State) (p : CoreId) (c : Core) (m : SharedMemory) (r : CallResult) :
    (s.returningWith p c m r).platform = s.platform := rfl

@[simp] theorem State.returningWith_current (s : State) (p : CoreId) (c : Core) (m : SharedMemory) (r : CallResult) :
    (s.returningWith p c m r).current = s.current := rfl

@[simp] theorem State.returningWith_calls (s : State) (p : CoreId) (c : Core) (m : SharedMemory) (r : CallResult) :
    (s.returningWith p c m r).calls = s.calls := rfl

@[simp] theorem State.returningWith_notifications (s : State) (p : CoreId) (c : Core) (m : SharedMemory) (r : CallResult) :
    (s.returningWith p c m r).notifications = s.notifications := rfl

/-- A call that left a core and the memory as they were changes the result alone. -/
@[simp] theorem State.returningWith_self (s : State) (p : CoreId) (r : CallResult) :
    s.returningWith p (s.core p) s.mem r = { s with result := r } := by cases p <;> rfl

@[simp] theorem stepResult_core_same (s : State) (c : Core) (m : SharedMemory) (n : Nat) :
    (stepResult s c m n).core s.current = c := by
  simp [stepResult, State.core]

theorem stepResult_core (s : State) (q : CoreId) (c : Core) (m : SharedMemory) (n : Nat) :
    (stepResult s c m n).core q = if q = s.current then c else s.core q := by
  simp [stepResult, State.core, PerCore_get_set]

@[simp] theorem stepResult_mem (s : State) (c : Core) (m : SharedMemory) (n : Nat) : (stepResult s c m n).mem = m := rfl

@[simp] theorem stepResult_result (s : State) (c : Core) (m : SharedMemory) (n : Nat) :
    (stepResult s c m n).result = .cost n := rfl

@[simp] theorem stepResult_notifications (s : State) (c : Core) (m : SharedMemory) (n : Nat) :
    (stepResult s c m n).notifications = notify s := rfl

@[simp] theorem stepResult_platform (s : State) (c : Core) (m : SharedMemory) (n : Nat) : (stepResult s c m n).platform = s.platform := rfl

@[simp] theorem stepResult_current (s : State) (c : Core) (m : SharedMemory) (n : Nat) : (stepResult s c m n).current = s.current := rfl

@[simp] theorem stepResult_calls (s : State) (c : Core) (m : SharedMemory) (n : Nat) : (stepResult s c m n).calls = s.calls := rfl

/-! ### Updates of a core -/

@[simp] theorem Core.setReg_cpsr (c : Core) (i : Fin 16) (v : Word) : (c.setReg i v).cpsr = c.cpsr := rfl

@[simp] theorem Core.setReg_spsrs (c : Core) (i : Fin 16) (v : Word) : (c.setReg i v).spsrs = c.spsrs := rfl

@[simp] theorem Core.setReg_bankUsr (c : Core) (i : Fin 16) (v : Word) : (c.setReg i v).bankUsr = c.bankUsr := rfl

@[simp] theorem Core.setReg_bankSvc (c : Core) (i : Fin 16) (v : Word) : (c.setReg i v).bankSvc = c.bankSvc := rfl

@[simp] theorem Core.setReg_bankAbt (c : Core) (i : Fin 16) (v : Word) : (c.setReg i v).bankAbt = c.bankAbt := rfl

@[simp] theorem Core.setReg_bankUnd (c : Core) (i : Fin 16) (v : Word) : (c.setReg i v).bankUnd = c.bankUnd := rfl

@[simp] theorem Core.setReg_bankIrq (c : Core) (i : Fin 16) (v : Word) : (c.setReg i v).bankIrq = c.bankIrq := rfl

@[simp] theorem Core.setReg_bankFiq (c : Core) (i : Fin 16) (v : Word) : (c.setReg i v).bankFiq = c.bankFiq := rfl

@[simp] theorem Core.setReg_pI (c : Core) (i : Fin 16) (v : Word) : (c.setReg i v).pI = c.pI := rfl

@[simp] theorem Core.setReg_pIA (c : Core) (i : Fin 16) (v : Word) : (c.setReg i v).pIA = c.pIA := rfl

@[simp] theorem Core.setReg_nFA (c : Core) (i : Fin 16) (v : Word) : (c.setReg i v).nFA = c.nFA := rfl

@[simp] theorem Core.setReg_interruptVectorBase (c : Core) (i : Fin 16) (v : Word) : (c.setReg i v).interruptVectorBase = c.interruptVectorBase := rfl

@[simp] theorem Core.setReg_waitingForInterrupt (c : Core) (i : Fin 16) (v : Word) : (c.setReg i v).waitingForInterrupt = c.waitingForInterrupt := rfl

@[simp] theorem Core.setReg_irqPending (c : Core) (i : Fin 16) (v : Word) : (c.setReg i v).irqPending = c.irqPending := rfl

@[simp] theorem Core.setReg_coprocessorHandles (c : Core) (i : Fin 16) (v : Word) : (c.setReg i v).coprocessorHandles = c.coprocessorHandles := rfl

@[simp] theorem Core.setReg_memoryInterface (c : Core) (i : Fin 16) (v : Word) : (c.setReg i v).memoryInterface = c.memoryInterface := rfl

@[simp] theorem Core.setReg_debugHalted (c : Core) (i : Fin 16) (v : Word) : (c.setReg i v).debugHalted = c.debugHalted := rfl

@[simp] theorem Core.setReg_initialised (c : Core) (i : Fin 16) (v : Word) : (c.setReg i v).initialised = c.initialised := rfl

@[simp] theorem Core.fillLatch_cpsr (c : Core) (v w : Word) : (c.fillLatch v w).cpsr = c.cpsr := rfl

@[simp] theorem Core.fillLatch_spsrs (c : Core) (v w : Word) : (c.fillLatch v w).spsrs = c.spsrs := rfl

@[simp] theorem Core.fillLatch_bankUsr (c : Core) (v w : Word) : (c.fillLatch v w).bankUsr = c.bankUsr := rfl

@[simp] theorem Core.fillLatch_bankSvc (c : Core) (v w : Word) : (c.fillLatch v w).bankSvc = c.bankSvc := rfl

@[simp] theorem Core.fillLatch_bankAbt (c : Core) (v w : Word) : (c.fillLatch v w).bankAbt = c.bankAbt := rfl

@[simp] theorem Core.fillLatch_bankUnd (c : Core) (v w : Word) : (c.fillLatch v w).bankUnd = c.bankUnd := rfl

@[simp] theorem Core.fillLatch_bankIrq (c : Core) (v w : Word) : (c.fillLatch v w).bankIrq = c.bankIrq := rfl

@[simp] theorem Core.fillLatch_bankFiq (c : Core) (v w : Word) : (c.fillLatch v w).bankFiq = c.bankFiq := rfl

@[simp] theorem Core.fillLatch_interruptVectorBase (c : Core) (v w : Word) : (c.fillLatch v w).interruptVectorBase = c.interruptVectorBase := rfl

@[simp] theorem Core.fillLatch_waitingForInterrupt (c : Core) (v w : Word) : (c.fillLatch v w).waitingForInterrupt = c.waitingForInterrupt := rfl

@[simp] theorem Core.fillLatch_irqPending (c : Core) (v w : Word) : (c.fillLatch v w).irqPending = c.irqPending := rfl

@[simp] theorem Core.fillLatch_coprocessorHandles (c : Core) (v w : Word) : (c.fillLatch v w).coprocessorHandles = c.coprocessorHandles := rfl

@[simp] theorem Core.fillLatch_memoryInterface (c : Core) (v w : Word) : (c.fillLatch v w).memoryInterface = c.memoryInterface := rfl

@[simp] theorem Core.fillLatch_debugHalted (c : Core) (v w : Word) : (c.fillLatch v w).debugHalted = c.debugHalted := rfl

@[simp] theorem Core.fillLatch_initialised (c : Core) (v w : Word) : (c.fillLatch v w).initialised = c.initialised := rfl

@[simp] theorem Core.fillLatch_pI (c : Core) (v w : Word) : (c.fillLatch v w).pI = v := rfl

@[simp] theorem Core.fillLatch_pIA (c : Core) (v w : Word) : (c.fillLatch v w).pIA = c.nFA := rfl

@[simp] theorem Core.fillLatch_nFA (c : Core) (v w : Word) : (c.fillLatch v w).nFA = c.nFA + w := rfl

@[simp] theorem writeMode_regs (c : Core) (m : BitVec 5) : (writeMode m c).regs = c.regs := rfl

@[simp] theorem writeMode_spsrs (c : Core) (m : BitVec 5) : (writeMode m c).spsrs = c.spsrs := rfl

@[simp] theorem writeMode_bankUsr (c : Core) (m : BitVec 5) : (writeMode m c).bankUsr = c.bankUsr := rfl

@[simp] theorem writeMode_bankSvc (c : Core) (m : BitVec 5) : (writeMode m c).bankSvc = c.bankSvc := rfl

@[simp] theorem writeMode_bankAbt (c : Core) (m : BitVec 5) : (writeMode m c).bankAbt = c.bankAbt := rfl

@[simp] theorem writeMode_bankUnd (c : Core) (m : BitVec 5) : (writeMode m c).bankUnd = c.bankUnd := rfl

@[simp] theorem writeMode_bankIrq (c : Core) (m : BitVec 5) : (writeMode m c).bankIrq = c.bankIrq := rfl

@[simp] theorem writeMode_bankFiq (c : Core) (m : BitVec 5) : (writeMode m c).bankFiq = c.bankFiq := rfl

@[simp] theorem writeMode_pI (c : Core) (m : BitVec 5) : (writeMode m c).pI = c.pI := rfl

@[simp] theorem writeMode_pIA (c : Core) (m : BitVec 5) : (writeMode m c).pIA = c.pIA := rfl

@[simp] theorem writeMode_nFA (c : Core) (m : BitVec 5) : (writeMode m c).nFA = c.nFA := rfl

@[simp] theorem writeMode_interruptVectorBase (c : Core) (m : BitVec 5) : (writeMode m c).interruptVectorBase = c.interruptVectorBase := rfl

@[simp] theorem writeMode_waitingForInterrupt (c : Core) (m : BitVec 5) : (writeMode m c).waitingForInterrupt = c.waitingForInterrupt := rfl

@[simp] theorem writeMode_irqPending (c : Core) (m : BitVec 5) : (writeMode m c).irqPending = c.irqPending := rfl

@[simp] theorem writeMode_coprocessorHandles (c : Core) (m : BitVec 5) : (writeMode m c).coprocessorHandles = c.coprocessorHandles := rfl

@[simp] theorem writeMode_memoryInterface (c : Core) (m : BitVec 5) : (writeMode m c).memoryInterface = c.memoryInterface := rfl

@[simp] theorem writeMode_debugHalted (c : Core) (m : BitVec 5) : (writeMode m c).debugHalted = c.debugHalted := rfl

@[simp] theorem writeMode_initialised (c : Core) (m : BitVec 5) : (writeMode m c).initialised = c.initialised := rfl

@[simp] theorem writeMode_cpsr (c : Core) (m : BitVec 5) : (writeMode m c).cpsr = setModeField c.cpsr m := rfl

@[simp] theorem exchangeFiq_cpsr (c : Core) : (exchangeFiq c).cpsr = c.cpsr := rfl

@[simp] theorem exchangeFiq_spsrs (c : Core) : (exchangeFiq c).spsrs = c.spsrs := rfl

@[simp] theorem exchangeFiq_bankUsr (c : Core) : (exchangeFiq c).bankUsr = c.bankUsr := rfl

@[simp] theorem exchangeFiq_bankSvc (c : Core) : (exchangeFiq c).bankSvc = c.bankSvc := rfl

@[simp] theorem exchangeFiq_bankAbt (c : Core) : (exchangeFiq c).bankAbt = c.bankAbt := rfl

@[simp] theorem exchangeFiq_bankUnd (c : Core) : (exchangeFiq c).bankUnd = c.bankUnd := rfl

@[simp] theorem exchangeFiq_bankIrq (c : Core) : (exchangeFiq c).bankIrq = c.bankIrq := rfl

@[simp] theorem exchangeFiq_pI (c : Core) : (exchangeFiq c).pI = c.pI := rfl

@[simp] theorem exchangeFiq_pIA (c : Core) : (exchangeFiq c).pIA = c.pIA := rfl

@[simp] theorem exchangeFiq_nFA (c : Core) : (exchangeFiq c).nFA = c.nFA := rfl

@[simp] theorem exchangeFiq_interruptVectorBase (c : Core) : (exchangeFiq c).interruptVectorBase = c.interruptVectorBase := rfl

@[simp] theorem exchangeFiq_waitingForInterrupt (c : Core) : (exchangeFiq c).waitingForInterrupt = c.waitingForInterrupt := rfl

@[simp] theorem exchangeFiq_irqPending (c : Core) : (exchangeFiq c).irqPending = c.irqPending := rfl

@[simp] theorem exchangeFiq_coprocessorHandles (c : Core) : (exchangeFiq c).coprocessorHandles = c.coprocessorHandles := rfl

@[simp] theorem exchangeFiq_memoryInterface (c : Core) : (exchangeFiq c).memoryInterface = c.memoryInterface := rfl

@[simp] theorem exchangeFiq_debugHalted (c : Core) : (exchangeFiq c).debugHalted = c.debugHalted := rfl

@[simp] theorem exchangeFiq_initialised (c : Core) : (exchangeFiq c).initialised = c.initialised := rfl

@[simp] theorem Core.setPair_regs (c : Core) (g : PairGroup) (b : BankPair) : (c.setPair g b).regs = c.regs := by cases g <;> rfl

@[simp] theorem Core.setPair_cpsr (c : Core) (g : PairGroup) (b : BankPair) : (c.setPair g b).cpsr = c.cpsr := by cases g <;> rfl

@[simp] theorem Core.setPair_spsrs (c : Core) (g : PairGroup) (b : BankPair) : (c.setPair g b).spsrs = c.spsrs := by cases g <;> rfl

@[simp] theorem Core.setPair_bankFiq (c : Core) (g : PairGroup) (b : BankPair) : (c.setPair g b).bankFiq = c.bankFiq := by cases g <;> rfl

@[simp] theorem Core.setPair_pI (c : Core) (g : PairGroup) (b : BankPair) : (c.setPair g b).pI = c.pI := by cases g <;> rfl

@[simp] theorem Core.setPair_pIA (c : Core) (g : PairGroup) (b : BankPair) : (c.setPair g b).pIA = c.pIA := by cases g <;> rfl

@[simp] theorem Core.setPair_nFA (c : Core) (g : PairGroup) (b : BankPair) : (c.setPair g b).nFA = c.nFA := by cases g <;> rfl

@[simp] theorem Core.setPair_interruptVectorBase (c : Core) (g : PairGroup) (b : BankPair) : (c.setPair g b).interruptVectorBase = c.interruptVectorBase := by cases g <;> rfl

@[simp] theorem Core.setPair_waitingForInterrupt (c : Core) (g : PairGroup) (b : BankPair) : (c.setPair g b).waitingForInterrupt = c.waitingForInterrupt := by cases g <;> rfl

@[simp] theorem Core.setPair_irqPending (c : Core) (g : PairGroup) (b : BankPair) : (c.setPair g b).irqPending = c.irqPending := by cases g <;> rfl

@[simp] theorem Core.setPair_coprocessorHandles (c : Core) (g : PairGroup) (b : BankPair) : (c.setPair g b).coprocessorHandles = c.coprocessorHandles := by cases g <;> rfl

@[simp] theorem Core.setPair_memoryInterface (c : Core) (g : PairGroup) (b : BankPair) : (c.setPair g b).memoryInterface = c.memoryInterface := by cases g <;> rfl

@[simp] theorem Core.setPair_debugHalted (c : Core) (g : PairGroup) (b : BankPair) : (c.setPair g b).debugHalted = c.debugHalted := by cases g <;> rfl

@[simp] theorem Core.setPair_initialised (c : Core) (g : PairGroup) (b : BankPair) : (c.setPair g b).initialised = c.initialised := by cases g <;> rfl

@[simp] theorem Core.setPair_pair_same (c : Core) (g : PairGroup) (b : BankPair) : (c.setPair g b).pair g = b := by
  cases g <;> rfl

theorem Core.setPair_pair (c : Core) (g k : PairGroup) (b : BankPair) :
    (c.setPair g b).pair k = if k = g then b else c.pair k := by cases g <;> cases k <;> rfl

/-! ### General registers -/

@[simp] theorem Core.reg_setReg_same (c : Core) (i : Fin 16) (v : Word) : (c.setReg i v).reg i = v := by
  simp [Core.reg, Core.setReg]

theorem Core.reg_setReg (c : Core) (i j : Fin 16) (v : Word) :
    (c.setReg i v).reg j = if j = i then v else c.reg j := by
  rcases eq_or_ne j i with h | h
  · simp [h]
  · have h' : (i : Nat) ≠ j := fun e => h (Fin.ext e.symm)
    simp [Core.reg, Core.setReg, h, h']

theorem Core.reg_fillLatch (c : Core) (v w : Word) (j : Fin 16) :
    (c.fillLatch v w).reg j = if j = 15 then c.nFA + w + w else c.reg j := by
  have h := Core.reg_setReg c 15 j (c.nFA + w + w)
  exact h

theorem Core.pair_of_banks {c d : Core} (h : c.bankUsr = d.bankUsr ∧ c.bankSvc = d.bankSvc ∧ c.bankAbt = d.bankAbt ∧
    c.bankUnd = d.bankUnd ∧ c.bankIrq = d.bankIrq) (g : PairGroup) : c.pair g = d.pair g := by
  obtain ⟨h1, h2, h3, h4, h5⟩ := h
  cases g <;> simp [Core.pair, *]

@[simp] theorem Core.pair_setReg (c : Core) (i : Fin 16) (v : Word) (g : PairGroup) :
    (c.setReg i v).pair g = c.pair g := by cases g <;> rfl

@[simp] theorem Core.pair_writeMode (c : Core) (m : BitVec 5) (g : PairGroup) : (writeMode m c).pair g = c.pair g := by
  cases g <;> rfl

@[simp] theorem Core.pair_exchangeFiq (c : Core) (g : PairGroup) : (exchangeFiq c).pair g = c.pair g := by
  cases g <;> rfl

@[simp] theorem Core.reg_writeMode (c : Core) (m : BitVec 5) (j : Fin 16) : (writeMode m c).reg j = c.reg j := rfl

@[simp] theorem Core.reg_setPair (c : Core) (g : PairGroup) (b : BankPair) (j : Fin 16) :
    (c.setPair g b).reg j = c.reg j := by cases g <;> rfl

/-- Every register number from its value: R[8] to R[12] are exchanged, the others kept (40_bank_switch.md R124). -/
theorem Core.reg_exchangeFiq (c : Core) (j : Fin 16) :
    (exchangeFiq c).reg j =
      if j = 8 then c.bankFiq.r8 else if j = 9 then c.bankFiq.r9 else if j = 10 then c.bankFiq.r10
      else if j = 11 then c.bankFiq.r11 else if j = 12 then c.bankFiq.r12 else c.reg j := by
  have h : exchangeFiq c = { ((((c.setReg 8 c.bankFiq.r8).setReg 9 c.bankFiq.r9).setReg 10 c.bankFiq.r10).setReg 11
      c.bankFiq.r11).setReg 12 c.bankFiq.r12 with bankFiq := (exchangeFiq c).bankFiq } := rfl
  have e : (exchangeFiq c).reg j = (((((c.setReg 8 c.bankFiq.r8).setReg 9 c.bankFiq.r9).setReg 10 c.bankFiq.r10).setReg
      11 c.bankFiq.r11).setReg 12 c.bankFiq.r12).reg j := by rw [h]; rfl
  rw [e]
  simp only [Core.reg_setReg]
  fin_cases j <;> rfl

@[simp] theorem exchangeFiq_bankFiq (c : Core) :
    (exchangeFiq c).bankFiq =
      { r8 := c.reg 8, r9 := c.reg 9, r10 := c.reg 10, r11 := c.reg 11, r12 := c.reg 12, r13 := c.bankFiq.r13,
        r14 := c.bankFiq.r14 } := rfl

/-- Two cores agree when every field does, the general registers one by one. -/
theorem Core.regs_ext {c d : Core} (h : ∀ j, c.reg j = d.reg j) : c.regs = d.regs := by
  apply Vector.ext
  intro i hi
  exact h ⟨i, hi⟩

/-! ### What operations hand back -/

@[simp] theorem stopped_fault (f : Fault) : stopped (.fault f) = .fault f := rfl

@[simp] theorem stopped_refused (r : Refusal) : stopped (.refused r) = .refused r := rfl

theorem stopped_ne_next (e : Stop) (s : State) : stopped e ≠ .next s := by cases e <;> simp [stopped]

end Sys2Proof.Machine
end

