-- ==== Sys2Proof/Laws/Services.lean ====
section
/-! SUPPORT. What the engine's services can do, said once each: switchMode, prefetch, interrupt entry and reset. Later
proofs cite these and do not unfold the services. -/

namespace Sys2Proof.Machine

/-! ### The bank switch -/

/-- What every phase of a bank switch leaves alone (40_bank_switch.md R127). -/
structure SameOutsideBanks (c d : Core) : Prop where
  low : ∀ j : Fin 16, j.val < 8 → d.reg j = c.reg j
  pc : d.reg 15 = c.reg 15
  spsrs : d.spsrs = c.spsrs
  pI : d.pI = c.pI
  pIA : d.pIA = c.pIA
  nFA : d.nFA = c.nFA
  vectorBase : d.interruptVectorBase = c.interruptVectorBase
  waiting : d.waitingForInterrupt = c.waitingForInterrupt
  pending : d.irqPending = c.irqPending
  handles : d.coprocessorHandles = c.coprocessorHandles
  memory : d.memoryInterface = c.memoryInterface
  halted : d.debugHalted = c.debugHalted
  initialised : d.initialised = c.initialised

theorem SameOutsideBanks.refl (c : Core) : SameOutsideBanks c c := by constructor <;> simp

theorem SameOutsideBanks.trans {c d e : Core} (h : SameOutsideBanks c d) (k : SameOutsideBanks d e) :
    SameOutsideBanks c e where
  low j hj := (k.low j hj).trans (h.low j hj)
  pc := k.pc.trans h.pc
  spsrs := k.spsrs.trans h.spsrs
  pI := k.pI.trans h.pI
  pIA := k.pIA.trans h.pIA
  nFA := k.nFA.trans h.nFA
  vectorBase := k.vectorBase.trans h.vectorBase
  waiting := k.waiting.trans h.waiting
  pending := k.pending.trans h.pending
  handles := k.handles.trans h.handles
  memory := k.memory.trans h.memory
  halted := k.halted.trans h.halted
  initialised := k.initialised.trans h.initialised

theorem exchangeFiq_outside (c : Core) : SameOutsideBanks c (exchangeFiq c) where
  low j hj := by
    rw [Core.reg_exchangeFiq]
    have h : j ≠ 8 ∧ j ≠ 9 ∧ j ≠ 10 ∧ j ≠ 11 ∧ j ≠ 12 := by refine ⟨?_, ?_, ?_, ?_, ?_⟩ <;> (rintro rfl; simp at hj)
    simp [h]
  pc := by rw [Core.reg_exchangeFiq]; rfl
  spsrs := rfl
  pI := rfl
  pIA := rfl
  nFA := rfl
  vectorBase := rfl
  waiting := rfl
  pending := rfl
  handles := rfl
  memory := rfl
  halted := rfl
  initialised := rfl

theorem setReg_outside (c : Core) {i : Fin 16} (v : Word) (h : 8 ≤ i.val ∧ i.val < 15) :
    SameOutsideBanks c (c.setReg i v) where
  low j hj := by
    rw [Core.reg_setReg, if_neg]
    rintro rfl
    omega
  pc := by
    rw [Core.reg_setReg, if_neg]
    rintro rfl
    simp at h
  spsrs := rfl
  pI := rfl
  pIA := rfl
  nFA := rfl
  vectorBase := rfl
  waiting := rfl
  pending := rfl
  handles := rfl
  memory := rfl
  halted := rfl
  initialised := rfl

theorem saveBank_outside (g : Option Group) (c : Core) : SameOutsideBanks c (saveBank g c) := by
  cases g with
  | none => exact .refl c
  | some g =>
    cases g with
    | pair g => constructor <;> simp [saveBank]
    | fiq =>
      have h := exchangeFiq_outside c
      exact ⟨h.low, h.pc, rfl, rfl, rfl, rfl, rfl, rfl, rfl, rfl, rfl, rfl, rfl⟩

theorem restoreBank_outside (g : Option Group) (c : Core) : SameOutsideBanks c (restoreBank g c) := by
  cases g with
  | none => exact .refl c
  | some g =>
    cases g with
    | pair g => exact (setReg_outside c _ (by decide)).trans (setReg_outside _ _ (by decide))
    | fiq =>
      exact ((exchangeFiq_outside c).trans (setReg_outside _ _ (by decide))).trans (setReg_outside _ _ (by decide))

@[simp] theorem saveBank_cpsr (g : Option Group) (c : Core) : (saveBank g c).cpsr = c.cpsr := by
  rcases g with _ | (g | _) <;> simp [saveBank]

@[simp] theorem restoreBank_cpsr (g : Option Group) (c : Core) : (restoreBank g c).cpsr = c.cpsr := by
  rcases g with _ | (g | _) <;> simp [restoreBank]

theorem bankSwap_outside (p : CoreId) (m : BitVec 5) (c : Core) : SameOutsideBanks c (bankSwap p m c) := by
  have h := (saveBank_outside (groupOf p (modeField c.cpsr)) c).trans
    (restoreBank_outside (groupOf p m) (saveBank (groupOf p (modeField c.cpsr)) c))
  exact ⟨h.low, h.pc, h.spsrs, h.pI, h.pIA, h.nFA, h.vectorBase, h.waiting, h.pending, h.handles, h.memory, h.halted,
    h.initialised⟩

@[simp] theorem bankSwap_cpsr (p : CoreId) (m : BitVec 5) (c : Core) :
    (bankSwap p m c).cpsr = setModeField c.cpsr m := by simp [bankSwap]

/-- Where no mode of the core is of the fast-interrupt group, its shadows stay (40_bank_switch.md R131). -/
theorem bankSwap_bankFiq {p : CoreId} (h : p.hasFiq = false) (m : BitVec 5) (c : Core) :
    (bankSwap p m c).bankFiq = c.bankFiq := by
  have hg : ∀ k, groupOf p k ≠ some .fiq := fun k e => by
    have := groupOf_fiq e
    simp [h] at this
  have hs : ∀ d k, (saveBank (groupOf p k) d).bankFiq = d.bankFiq := by
    intro d k
    have := hg k
    rcases hk : groupOf p k with _ | (g | _)
    · simp [saveBank]
    · simp [saveBank]
    · exact absurd hk this
  have hr : ∀ d k, (restoreBank (groupOf p k) d).bankFiq = d.bankFiq := by
    intro d k
    have := hg k
    rcases hk : groupOf p k with _ | (g | _)
    · simp [restoreBank]
    · simp [restoreBank]
    · exact absurd hk this
  simp [bankSwap, hs, hr]

theorem switchAllowed_iff (policy : MalformedModePolicy) (p : CoreId) (old new : BitVec 5) :
    switchAllowed policy p old new = true ↔
      (policy = .fault → legalMode p old = true ∧ legalMode p new = true) := by
  cases policy <;> simp [switchAllowed]

/-- What switchMode does when it does not fault (40_bank_switch.md R120). -/
theorem switchMode_ok {policy : MalformedModePolicy} {p : CoreId} {v : Word} {c d : Core} {old : BitVec 5}
    (h : switchMode policy p v c = .ok (old, d)) :
    old = modeField c.cpsr ∧ d = bankSwap p (modeField v) c ∧
      (policy = .fault → legalMode p (modeField c.cpsr) = true ∧ legalMode p (modeField v) = true) := by
  unfold switchMode at h
  split at h
  · rename_i ha
    cases h
    exact ⟨rfl, rfl, (switchAllowed_iff ..).mp ha⟩
  · cases h

/-- switchMode's only fault (40_bank_switch.md R130). -/
theorem switchMode_error {policy : MalformedModePolicy} {p : CoreId} {v : Word} {c : Core} {e : Stop}
    (h : switchMode policy p v c = .error e) : e = .fault .malformedMode ∧
      switchAllowed policy p (modeField c.cpsr) (modeField v) = false := by
  unfold switchMode at h
  split at h
  · cases h
  · rename_i ha
    cases h
    exact ⟨rfl, ha⟩

theorem switchMode_of_allowed {policy : MalformedModePolicy} {p : CoreId} {v : Word} {c : Core}
    (h : switchAllowed policy p (modeField c.cpsr) (modeField v) = true) :
    switchMode policy p v c = .ok (modeField c.cpsr, bankSwap p (modeField v) c) := by
  simp [switchMode, h]

/-! ### prefetch -/

theorem prefetch_of_allowed {pf : Platform} {p : CoreId} {m : SharedMemory} {c : Core} (h : fetchAllowed pf c = true) :
    prefetch pf p m c = .ok (prefetched pf p m c, prefetchedMem pf p m c, prefetchCost p c) := by
  simp [prefetch, h]

theorem prefetch_of_not_allowed {pf : Platform} {p : CoreId} {m : SharedMemory} {c : Core} (h : fetchAllowed pf c = false) :
    prefetch pf p m c = .error (.fault .misalignedFetch) := by
  simp [prefetch, h]

/-- What prefetch does when it does not fault (41_prefetch.md R150, R151, R152). -/
theorem prefetch_ok {pf : Platform} {p : CoreId} {m m' : SharedMemory} {c d : Core} {n : Nat}
    (h : prefetch pf p m c = .ok (d, m', n)) :
    fetchAllowed pf c = true ∧ d = prefetched pf p m c ∧ m' = prefetchedMem pf p m c ∧ n = prefetchCost p c := by
  unfold prefetch at h
  split at h
  · rename_i ha
    cases h
    exact ⟨ha, rfl, rfl, rfl⟩
  · cases h

/-- prefetch's only fault (41_prefetch.md R156). -/
theorem prefetch_error {pf : Platform} {p : CoreId} {m : SharedMemory} {c : Core} {e : Stop}
    (h : prefetch pf p m c = .error e) : e = .fault .misalignedFetch ∧ fetchAllowed pf c = false := by
  unfold prefetch at h
  split at h
  · cases h
  · rename_i ha
    cases h
    exact ⟨rfl, ha⟩

/-- A prefetch reads only T and nFA of the core, and overwrites the latch and R[15]. -/
theorem prefetched_lag (pf : Platform) (p : CoreId) (m : SharedMemory) (c : Core) :
    (prefetched pf p m c).nFA = (prefetched pf p m c).pIA + instrWidth (flagT (prefetched pf p m c).cpsr) ∧
      (prefetched pf p m c).reg 15 =
        (prefetched pf p m c).pIA + instrWidth (flagT (prefetched pf p m c).cpsr) +
          instrWidth (flagT (prefetched pf p m c).cpsr) ∧
      (flagT (prefetched pf p m c).cpsr = true → (prefetched pf p m c).pI.extractLsb' 16 16 = 0#16) := by
  refine ⟨rfl, ?_, ?_⟩
  · simp [prefetched, Core.reg_fillLatch]
  · intro ht
    have ht' : flagT c.cpsr = true := ht
    simp only [prefetched, Core.fillLatch_pI, ht', fetchLatched]
    apply BitVec.eq_of_getLsbD_eq
    intro i hi
    simp

/-! ### Taking an interrupt -/

/-- What enterInterrupt does when it does not fault (60_exceptions.md R242, R243). -/
theorem enterInterrupt_ok {pf : Platform} {p : CoreId} {m m' : SharedMemory} {c d : Core} {b : Bool}
    (h : enterInterrupt pf p m c = .ok (b, d, m')) :
    c.initialised = true ∧
      ((flagI c.cpsr = true ∧ b = false ∧ d = c ∧ m' = m) ∨
        (flagI c.cpsr = false ∧ b = true ∧ d = prefetched pf p m (irqEntryWrites c (bankSwap p 0x12 c)) ∧
          m' = prefetchedMem pf p m (irqEntryWrites c (bankSwap p 0x12 c)) ∧
          (pf.malformedMode = .fault → legalMode p (modeField c.cpsr) = true))) := by
  unfold enterInterrupt at h
  split at h
  · cases h
  · rename_i hi
    refine ⟨by simpa using hi, ?_⟩
    split at h
    · rename_i hI
      cases h
      exact .inl ⟨hI, rfl, rfl, rfl⟩
    · rename_i hI
      split at h
      · cases h
      · rename_i old d' hs
        obtain ⟨-, hd, hl⟩ := switchMode_ok hs
        split at h
        · cases h
        · rename_i e k n hp
          cases h
          obtain ⟨-, he, hk, -⟩ := prefetch_ok hp
          subst hd
          exact .inr ⟨by simpa using hI, rfl, he, hk, fun hp' => (hl hp').1⟩

@[simp] theorem flagT_irqEntryWrites (b c : Core) : flagT (irqEntryWrites b c).cpsr = false := by
  simp [irqEntryWrites]

@[simp] theorem modeField_irqEntryWrites (b c : Core) : modeField (irqEntryWrites b c).cpsr = modeField c.cpsr := by
  simp [irqEntryWrites]

/-- What flagInterrupt does when it does not fault (60_exceptions.md R241). -/
theorem flagInterrupt_ok {c d : Core} {b : Bool} (h : flagInterrupt c = .ok (b, d)) :
    c.initialised = true ∧
      ((flagI c.cpsr = true ∧ b = false ∧ d = c) ∨
        (flagI c.cpsr = false ∧ b = true ∧ d = { c with waitingForInterrupt := false, irqPending := true })) := by
  unfold flagInterrupt at h
  split at h
  · cases h
  · rename_i hi
    refine ⟨by simpa using hi, ?_⟩
    split at h
    · rename_i hI
      cases h
      exact .inl ⟨hI, rfl, rfl⟩
    · rename_i hI
      cases h
      exact .inr ⟨by simpa using hI, rfl, rfl⟩

/-- What reset does when it does not fault (70_reset_and_hazards.md R292). -/
theorem resetCore_ok {pf : Platform} {p : CoreId} {m m' : SharedMemory} {a : Word} {c d : Core}
    (h : resetCore pf p m a c = .ok (d, m')) :
    d = prefetched pf p m (resetWrites p (pf.vectorBase.get p) a c) ∧
      m' = prefetchedMem pf p m (resetWrites p (pf.vectorBase.get p) a c) := by
  unfold resetCore at h
  split at h
  · cases h
  · rename_i e k n hp
    cases h
    exact ⟨(prefetch_ok hp).2.1, (prefetch_ok hp).2.2.1⟩

/-! ### Alignment of a fetch (41_prefetch.md R156) -/

theorem fetchAligned_word (a : Word) : fetchAligned false a = true ↔ a.toNat % 4 = 0 := by
  simp only [fetchAligned, AccessWidth.aligned, beq_iff_eq, ← BitVec.toNat_inj, BitVec.toNat_setWidth]
  simp

theorem fetchAligned_half (a : Word) : fetchAligned true a = true ↔ a.toNat % 2 = 0 := by
  simp only [fetchAligned, AccessWidth.aligned, beq_iff_eq, ← BitVec.toNat_inj, BitVec.toNat_setWidth]
  simp

/-- How wide the access of a fetch is. -/
theorem fetchLatched_eq (pf : Platform) (p : CoreId) (m : SharedMemory) (t : Bool) (a : Word) :
    fetchLatched pf p m t a = (m.read pf ⟨p, .fetch, if t then .half else .word, a⟩).1 := by
  cases t
  · rfl
  · simp only [fetchLatched, fetch16, SharedMemory.read, if_true]
    split <;> simp [Memory.load, AccessWidth.narrow]

theorem fetchLeaves_eq (pf : Platform) (p : CoreId) (m : SharedMemory) (t : Bool) (a : Word) :
    fetchLeaves pf p m t a = (m.read pf ⟨p, .fetch, if t then .half else .word, a⟩).2 := by cases t <;> rfl

/-- An aligned fetch of plain memory (20_memory.md R62, R72). -/
theorem fetch_plain {pf : Platform} {p : CoreId} {m : SharedMemory} {t : Bool} {a : Word} (h : pf.collaborator = .plain)
    (k : fetchAligned t a = true) :
    fetchLatched pf p m t a = m.bytes.load pf.byteOrder (if t then .half else .word) a ∧ fetchLeaves pf p m t a = m := by
  have hp : pf.answersPlain ⟨p, .fetch, if t then .half else .word, a⟩ = true :=
    Platform.answersPlain_plain h (by cases t <;> exact k)
  rw [fetchLatched_eq, fetchLeaves_eq, SharedMemory.read_plain hp]
  exact ⟨rfl, rfl⟩

/-- A fetch an oracle answers: one access (20_memory.md R67). -/
theorem fetch_oracle {pf : Platform} {p : CoreId} {m : SharedMemory} {t : Bool} {a : Word}
    (h : pf.collaborator = .oracle ∨ fetchAligned t a = false) :
    fetchLatched pf p m t a = AccessWidth.narrow (if t then .half else .word)
        (m.answer ⟨p, .fetch, if t then .half else .word, a⟩).value ∧
      fetchLeaves pf p m t a = m.answered ⟨p, .fetch, if t then .half else .word, a⟩ := by
  have hp : pf.answersPlain ⟨p, .fetch, if t then .half else .word, a⟩ = false :=
    Platform.answersPlain_oracle (h.imp_right fun k => by cases t <;> exact k)
  rw [fetchLatched_eq, fetchLeaves_eq, SharedMemory.read_oracle hp]
  exact ⟨rfl, rfl⟩

theorem fetchLeaves_wf {m : SharedMemory} (pf : Platform) (p : CoreId) (t : Bool) (a : Word) (h : m.bytes.wf = true) :
    (fetchLeaves pf p m t a).bytes.wf = true := by
  rw [fetchLeaves_eq]
  exact SharedMemory.read_wf _ _ h

theorem prefetchedMem_wf {m : SharedMemory} (pf : Platform) (p : CoreId) (c : Core) (h : m.bytes.wf = true) :
    (prefetchedMem pf p m c).bytes.wf = true := fetchLeaves_wf _ _ _ _ h

theorem fetchAllowed_of_aligned {pf : Platform} {c : Core} (h : fetchAligned (flagT c.cpsr) c.nFA = true) :
    fetchAllowed pf c = true := by
  unfold fetchAllowed
  split
  · rfl
  · exact h

theorem fetchAllowed_congr {pf : Platform} {c d : Core} (h : d.cpsr = c.cpsr) (k : d.nFA = c.nFA) :
    fetchAllowed pf d = fetchAllowed pf c := by simp only [fetchAllowed, h, k]

/-! ### Switches that are made -/

theorem legalMode_of_group {p : CoreId} {m : BitVec 5} {g : Group} (h : groupOf p m = some g) : legalMode p m = true := by
  simp [legalMode, h]

theorem group_of_legalMode {p : CoreId} {m : BitVec 5} (h : legalMode p m = true) : ∃ g, groupOf p m = some g :=
  Option.isSome_iff_exists.mp h

/-- Between legal modes a switch is made, under either policy (40_bank_switch.md R120, R130). -/
theorem switchMode_of_legal {policy : MalformedModePolicy} {p : CoreId} {v : Word} {c : Core} {old : BitVec 5}
    (e : modeField c.cpsr = old) (h : legalMode p old = true) (k : legalMode p (modeField v) = true) :
    switchMode policy p v c = .ok (old, bankSwap p (modeField v) c) := by
  subst e
  exact switchMode_of_allowed ((switchAllowed_iff ..).mpr fun _ => ⟨h, k⟩)

theorem groupOf_irq (p : CoreId) : groupOf p 0x12#5 = some (.pair .irq) := by cases p <;> rfl

/-- Only IRQ mode uses the `irq` pair (10_state.md R26). -/
theorem groupOf_ne_irq : ∀ (p : CoreId) (m : BitVec 5), m ≠ 0x12#5 → groupOf p m ≠ some (.pair .irq) := by
  intro p m
  cases p <;> revert m <;> decide

/-! ### An accepted interrupt entry -/

/-- What an accepted entry leaves (60_exceptions.md R243). -/
theorem enterInterrupt_accepted {pf : Platform} {p : CoreId} {m m' : SharedMemory} {c d : Core}
    (h : enterInterrupt pf p m c = .ok (true, d, m')) :
    c.initialised = true ∧ flagI c.cpsr = false ∧ d = prefetched pf p m (irqEntryWrites c (bankSwap p 0x12 c)) ∧
      m' = prefetchedMem pf p m (irqEntryWrites c (bankSwap p 0x12 c)) := by
  obtain ⟨hi, h | h⟩ := enterInterrupt_ok h
  · cases h.2.1
  · exact ⟨hi, h.1, h.2.2.1, h.2.2.2.1⟩

/-- The saved status registers after an accepted entry (60_exceptions.md R245). -/
theorem entry_spsrs (pf : Platform) (p : CoreId) (m : SharedMemory) (c : Core) :
    (prefetched pf p m (irqEntryWrites c (bankSwap p 0x12 c))).spsrs = { c.spsrs with irq := c.cpsr } := by
  simp only [prefetched, Core.fillLatch_spsrs, irqEntryWrites, (bankSwap_outside _ _ _).spsrs]

/-- The link register after an accepted entry (60_exceptions.md R244). -/
theorem entry_link (pf : Platform) (p : CoreId) (m : SharedMemory) (c : Core) :
    (prefetched pf p m (irqEntryWrites c (bankSwap p 0x12 c))).reg 14 = c.pIA + 4 := by
  simp only [prefetched, Core.reg_fillLatch]
  rw [if_neg (by decide)]
  exact Core.reg_setReg_same _ _ _

/-- The registers but R[14] and R[15] after an accepted entry are those of the bank switch. -/
theorem entry_reg (pf : Platform) (p : CoreId) (m : SharedMemory) (c : Core) {j : Fin 16} (h1 : j ≠ 15) (h2 : j ≠ 14) :
    (prefetched pf p m (irqEntryWrites c (bankSwap p 0x12 c))).reg j = (bankSwap p 0x12 c).reg j := by
  simp only [prefetched, Core.reg_fillLatch]
  rw [if_neg h1]
  show ((bankSwap p 0x12 c).setReg 14 _).reg j = _
  rw [Core.reg_setReg, if_neg h2]

/-- The shadow pairs after an accepted entry are those of the bank switch. -/
theorem entry_pair (pf : Platform) (p : CoreId) (m : SharedMemory) (c : Core) (g : PairGroup) :
    (prefetched pf p m (irqEntryWrites c (bankSwap p 0x12 c))).pair g = (bankSwap p 0x12 c).pair g := by cases g <;> rfl

end Sys2Proof.Machine
end

