-- ==== Sys2Proof/Laws/Handler.lean ====
section
/-! SUPPORT. What a handler script can do (43_dispatch.md R211): an induction over scripts, said once, and the invariants
every effect keeps. -/

namespace Sys2Proof.Machine

/-- The components a handler never writes (R211, obligation 4). -/
structure SameInterface (c d : Core) : Prop where
  vectorBase : d.interruptVectorBase = c.interruptVectorBase
  handles : d.coprocessorHandles = c.coprocessorHandles
  memory : d.memoryInterface = c.memoryInterface
  pending : d.irqPending = c.irqPending
  halted : d.debugHalted = c.debugHalted
  initialised : d.initialised = c.initialised

theorem SameInterface.refl (c : Core) : SameInterface c c := ⟨rfl, rfl, rfl, rfl, rfl, rfl⟩

theorem SameInterface.trans {c d e : Core} (h : SameInterface c d) (k : SameInterface d e) : SameInterface c e :=
  ⟨k.1.trans h.1, k.2.trans h.2, k.3.trans h.3, k.4.trans h.4, k.5.trans h.5, k.6.trans h.6⟩

theorem SameOutsideBanks.interface {c d : Core} (h : SameOutsideBanks c d) : SameInterface c d :=
  ⟨h.vectorBase, h.handles, h.memory, h.pending, h.halted, h.initialised⟩

/-- Everything one effect can do to the core and memory, when it does not stop. -/
theorem Action.perform_cases {pf : Platform} {p : CoreId} {a : Action} {r r' : HandlerRun}
    (h : a.perform pf p r = .ok r') :
    (r'.core = r.core ∧ r'.mem = r.mem) ∨
    (∃ k v, r'.core = r.core.setReg k v ∧ r'.mem = r.mem) ∨
    (∃ v, r'.core = { r.core with cpsr := v } ∧ modeField v = modeField r.core.cpsr ∧ r'.mem = r.mem) ∨
    (∃ s v, hasSlot p s = true ∧ r'.core = { r.core with spsrs := r.core.spsrs.set s v } ∧ r'.mem = r.mem) ∨
    (∃ x v, r.core.setShadow p x v = some r'.core ∧ r'.mem = r.mem) ∨
    (∃ v, r'.core = { r.core with nFA := v } ∧ r'.mem = r.mem) ∨
    (∃ v, r'.core = { r.core with pI := v } ∧ r'.mem = r.mem) ∨
    (∃ v, r'.core = { r.core with pIA := v } ∧ r'.mem = r.mem) ∨
    (∃ v old, Machine.switchMode pf.malformedMode p v r.core = .ok (old, r'.core) ∧ r'.mem = r.mem) ∨
    (r'.core = r.core ∧ ∃ x, r'.mem = (r.mem.read pf x).2 ∨ ∃ v, r'.mem = r.mem.write pf x v) ∨
    (r'.core = { r.core with waitingForInterrupt := true } ∧ r'.mem = r.mem) := by
  cases a with
  | setLoc n e =>
    simp only [Action.perform] at h
    split at h <;> cases h
    exact .inl ⟨rfl, rfl⟩
  | setReg n e =>
    simp only [Action.perform] at h
    split at h
    · cases h
    · split at h <;> cases h
      exact .inr (.inl ⟨_, _, rfl, rfl⟩)
  | setCpsr e =>
    simp only [Action.perform] at h
    split at h
    · cases h
    · split at h
      · cases h
      · rename_i c hc
        cases h
        unfold writeCpsr at hc
        split at hc <;> cases hc
        exact .inr (.inr (.inl ⟨_, rfl, ‹_›, rfl⟩))
  | setSpsr e =>
    simp only [Action.perform] at h
    split at h
    · cases h
    · split at h
      · cases h
      · rename_i c hc
        cases h
        unfold writeSpsr at hc
        split at hc
        · rename_i s hs
          cases hc
          exact .inr (.inr (.inr (.inl ⟨_, _, hasSlot_currentSlot hs, rfl, rfl⟩)))
        · cases hc
  | setSpsrOf slot e =>
    simp only [Action.perform] at h
    split at h
    · cases h
    · split at h
      · rename_i hs
        cases h
        exact .inr (.inr (.inr (.inl ⟨_, _, hs, rfl, rfl⟩)))
      · cases h
  | setShadow x e =>
    simp only [Action.perform] at h
    split at h
    · cases h
    · split at h
      · cases h
      · rename_i c hc
        cases h
        exact .inr (.inr (.inr (.inr (.inl ⟨_, _, hc, rfl⟩))))
  | setNextFetch e =>
    simp only [Action.perform] at h
    split at h <;> cases h
    exact .inr (.inr (.inr (.inr (.inr (.inl ⟨_, rfl, rfl⟩)))))
  | setLatchWord e =>
    simp only [Action.perform] at h
    split at h <;> cases h
    exact .inr (.inr (.inr (.inr (.inr (.inr (.inl ⟨_, rfl, rfl⟩))))))
  | setLatchAddr e =>
    simp only [Action.perform] at h
    split at h <;> cases h
    exact .inr (.inr (.inr (.inr (.inr (.inr (.inr (.inl ⟨_, rfl, rfl⟩)))))))
  | switchMode e dst =>
    simp only [Action.perform] at h
    split at h
    · cases h
    · split at h
      · cases h
      · rename_i old c hc
        cases h
        exact .inr (.inr (.inr (.inr (.inr (.inr (.inr (.inr (.inl ⟨_, _, hc, rfl⟩))))))))
  | load w ea dst =>
    simp only [Action.perform] at h
    split at h <;> cases h
    exact .inr (.inr (.inr (.inr (.inr (.inr (.inr (.inr (.inr (.inl ⟨rfl, _, .inl rfl⟩)))))))))
  | store w ea ev =>
    simp only [Action.perform] at h
    split at h
    · cases h
    · split at h <;> cases h
      exact .inr (.inr (.inr (.inr (.inr (.inr (.inr (.inr (.inr (.inl ⟨rfl, _, .inr ⟨_, rfl⟩⟩)))))))))
  | halt =>
    simp only [Action.perform] at h
    cases h
    exact .inr (.inr (.inr (.inr (.inr (.inr (.inr (.inr (.inr (.inr ⟨rfl, rfl⟩)))))))))
  | addCycles e =>
    simp only [Action.perform] at h
    split at h <;> cases h
    exact .inl ⟨rfl, rfl⟩
  | callEngine op => cases h
  | writeProtected f => cases h

/-- An invariant that every effect keeps is kept by a script. -/
theorem Script.run_induct {pf : Platform} {p : CoreId} (P : HandlerRun → Prop)
    (step : ∀ a r r', Action.perform pf p a r = .ok r' → P r → P r') :
    ∀ (b : Script) {r r' : HandlerRun}, b.run pf p r = .ok r' → P r → P r' := by
  intro b
  induction b with
  | done =>
    intro r r' h hp
    cases h
    exact hp
  | act a =>
    intro r r' h hp
    exact step a r r' h hp
  | seq first second ih1 ih2 =>
    intro r r' h hp
    simp only [Script.run] at h
    split at h
    · cases h
    · rename_i r1 h1
      exact ih2 h (ih1 h1 hp)
  | branch c t e iht ihe =>
    intro r r' h hp
    simp only [Script.run] at h
    split at h
    · cases h
    · split at h
      · exact ihe h hp
      · exact iht h hp

theorem Core.setShadow_cases {p : CoreId} {c d : Core} {x : Shadow} {v : Word} (h : c.setShadow p x v = some d) :
    (∃ g b, d = c.setPair g b) ∨ (p.hasFiq = true ∧ ∃ b, d = { c with bankFiq := b }) := by
  cases x with
  | pair g r =>
    simp only [Core.setShadow, Option.some.injEq] at h
    exact .inl ⟨_, _, h.symm⟩
  | fiq r =>
    simp only [Core.setShadow] at h
    split at h
    · rename_i hf
      cases h
      exact .inr ⟨hf, _, rfl⟩
    · cases h

theorem setPair_interface (c : Core) (g : PairGroup) (b : BankPair) : SameInterface c (c.setPair g b) := by
  constructor <;> simp

theorem perform_interface {pf : Platform} {p : CoreId} {a : Action} {r r' : HandlerRun}
    (h : a.perform pf p r = .ok r') : SameInterface r.core r'.core := by
  rcases Action.perform_cases h with h | ⟨k, v, h, -⟩ | ⟨v, h, -⟩ | ⟨s, v, -, h, -⟩ | ⟨x, v, h, -⟩ | ⟨v, h, -⟩ | ⟨v, h, -⟩ |
    ⟨v, h, -⟩ | ⟨v, old, h, -⟩ | ⟨h, -⟩ | ⟨h, -⟩
  · rw [h.1]; exact .refl _
  · rw [h]; exact ⟨rfl, rfl, rfl, rfl, rfl, rfl⟩
  · rw [h]; exact ⟨rfl, rfl, rfl, rfl, rfl, rfl⟩
  · rw [h]; exact ⟨rfl, rfl, rfl, rfl, rfl, rfl⟩
  · rcases Core.setShadow_cases h with ⟨g, b, h⟩ | ⟨-, b, h⟩
    · rw [h]; exact setPair_interface _ _ _
    · rw [h]; exact ⟨rfl, rfl, rfl, rfl, rfl, rfl⟩
  · rw [h]; exact ⟨rfl, rfl, rfl, rfl, rfl, rfl⟩
  · rw [h]; exact ⟨rfl, rfl, rfl, rfl, rfl, rfl⟩
  · rw [h]; exact ⟨rfl, rfl, rfl, rfl, rfl, rfl⟩
  · rw [(switchMode_ok h).2.1]; exact (bankSwap_outside _ _ _).interface
  · rw [h]; exact .refl _
  · rw [h]; exact ⟨rfl, rfl, rfl, rfl, rfl, rfl⟩

/-- A script writes none of the protected components (R211, obligation 4). -/
theorem Script.run_interface {pf : Platform} {p : CoreId} (b : Script) {r r' : HandlerRun} (h : b.run pf p r = .ok r') :
    SameInterface r.core r'.core :=
  Script.run_induct (fun x => SameInterface r.core x.core) (fun _ _ _ ha hp => hp.trans (perform_interface ha)) b h
    (.refl _)

/-- A script keeps memory in canonical form. -/
theorem Script.run_mem_wf {pf : Platform} {p : CoreId} (b : Script) {r r' : HandlerRun} (h : b.run pf p r = .ok r')
    (hm : r.mem.bytes.wf = true) : r'.mem.bytes.wf = true := by
  refine Script.run_induct (fun x => x.mem.bytes.wf = true) ?_ b h hm
  intro a x y ha hx
  rcases Action.perform_cases ha with h | ⟨k, v, -, h⟩ | ⟨v, -, -, h⟩ | ⟨s, v, -, -, h⟩ | ⟨x', v, -, h⟩ | ⟨v, -, h⟩ |
    ⟨v, -, h⟩ | ⟨v, -, h⟩ | ⟨v, old, -, h⟩ | ⟨-, h⟩ | ⟨-, h⟩
  · rw [h.2]; exact hx
  · rw [h]; exact hx
  · rw [h]; exact hx
  · rw [h]; exact hx
  · rw [h]; exact hx
  · rw [h]; exact hx
  · rw [h]; exact hx
  · rw [h]; exact hx
  · rw [h]; exact hx
  · rcases h with ⟨q, h | ⟨v, h⟩⟩
    · rw [h]; exact SharedMemory.read_wf _ _ hx
    · rw [h]; exact SharedMemory.write_wf _ _ _ hx
  · rw [h]; exact hx

/-- A mode changes only through switchMode, so a legal mode stays legal where malformed ones are trapped (R211,
obligation 2; 10_state.md R46). -/
theorem Script.run_legal {pf : Platform} {p : CoreId} (b : Script) {r r' : HandlerRun} (h : b.run pf p r = .ok r')
    (hpol : pf.malformedMode = .fault) (hl : legalMode p (modeField r.core.cpsr) = true) :
    legalMode p (modeField r'.core.cpsr) = true := by
  refine Script.run_induct (fun x => legalMode p (modeField x.core.cpsr) = true) ?_ b h hl
  intro a x y ha hx
  rcases Action.perform_cases ha with h | ⟨k, v, h, -⟩ | ⟨v, h, hm, -⟩ | ⟨s, v, -, h, -⟩ | ⟨x', v, h, -⟩ | ⟨v, h, -⟩ |
    ⟨v, h, -⟩ | ⟨v, h, -⟩ | ⟨v, old, h, -⟩ | ⟨h, -⟩ | ⟨h, -⟩
  · rw [h.1]; exact hx
  · rw [h]; exact hx
  · rw [h, hm]; exact hx
  · rw [h]; exact hx
  · rcases Core.setShadow_cases h with ⟨g, b, h⟩ | ⟨-, b, h⟩
    · rw [h, Core.setPair_cpsr]; exact hx
    · rw [h]; exact hx
  · rw [h]; exact hx
  · rw [h]; exact hx
  · rw [h]; exact hx
  · obtain ⟨-, hd, hleg⟩ := switchMode_ok h
    rw [hd, bankSwap_cpsr, modeField_setModeField]
    exact (hleg hpol).2
  · rw [h]; exact hx
  · rw [h]; exact hx

/-- On a core without a fast-interrupt mode a script leaves that mode's storage alone (40_bank_switch.md R131). -/
theorem Script.run_fiq {pf : Platform} {p : CoreId} (hf : p.hasFiq = false) (b : Script) {r r' : HandlerRun}
    (h : b.run pf p r = .ok r') : r'.core.bankFiq = r.core.bankFiq ∧ r'.core.spsrs.fiq = r.core.spsrs.fiq := by
  refine Script.run_induct
    (fun x => x.core.bankFiq = r.core.bankFiq ∧ x.core.spsrs.fiq = r.core.spsrs.fiq) ?_ b h ⟨rfl, rfl⟩
  intro a x y ha hx
  rcases Action.perform_cases ha with h | ⟨k, v, h, -⟩ | ⟨v, h, -⟩ | ⟨s, v, hs, h, -⟩ | ⟨x', v, h, -⟩ | ⟨v, h, -⟩ |
    ⟨v, h, -⟩ | ⟨v, h, -⟩ | ⟨v, old, h, -⟩ | ⟨h, -⟩ | ⟨h, -⟩
  · rw [h.1]; exact hx
  · rw [h]; exact hx
  · rw [h]; exact hx
  · rw [h]
    refine ⟨hx.1, ?_⟩
    cases s with
    | fiq => exact absurd hs (by simp [hasSlot, hf])
    | svc => exact hx.2
    | abt => exact hx.2
    | und => exact hx.2
    | irq => exact hx.2
  · rcases Core.setShadow_cases h with ⟨g, b, h⟩ | ⟨hf', b, h⟩
    · rw [h, Core.setPair_bankFiq, Core.setPair_spsrs]; exact hx
    · simp [hf] at hf'
  · rw [h]; exact hx
  · rw [h]; exact hx
  · rw [h]; exact hx
  · obtain ⟨-, hd, -⟩ := switchMode_ok h
    rw [hd, bankSwap_bankFiq hf, (bankSwap_outside p _ x.core).spsrs]
    exact hx
  · rw [h]; exact hx
  · rw [h]; exact hx

end Sys2Proof.Machine
end

