-- ==== Sys2Proof/Laws/PerInstr.lean ====
section
/-! SUPPORT. Statements made of every instruction, one lemma per constructor. -/

namespace Sys2Proof.Laws.EncodedFormat

/-- The format of an encoded instruction (30_encoding.md R90, R91, R93, R100): four bytes and the class's own condition
value in bits 31:28 for an A32 class, two bytes and nothing above bit 15 for T16. -/
def Statement (i : Instr) : Prop :=
  (∀ order, (encodeBytes order i).length = if i.compressed then 2 else 4) ∧
    if i.compressed then (encode i).extractLsb' 16 16 = 0#16
    else ∃ c opHi mid opLo low, i = Instr.a32 c opHi mid opLo low ∧ condField (encode i) = fieldOfCond c

/-- The statement of any A32 class. -/
theorem of_a32 (c : Cond) (opHi : BitVec 8) (mid : Nat) (opLo : BitVec 4) (low : Nat) :
    Statement (Instr.a32 c opHi mid opLo low) := by
  refine ⟨fun order => ?_, ?_⟩
  · rw [encodeBytes, compressed_a32]
    cases order <;> rfl
  · rw [compressed_a32]
    exact ⟨c, opHi, mid, opLo, low, rfl, by rw [encode_a32, condField_encodeA32]⟩

theorem a32Eq (opHi : BitVec 8) (mid : Nat) (opLo : BitVec 4) (low : Nat) : Statement (.a32Eq opHi mid opLo low) :=
  of_a32 .eq opHi mid opLo low

theorem a32Ne (opHi : BitVec 8) (mid : Nat) (opLo : BitVec 4) (low : Nat) : Statement (.a32Ne opHi mid opLo low) :=
  of_a32 .ne opHi mid opLo low

theorem a32Cs (opHi : BitVec 8) (mid : Nat) (opLo : BitVec 4) (low : Nat) : Statement (.a32Cs opHi mid opLo low) :=
  of_a32 .cs opHi mid opLo low

theorem a32Cc (opHi : BitVec 8) (mid : Nat) (opLo : BitVec 4) (low : Nat) : Statement (.a32Cc opHi mid opLo low) :=
  of_a32 .cc opHi mid opLo low

theorem a32Mi (opHi : BitVec 8) (mid : Nat) (opLo : BitVec 4) (low : Nat) : Statement (.a32Mi opHi mid opLo low) :=
  of_a32 .mi opHi mid opLo low

theorem a32Pl (opHi : BitVec 8) (mid : Nat) (opLo : BitVec 4) (low : Nat) : Statement (.a32Pl opHi mid opLo low) :=
  of_a32 .pl opHi mid opLo low

theorem a32Vs (opHi : BitVec 8) (mid : Nat) (opLo : BitVec 4) (low : Nat) : Statement (.a32Vs opHi mid opLo low) :=
  of_a32 .vs opHi mid opLo low

theorem a32Vc (opHi : BitVec 8) (mid : Nat) (opLo : BitVec 4) (low : Nat) : Statement (.a32Vc opHi mid opLo low) :=
  of_a32 .vc opHi mid opLo low

theorem a32Hi (opHi : BitVec 8) (mid : Nat) (opLo : BitVec 4) (low : Nat) : Statement (.a32Hi opHi mid opLo low) :=
  of_a32 .hi opHi mid opLo low

theorem a32Ls (opHi : BitVec 8) (mid : Nat) (opLo : BitVec 4) (low : Nat) : Statement (.a32Ls opHi mid opLo low) :=
  of_a32 .ls opHi mid opLo low

theorem a32Ge (opHi : BitVec 8) (mid : Nat) (opLo : BitVec 4) (low : Nat) : Statement (.a32Ge opHi mid opLo low) :=
  of_a32 .ge opHi mid opLo low

theorem a32Lt (opHi : BitVec 8) (mid : Nat) (opLo : BitVec 4) (low : Nat) : Statement (.a32Lt opHi mid opLo low) :=
  of_a32 .lt opHi mid opLo low

theorem a32Gt (opHi : BitVec 8) (mid : Nat) (opLo : BitVec 4) (low : Nat) : Statement (.a32Gt opHi mid opLo low) :=
  of_a32 .gt opHi mid opLo low

theorem a32Le (opHi : BitVec 8) (mid : Nat) (opLo : BitVec 4) (low : Nat) : Statement (.a32Le opHi mid opLo low) :=
  of_a32 .le opHi mid opLo low

theorem a32Al (opHi : BitVec 8) (mid : Nat) (opLo : BitVec 4) (low : Nat) : Statement (.a32Al opHi mid opLo low) :=
  of_a32 .al opHi mid opLo low

theorem a32Nv (opHi : BitVec 8) (mid : Nat) (opLo : BitVec 4) (low : Nat) : Statement (.a32Nv opHi mid opLo low) :=
  of_a32 .nv opHi mid opLo low

theorem t16 (op16 : BitVec 10) (low : Nat) : Statement (.t16 op16 low) :=
  ⟨fun order => by cases order <;> rfl, encodeT16_high op16 low⟩

end Sys2Proof.Laws.EncodedFormat
end

