-- ==== Sys2Proof/Laws/Step.lean ====
section
/-! SUPPORT. What a step of the machine can do, said once: the meaning of every class, a step of a core up to its dispatch,
and the host's calls. Invariants follow from these and never unfold the step. -/

namespace Sys2Proof.Machine

/-! ### Classes -/

theorem exec_a32 (c : Cond) (opHi : BitVec 8) (mid : Nat) (opLo : BitVec 4) (low : Nat) (s : State) :
    exec (Instr.a32 c opHi mid opLo low) s = dispatchA32 c opHi opLo s := by cases c <;> rfl

theorem exec_t16 (op16 : BitVec 10) (low : Nat) (s : State) : exec (.t16 op16 low) s = dispatchT16 op16 s := rfl

/-- Every instruction is of one of the two formats. -/
theorem Instr.format_cases (i : Instr) :
    (∃ c opHi mid opLo low, i = Instr.a32 c opHi mid opLo low) ∨ ∃ op16 low, i = .t16 op16 low := by
  cases i with
  | a32Eq a b c d => exact .inl ⟨.eq, a, b, c, d, rfl⟩
  | a32Ne a b c d => exact .inl ⟨.ne, a, b, c, d, rfl⟩
  | a32Cs a b c d => exact .inl ⟨.cs, a, b, c, d, rfl⟩
  | a32Cc a b c d => exact .inl ⟨.cc, a, b, c, d, rfl⟩
  | a32Mi a b c d => exact .inl ⟨.mi, a, b, c, d, rfl⟩
  | a32Pl a b c d => exact .inl ⟨.pl, a, b, c, d, rfl⟩
  | a32Vs a b c d => exact .inl ⟨.vs, a, b, c, d, rfl⟩
  | a32Vc a b c d => exact .inl ⟨.vc, a, b, c, d, rfl⟩
  | a32Hi a b c d => exact .inl ⟨.hi, a, b, c, d, rfl⟩
  | a32Ls a b c d => exact .inl ⟨.ls, a, b, c, d, rfl⟩
  | a32Ge a b c d => exact .inl ⟨.ge, a, b, c, d, rfl⟩
  | a32Lt a b c d => exact .inl ⟨.lt, a, b, c, d, rfl⟩
  | a32Gt a b c d => exact .inl ⟨.gt, a, b, c, d, rfl⟩
  | a32Le a b c d => exact .inl ⟨.le, a, b, c, d, rfl⟩
  | a32Al a b c d => exact .inl ⟨.al, a, b, c, d, rfl⟩
  | a32Nv a b c d => exact .inl ⟨.nv, a, b, c, d, rfl⟩
  | t16 a b => exact .inr ⟨a, b, rfl⟩

/-! ### Completing a step -/

theorem completeStep_of_allowed {s : State} {c : Core} {m : SharedMemory} {n : Nat}
    (h : fetchAllowed s.platform c = true) :
    completeStep s c m n =
      .next (stepResult s (prefetched s.platform s.current m c) (prefetchedMem s.platform s.current m c)
        (1 + n + prefetchCost s.current c)) := by
  simp [completeStep, prefetch_of_allowed h]

theorem completeStep_next {s t : State} {c : Core} {m : SharedMemory} {n : Nat} (h : completeStep s c m n = .next t) :
    fetchAllowed s.platform c = true ∧
      t = stepResult s (prefetched s.platform s.current m c) (prefetchedMem s.platform s.current m c)
        (1 + n + prefetchCost s.current c) := by
  unfold completeStep at h
  split at h
  · exact absurd h (stopped_ne_next _ _)
  · rename_i d k f hp
    obtain ⟨ha, hd, hk, hf⟩ := prefetch_ok hp
    cases h
    exact ⟨ha, by rw [hd, hk, hf]⟩

theorem afterHandler_next {s t : State} {r : Except Stop HandlerRun} (h : afterHandler s r = .next t) :
    ∃ r', r = .ok r' ∧ completeStep s r'.core r'.mem r'.cycles = .next t := by
  cases r with
  | error e => exact absurd h (stopped_ne_next _ _)
  | ok r' => exact ⟨r', rfl, h⟩

/-- Everything an instruction can do when it ends in a next state: some script has run from the state before dispatch
(the empty one where the instruction was skipped), and the step was completed from what it left. -/
theorem exec_next {i : Instr} {s t : State} (h : exec i s = .next t) :
    ∃ (b : Script) (r : HandlerRun), b.run s.platform s.current (startRun s.cur s.mem) = .ok r ∧
      completeStep s r.core r.mem r.cycles = .next t := by
  rcases Instr.format_cases i with ⟨c, opHi, mid, opLo, low, rfl⟩ | ⟨op16, low, rfl⟩
  · rw [exec_a32, dispatchA32] at h
    split at h
    · obtain ⟨r, hr, ht⟩ := afterHandler_next h
      exact ⟨_, r, hr, ht⟩
    · exact ⟨.done, startRun s.cur s.mem, rfl, h⟩
  · rw [exec_t16, dispatchT16] at h
    obtain ⟨r, hr, ht⟩ := afterHandler_next h
    exact ⟨_, r, hr, ht⟩

/-- The same, with the state spelled out. -/
theorem exec_next_state {i : Instr} {s t : State} (h : exec i s = .next t) :
    ∃ (b : Script) (r : HandlerRun), b.run s.platform s.current (startRun s.cur s.mem) = .ok r ∧
      fetchAllowed s.platform r.core = true ∧
      t = stepResult s (prefetched s.platform s.current r.mem r.core) (prefetchedMem s.platform s.current r.mem r.core)
        (1 + r.cycles + prefetchCost s.current r.core) := by
  obtain ⟨b, r, hr, ht⟩ := exec_next h
  obtain ⟨ha, he⟩ := completeStep_next ht
  exact ⟨b, r, hr, ha, he⟩

/-! ### A step of a core -/

/-- Everything a step of the current core can do when it ends in a next state (43_dispatch.md R200): an idle answer that
changes nothing but the result, or the dispatch of what is latched, after an interrupt entry or without one. -/
theorem stepCore_next {s t : State} (h : stepCore s = .next t) :
    s.cur.initialised = true ∧
      ((∃ n, t = { s with result := .cost n }) ∨
        (s.cur.irqPending = false ∧ exec s.latched s = .next t) ∨
        (∃ b c m, enterInterrupt s.platform s.current s.mem s.cur = .ok (b, c, m) ∧
          exec (s.setCoreAndMem s.current c m).latched (s.setCoreAndMem s.current c m) = .next t)) := by
  unfold stepCore at h
  split at h
  · cases h
  · rename_i hi
    refine ⟨by simpa using hi, ?_⟩
    split at h
    · cases h
      exact .inl ⟨_, rfl⟩
    · split at h
      · cases h
        exact .inl ⟨_, rfl⟩
      · split at h
        · split at h
          · exact absurd h (stopped_ne_next _ _)
          · rename_i b c m he
            exact .inr (.inr ⟨b, c, m, he, h⟩)
        · rename_i hp
          exact .inr (.inl ⟨by simpa using hp, h⟩)

/-- A step with nothing in its way runs the latched instruction. -/
theorem stepCore_runs {s : State} (hi : s.cur.initialised = true)
    (hd : s.platform.debugAttached.get s.current = false ∨ s.cur.debugHalted = false)
    (hw : s.cur.waitingForInterrupt = false) (hp : s.cur.irqPending = false) : stepCore s = exec s.latched s := by
  have hd' : ¬(s.platform.debugAttached.get s.current = true ∧ s.cur.debugHalted = true) := by
    rintro ⟨h1, h2⟩
    rcases hd with h | h <;> simp_all
  simp only [stepCore]
  rw [if_neg (by simp [hi]), if_neg hd', if_neg (by simp [hw]), if_neg (by simp [hp])]
  rfl

/-! ### The host's calls -/

theorem hostFlagInterrupt_next {s t : State} {p : CoreId} (h : hostFlagInterrupt s p = .next t) :
    ∃ b c, flagInterrupt (s.core p) = .ok (b, c) ∧ t = s.returning p c (.accepted b) := by
  unfold hostFlagInterrupt at h
  split at h
  · exact absurd h (stopped_ne_next _ _)
  · rename_i b c hc
    cases h
    exact ⟨b, c, hc, rfl⟩

theorem hostEnterInterrupt_next {s t : State} {p : CoreId} (h : hostEnterInterrupt s p = .next t) :
    ∃ b c m, enterInterrupt s.platform p s.mem (s.core p) = .ok (b, c, m) ∧ t = s.returningWith p c m (.accepted b) := by
  unfold hostEnterInterrupt at h
  split at h
  · exact absurd h (stopped_ne_next _ _)
  · rename_i b c m hc
    cases h
    exact ⟨b, c, m, hc, rfl⟩

theorem hostReset_next {s t : State} {p : CoreId} {a : Word} (h : hostReset s p a = .next t) :
    ∃ c m, resetCore s.platform p s.mem a (s.core p) = .ok (c, m) ∧ t = s.returningWith p c m .nothing := by
  unfold hostReset at h
  split at h
  · exact absurd h (stopped_ne_next _ _)
  · rename_i c m hc
    cases h
    exact ⟨c, m, hc, rfl⟩

theorem debugPort_ok {s : State} {p : CoreId} {c : Core} (h : debugPort s p = .ok c) :
    (s.core p).initialised = true ∧ s.platform.debugAttached.get p = true ∧ c = s.core p := by
  unfold debugPort at h
  split at h
  · cases h
  · rename_i hi
    split at h
    · rename_i ha
      cases h
      exact ⟨by simpa using hi, ha, rfl⟩
    · cases h

theorem debugHalt_next {s t : State} {p : CoreId} {on : Bool} (h : debugHalt s p on = .next t) :
    (s.core p).initialised = true ∧ s.platform.debugAttached.get p = true ∧
      t = s.returning p { s.core p with debugHalted := on } .nothing := by
  unfold debugHalt at h
  split at h
  · exact absurd h (stopped_ne_next _ _)
  · rename_i c hc
    obtain ⟨hi, ha, rfl⟩ := debugPort_ok hc
    cases h
    exact ⟨hi, ha, rfl⟩

theorem debugRead_next {s t : State} {p : CoreId} {f : CoreField} (h : debugRead s p f = .next t) :
    ∃ v, (s.core p).field p f = some v ∧ t = { s with result := .value v } := by
  unfold debugRead at h
  split at h
  · exact absurd h (stopped_ne_next _ _)
  · rename_i c hc
    obtain ⟨-, -, rfl⟩ := debugPort_ok hc
    split at h
    · rename_i v hv
      cases h
      exact ⟨v, hv, rfl⟩
    · cases h

theorem debugWriteField_ok {c d : Core} {f : CoreField} {v : Word} (h : debugWriteField c f v = .ok d) :
    ∃ n : Fin 16, f = .reg n ∧ n.val < 15 ∧ d = c.setReg n v := by
  cases f with
  | reg n =>
    simp only [debugWriteField] at h
    split at h
    · rename_i hn
      cases h
      exact ⟨n, rfl, hn, rfl⟩
    · cases h
  | _ => cases h

theorem debugWrite_next {s t : State} {p : CoreId} {f : CoreField} {v : Word} (h : debugWrite s p f v = .next t) :
    ∃ n : Fin 16, f = .reg n ∧ n.val < 15 ∧ (s.core p).initialised = true ∧
      t = s.returning p ((s.core p).setReg n v) .nothing := by
  unfold debugWrite at h
  split at h
  · exact absurd h (stopped_ne_next _ _)
  · rename_i c hc
    obtain ⟨hi, -, rfl⟩ := debugPort_ok hc
    split at h
    · exact absurd h (stopped_ne_next _ _)
    · rename_i d hd
      obtain ⟨n, rfl, hn, rfl⟩ := debugWriteField_ok hd
      cases h
      exact ⟨n, rfl, hn, hi, rfl⟩

/-- Everything one operation of the machine can do when it ends in a next state: a step of a core, a service of a core, a
debug-port change of one, or a change of memory, or nothing but a result. -/
theorem step_next {s t : State} (h : step s = .next t) :
    (∃ u : State, u.cores = s.cores ∧ u.mem = s.mem ∧ u.platform = s.platform ∧ stepCore u = .next t) ∨
    (∃ p a c m, resetCore s.platform p s.mem a (s.core p) = .ok (c, m) ∧ t.cores = s.cores.set p c ∧ t.mem = m ∧
      t.platform = s.platform) ∨
    (∃ p b c m, ((flagInterrupt (s.core p) = .ok (b, c) ∧ m = s.mem) ∨
        enterInterrupt s.platform p s.mem (s.core p) = .ok (b, c, m)) ∧
      t.cores = s.cores.set p c ∧ t.mem = m ∧ t.platform = s.platform) ∨
    (∃ p c, (s.core p).initialised = true ∧ ((∃ on, s.platform.debugAttached.get p = true ∧
        c = { s.core p with debugHalted := on }) ∨ ∃ (n : Fin 16) (v : Word), n.val < 15 ∧ c = (s.core p).setReg n v) ∧
      t.cores = s.cores.set p c ∧ t.mem = s.mem ∧ t.platform = s.platform) ∨
    (t.cores = s.cores ∧ t.platform = s.platform ∧
      (t.mem = s.mem ∨ ∃ a v, t.mem = { s.mem with bytes := s.mem.bytes.setByte a v })) := by
  unfold step nextOperation at h
  split at h
  · exact .inl ⟨s, rfl, rfl, rfl, h⟩
  · rename_i call rest hc
    cases call with
    | step p => exact .inl ⟨{ s with calls := rest, current := p }, rfl, rfl, rfl, h⟩
    | reset p a =>
      obtain ⟨c, m, hr, rfl⟩ := hostReset_next h
      exact .inr (.inl ⟨p, a, c, m, hr, rfl, rfl, rfl⟩)
    | flagInterrupt p =>
      obtain ⟨b, c, hr, rfl⟩ := hostFlagInterrupt_next h
      exact .inr (.inr (.inl ⟨p, b, c, _, .inl ⟨hr, rfl⟩, rfl, rfl, rfl⟩))
    | enterInterrupt p =>
      obtain ⟨b, c, m, hr, rfl⟩ := hostEnterInterrupt_next h
      exact .inr (.inr (.inl ⟨p, b, c, m, .inr hr, rfl, rfl, rfl⟩))
    | debugHalt p on =>
      obtain ⟨hi, ha, rfl⟩ := debugHalt_next h
      exact .inr (.inr (.inr (.inl ⟨p, _, hi, .inl ⟨on, ha, rfl⟩, rfl, rfl, rfl⟩)))
    | debugRead p f =>
      obtain ⟨v, -, rfl⟩ := debugRead_next h
      exact .inr (.inr (.inr (.inr ⟨rfl, rfl, .inl rfl⟩)))
    | debugWrite p f v =>
      obtain ⟨n, -, hn, hi, rfl⟩ := debugWrite_next h
      exact .inr (.inr (.inr (.inl ⟨p, _, hi, .inr ⟨n, v, hn, rfl⟩, rfl, rfl, rfl⟩)))
    | store a v =>
      cases h
      exact .inr (.inr (.inr (.inr ⟨rfl, rfl, .inr ⟨a, v, rfl⟩⟩)))

/-! ### Outcomes of the classes, by what their handler does -/

@[simp] theorem stepResult_cur (s : State) (c : Core) (m : SharedMemory) (n : Nat) : (stepResult s c m n).cur = c := by
  rw [State.cur_eq_core]
  exact stepResult_core_same s c m n

@[simp] theorem stepResult_core_other (s : State) (c : Core) (m : SharedMemory) (n : Nat) :
    (stepResult s c m n).core s.current.other = s.core s.current.other := by simp [stepResult, State.core]

theorem completeStep_of_not_allowed {s : State} {c : Core} {m : SharedMemory} {n : Nat}
    (h : fetchAllowed s.platform c = false) : completeStep s c m n = .fault .misalignedFetch := by
  simp [completeStep, prefetch_of_not_allowed h]

theorem exec_a32_passed {c : Cond} {opHi : BitVec 8} {mid : Nat} {opLo : BitVec 4} {low : Nat} {s : State}
    (h : passes c s.cur.cpsr = true) :
    exec (Instr.a32 c opHi mid opLo low) s = afterHandler s (runHandler32 s (index32 opHi opLo)) := by
  rw [exec_a32, dispatchA32]
  rw [State.cur_eq_core] at h
  rw [h]

theorem exec_a32_failed {c : Cond} {opHi : BitVec 8} {mid : Nat} {opLo : BitVec 4} {low : Nat} {s : State}
    (h : passes c s.cur.cpsr = false) : exec (Instr.a32 c opHi mid opLo low) s = skipInstr s := by
  rw [exec_a32, dispatchA32]
  rw [State.cur_eq_core] at h
  rw [h]

/-- What a skipped instruction leaves. -/
theorem exec_a32_failed_next {c : Cond} {opHi : BitVec 8} {mid : Nat} {opLo : BitVec 4} {low : Nat} {s t : State}
    (h : passes c s.cur.cpsr = false) (hx : exec (Instr.a32 c opHi mid opLo low) s = .next t) :
    t = stepResult s (prefetched s.platform s.current s.mem s.cur) (prefetchedMem s.platform s.current s.mem s.cur)
      (1 + 0 + prefetchCost s.current s.cur) := by
  rw [exec_a32_failed h] at hx
  exact (completeStep_next hx).2

/-- What an executed A32 instruction leaves. -/
theorem exec_a32_passed_next {c : Cond} {opHi : BitVec 8} {mid : Nat} {opLo : BitVec 4} {low : Nat} {s t : State}
    (h : passes c s.cur.cpsr = true) (hx : exec (Instr.a32 c opHi mid opLo low) s = .next t) :
    ∃ r, runHandler32 s (index32 opHi opLo) = .ok r ∧ fetchAllowed s.platform r.core = true ∧
      t = stepResult s (prefetched s.platform s.current r.mem r.core) (prefetchedMem s.platform s.current r.mem r.core)
        (1 + r.cycles + prefetchCost s.current r.core) := by
  rw [exec_a32_passed h] at hx
  obtain ⟨r, hr, h2⟩ := afterHandler_next hx
  exact ⟨r, hr, completeStep_next h2⟩

/-- What a T16 instruction leaves. -/
theorem exec_t16_next {op16 : BitVec 10} {low : Nat} {s t : State} (hx : exec (.t16 op16 low) s = .next t) :
    ∃ r, runHandler16 s op16 = .ok r ∧ fetchAllowed s.platform r.core = true ∧
      t = stepResult s (prefetched s.platform s.current r.mem r.core) (prefetchedMem s.platform s.current r.mem r.core)
        (1 + r.cycles + prefetchCost s.current r.core) := by
  rw [exec_t16, dispatchT16] at hx
  obtain ⟨r, hr, h2⟩ := afterHandler_next hx
  exact ⟨r, hr, completeStep_next h2⟩

/-! ### Scripts that cannot stop -/

theorem Expr.eval_total (p : CoreId) :
    ∀ (e : Expr) (r : HandlerRun), Safety.exprTotal e = true → ∃ v, e.eval p r = .ok v := by
  intro e
  induction e with
  | const v => exact fun r _ => ⟨_, rfl⟩
  | loc n => exact fun r _ => ⟨_, rfl⟩
  | reg n ih =>
    intro r h
    obtain ⟨v, hv⟩ := ih r h
    simp only [Expr.eval, hv]
    exact ⟨_, rfl⟩
  | spsr =>
    intro r h
    cases h
  | spsrOf slot =>
    intro r h
    have hs : hasSlot p slot = true := hasSlot_of_secondary h
    simp only [Expr.eval, hs, if_true]
    exact ⟨_, rfl⟩
  | shadow x =>
    cases x with
    | pair g k => exact fun r _ => ⟨_, rfl⟩
    | fiq k =>
      intro r h
      cases h
  | bin op a b iha ihb =>
    intro r h
    simp only [Safety.exprTotal, Bool.and_eq_true] at h
    obtain ⟨v, hv⟩ := iha r h.1
    obtain ⟨w, hw⟩ := ihb r h.2
    simp only [Expr.eval, hv, hw]
    exact ⟨_, rfl⟩
  | cond c a b ihc iha ihb =>
    intro r h
    simp only [Safety.exprTotal, Bool.and_eq_true] at h
    obtain ⟨u, hu⟩ := ihc r h.1.1
    obtain ⟨v, hv⟩ := iha r h.1.2
    obtain ⟨w, hw⟩ := ihb r h.2
    simp only [Expr.eval, hu, hv, hw]
    split <;> exact ⟨_, rfl⟩
  | _ => exact fun r _ => ⟨_, rfl⟩

/-- A plain effect completes, and leaves the status word and nFA alone. -/
theorem Action.perform_plain (pf : Platform) (p : CoreId) (a : Action) (r : HandlerRun)
    (h : Safety.actionPlain a = true) :
    ∃ r', a.perform pf p r = .ok r' ∧ r'.core.cpsr = r.core.cpsr ∧ r'.core.nFA = r.core.nFA := by
  cases a with
  | setLoc n v =>
    obtain ⟨v, hv⟩ := Expr.eval_total p _ r h
    simp only [Action.perform, hv]
    exact ⟨_, rfl, rfl, rfl⟩
  | setReg n v =>
    simp only [Safety.actionPlain, Bool.and_eq_true] at h
    obtain ⟨v, hv⟩ := Expr.eval_total p _ r h.1
    obtain ⟨w, hw⟩ := Expr.eval_total p _ r h.2
    simp only [Action.perform, hv, hw]
    exact ⟨_, rfl, rfl, rfl⟩
  | setShadow x v =>
    cases x with
    | pair g k =>
      obtain ⟨v, hv⟩ := Expr.eval_total p _ r h
      simp only [Action.perform, hv]
      exact ⟨_, rfl, by simp, by simp⟩
    | fiq k => cases h
  | setSpsrOf slot v =>
    simp only [Safety.actionPlain, Bool.and_eq_true] at h
    have hs : hasSlot p slot = true := hasSlot_of_secondary h.1
    obtain ⟨v, hv⟩ := Expr.eval_total p _ r h.2
    simp only [Action.perform, hv, hs, if_true]
    exact ⟨_, rfl, rfl, rfl⟩
  | setLatchWord v =>
    obtain ⟨v, hv⟩ := Expr.eval_total p _ r h
    simp only [Action.perform, hv]
    exact ⟨_, rfl, rfl, rfl⟩
  | setLatchAddr v =>
    obtain ⟨v, hv⟩ := Expr.eval_total p _ r h
    simp only [Action.perform, hv]
    exact ⟨_, rfl, rfl, rfl⟩
  | addCycles v =>
    obtain ⟨v, hv⟩ := Expr.eval_total p _ r h
    simp only [Action.perform, hv]
    exact ⟨_, rfl, rfl, rfl⟩
  | load w a dst =>
    obtain ⟨v, hv⟩ := Expr.eval_total p _ r h
    simp only [Action.perform, hv]
    exact ⟨_, rfl, rfl, rfl⟩
  | store w a v =>
    simp only [Safety.actionPlain, Bool.and_eq_true] at h
    obtain ⟨v, hv⟩ := Expr.eval_total p _ r h.1
    obtain ⟨w, hw⟩ := Expr.eval_total p _ r h.2
    simp only [Action.perform, hv, hw]
    exact ⟨_, rfl, rfl, rfl⟩
  | halt => exact ⟨_, rfl, rfl, rfl⟩
  | setCpsr v => cases h
  | setSpsr v => cases h
  | setNextFetch v => cases h
  | switchMode v d => cases h
  | callEngine v => cases h
  | writeProtected v => cases h

/-- A plain script runs to its end, and leaves the status word and nFA alone (43_dispatch.md R212). -/
theorem Script.run_plain (pf : Platform) (p : CoreId) : ∀ (b : Script) (r : HandlerRun), Safety.scriptPlain b = true →
    ∃ r', b.run pf p r = .ok r' ∧ r'.core.cpsr = r.core.cpsr ∧ r'.core.nFA = r.core.nFA := by
  intro b
  induction b with
  | done => exact fun r _ => ⟨r, rfl, rfl, rfl⟩
  | act a => exact fun r h => Action.perform_plain pf p a r h
  | seq x y ihx ihy =>
    intro r h
    simp only [Safety.scriptPlain, Bool.and_eq_true] at h
    obtain ⟨r1, h1, h2, h3⟩ := ihx r h.1
    obtain ⟨r2, k1, k2, k3⟩ := ihy r1 h.2
    exact ⟨r2, by rw [Script.run, h1]; exact k1, k2.trans h2, k3.trans h3⟩
  | branch c x y ihx ihy =>
    intro r h
    simp only [Safety.scriptPlain, Bool.and_eq_true] at h
    obtain ⟨u, hu⟩ := Expr.eval_total p _ r h.1.1
    simp only [Script.run, hu]
    split
    · exact ihy r h.2
    · exact ihx r h.1.2

/-! ### A condition on each core, kept by every operation -/

/-- What one instruction must keep of a condition on cores. -/
theorem exec_each {i : Instr} {s t : State} {P : CoreId → Core → Prop} (h : exec i s = .next t)
    (hs : Safety.EachCore s P)
    (hp : ∀ b r, Script.run s.platform s.current b (startRun s.cur s.mem) = .ok r →
      (s.cur.initialised = true → P s.current s.cur) → r.core.initialised = true →
        P s.current (prefetched s.platform s.current r.mem r.core)) : Safety.EachCore t P := by
  obtain ⟨b, r, hr, ha, rfl⟩ := exec_next_state h
  intro q hq
  rcases CoreId.eq_or_other s.current q with rfl | rfl
  · rw [stepResult_core_same] at hq ⊢
    exact hp b r hr (hs s.current) hq
  · rw [stepResult_core_other] at hq ⊢
    exact hs _ hq

theorem core_of_cores_set {s t : State} {p : CoreId} {c : Core} (h : t.cores = s.cores.set p c) (q : CoreId) :
    t.core q = if q = p then c else s.core q := by simp only [State.core, h, PerCore_get_set]

/-- A condition on cores is kept by every operation of the machine where it is kept by each service alone. -/
theorem step_each {s t : State} {P : CoreId → Core → Prop} (h : step s = .next t) (hs : Safety.EachCore s P)
    (hrun : ∀ u : State, u.platform = s.platform → ∀ b r,
      Script.run u.platform u.current b (startRun u.cur u.mem) = .ok r →
      (u.cur.initialised = true → P u.current u.cur) → r.core.initialised = true →
        P u.current (prefetched u.platform u.current r.mem r.core))
    (hreset : ∀ p a c m, resetCore s.platform p s.mem a (s.core p) = .ok (c, m) → P p c)
    (hirq : ∀ p b m m' c d, enterInterrupt s.platform p m c = .ok (b, d, m') → P p c → P p d)
    (hflag : ∀ p b c d, flagInterrupt c = .ok (b, d) → P p c → P p d)
    (hhalt : ∀ p c on, P p c → P p { c with debugHalted := on })
    (hreg : ∀ p c (n : Fin 16) v, n.val < 15 → P p c → P p (c.setReg n v)) : Safety.EachCore t P := by
  have same : ∀ {u : State}, u.cores = s.cores → Safety.EachCore u P := by
    intro u hu q hq
    have e : u.core q = s.core q := by simp only [State.core, hu]
    rw [e] at hq ⊢
    exact hs q hq
  have changed : ∀ {p c}, t.cores = s.cores.set p c → P p c → Safety.EachCore t P := by
    intro p c hc hp q hq
    rw [core_of_cores_set hc] at hq ⊢
    split
    · rename_i e
      subst e
      exact hp
    · rename_i e
      rw [if_neg e] at hq
      exact hs q hq
  rcases step_next h with ⟨u, hc, -, hpf, hu⟩ | ⟨p, a, c, m, hr, hc, -, -⟩ |
    ⟨p, b, c, m, hr, hc, -, -⟩ | ⟨p, c, hi, hr, hc, -, -⟩ | ⟨hc, -, -⟩
  · have hsu := same hc
    obtain ⟨hi, ⟨n, rfl⟩ | ⟨-, h⟩ | ⟨b, c, m, he, h⟩⟩ := stepCore_next hu
    · exact hsu
    · exact exec_each h hsu (hrun u hpf)
    · refine exec_each h ?_ (hrun (u.setCoreAndMem u.current c m) hpf)
      intro q hq
      rw [State.setCoreAndMem_core] at hq ⊢
      by_cases e : q = u.current
      · subst e
        rw [if_pos rfl]
        exact hirq _ _ _ _ _ _ (by rw [← hpf]; exact he) (hsu _ hi)
      · rw [if_neg e] at hq ⊢
        exact hsu q hq
  · exact changed hc (hreset _ _ _ _ hr)
  · rcases hr with ⟨hr, -⟩ | hr
    · exact changed hc (hflag _ _ _ _ hr (hs p (flagInterrupt_ok hr).1))
    · exact changed hc (hirq _ _ _ _ _ _ hr (hs p (enterInterrupt_ok hr).1))
  · rcases hr with ⟨on, -, rfl⟩ | ⟨n, v, hn, rfl⟩
    · exact changed hc (hhalt _ _ _ (hs p hi))
    · exact changed hc (hreg _ _ _ _ hn (hs p hi))
  · exact same hc

/-- No operation writes what the platform fixed (70_reset_and_hazards.md R291). -/
theorem step_platform {s t : State} (h : step s = .next t) : t.platform = s.platform := by
  rcases step_next h with ⟨u, -, -, hpf, hu⟩ | ⟨p, a, c, m, -, -, -, h⟩ |
    ⟨p, b, c, m, -, -, -, h⟩ | ⟨p, c, -, -, -, -, h⟩ | ⟨-, h, -⟩
  · obtain ⟨-, ⟨n, rfl⟩ | ⟨-, h⟩ | ⟨b, c, m, -, h⟩⟩ := stepCore_next hu
    · exact hpf
    · obtain ⟨b, r, -, -, rfl⟩ := exec_next_state h
      exact hpf
    · obtain ⟨b, r, -, -, rfl⟩ := exec_next_state h
      exact hpf
  all_goals exact h

/-! ### The placed instruction is the one the next step runs -/

theorem withFetchWord_runs (s : State) (nbits w : Nat) :
    step (s.withFetchWord nbits w) =
      exec (decodeLatch (decide (nbits ≤ 16)) (s.withFetchWord nbits w).cur.pI) (s.withFetchWord nbits w) := by
  have hcur : (s.withFetchWord nbits w).cur.initialised = true ∧ (s.withFetchWord nbits w).cur.debugHalted = false ∧
      (s.withFetchWord nbits w).cur.waitingForInterrupt = false ∧ (s.withFetchWord nbits w).cur.irqPending = false ∧
      flagT (s.withFetchWord nbits w).cur.cpsr = decide (nbits ≤ 16) := by
    simp [State.withFetchWord, placeInstr, State.cur, State.core]
  obtain ⟨h1, h2, h3, h4, h5⟩ := hcur
  have hc : (s.withFetchWord nbits w).calls = [] := rfl
  simp only [step, nextOperation, hc]
  rw [stepCore_runs h1 (.inr h2) h3 h4, State.latched, h5]

end Sys2Proof.Machine
end

