-- ==== Sys2Proof/Tests/Slice0.lean ====
section
/-! SUPPORT. Tests and witnesses. Expected values come from the spec: words are written out from the formats of
30_encoding.md, results from the vectors of 95_test_vectors.md (their id stands in the comment). A witness is a concrete
state and operands that meet every hypothesis of the statement it is named after. -/

namespace Sys2Proof.Tests

open Sys2Proof Sys2Proof.Machine Sys2Proof.Safety

/-! ### WellFormed refuses ill-formed terms (30_encoding.md R91, R93) -/

theorem test_illFormed_mid : (Instr.a32Eq 0x3A 4096 0x0 0x2).wellFormed = false := by decide
theorem test_illFormed_low : (Instr.a32Nv 0x3A 4095 0x0 16).wellFormed = false := by decide
theorem test_illFormed_low16 : (Instr.t16 0x084 64).wellFormed = false := by decide
theorem test_wellFormed_largest : (Instr.a32Al 0xFF 4095 0xF 15).wellFormed = true ∧ (Instr.t16 0x3FF 63).wellFormed = true := by
  decide

/-! ### Decoding: cond 31:28, op_hi 27:20 = 0x3A, bits 19:8 = 0x010, op_lo 7:4 = 0, bits 3:0 = 2 (R91); op16 15:6 (R93) -/

theorem test_decode_a32Eq : decodeTableWord 32 0x03A01002 = some (.a32Eq 0x3A 0x010 0x0 0x2) := by decide
theorem test_decode_a32Ne : decodeTableWord 32 0x13A01002 = some (.a32Ne 0x3A 0x010 0x0 0x2) := by decide
theorem test_decode_a32Cs : decodeTableWord 32 0x23A01002 = some (.a32Cs 0x3A 0x010 0x0 0x2) := by decide
theorem test_decode_a32Cc : decodeTableWord 32 0x33A01002 = some (.a32Cc 0x3A 0x010 0x0 0x2) := by decide
theorem test_decode_a32Mi : decodeTableWord 32 0x43A01002 = some (.a32Mi 0x3A 0x010 0x0 0x2) := by decide
theorem test_decode_a32Pl : decodeTableWord 32 0x53A01002 = some (.a32Pl 0x3A 0x010 0x0 0x2) := by decide
theorem test_decode_a32Vs : decodeTableWord 32 0x63A01002 = some (.a32Vs 0x3A 0x010 0x0 0x2) := by decide
theorem test_decode_a32Vc : decodeTableWord 32 0x73A01002 = some (.a32Vc 0x3A 0x010 0x0 0x2) := by decide
theorem test_decode_a32Hi : decodeTableWord 32 0x83A01002 = some (.a32Hi 0x3A 0x010 0x0 0x2) := by decide
theorem test_decode_a32Ls : decodeTableWord 32 0x93A01002 = some (.a32Ls 0x3A 0x010 0x0 0x2) := by decide
theorem test_decode_a32Ge : decodeTableWord 32 0xA3A01002 = some (.a32Ge 0x3A 0x010 0x0 0x2) := by decide
theorem test_decode_a32Lt : decodeTableWord 32 0xB3A01002 = some (.a32Lt 0x3A 0x010 0x0 0x2) := by decide
theorem test_decode_a32Gt : decodeTableWord 32 0xC3A01002 = some (.a32Gt 0x3A 0x010 0x0 0x2) := by decide
theorem test_decode_a32Le : decodeTableWord 32 0xD3A01002 = some (.a32Le 0x3A 0x010 0x0 0x2) := by decide
theorem test_decode_a32Al : decodeTableWord 32 0xE3A01002 = some (.a32Al 0x3A 0x010 0x0 0x2) := by decide
theorem test_decode_a32Nv : decodeTableWord 32 0xF3A01002 = some (.a32Nv 0x3A 0x010 0x0 0x2) := by decide
theorem test_decode_t16 : decodeTableWord 16 0x2105 = some (.t16 0x084 0x05) := by decide
-- 95_test_vectors.md section 2.1
theorem test_decode_index_bits : decodeTableWord 32 0xE25EF004 = some (.a32Al 0x25 0xEF0 0x0 0x4) ∧
    decodeTableWord 32 0xEE070F90 = some (.a32Al 0xE0 0x70F 0x9 0x0) ∧
    decodeTableWord 16 0xFFFF = some (.t16 0x3FF 0x3F) := by decide
theorem test_index32 : index32 0x3A 0x2 = 0x3A2 ∧ index32 0xE0 0x9 = 0xE09 ∧ index32 0x25 0x0 = 0x250 := by decide
theorem test_decode_big_endian : decode false .big [0xE3, 0xA0, 0x10, 0x02, 0x55] = .ok (.a32Al 0x3A 0x010 0x0 0x2, [0x55]) := by
  rfl
theorem test_decode_truncated : decode false .little [0x02, 0x10, 0xA0] = .error (.truncated 4 3) ∧
    decode true .little [0x05] = .error (.truncated 2 1) := ⟨rfl, rfl⟩

/-! ### The handlers of 95_test_vectors.md section 3, as scripts -/

/-- MOV Rd, #imm: Rd is bits 15:12, imm bits 7:0. -/
def movScript : Script :=
  .act (.setReg (.bin .lshr .latchWord (.const 12)) (.bin .and .latchWord (.const 0xFF)))

/-- Thumb MOV Rd, #imm8, without its flags: Rd is bits 10:8. -/
def movThumbScript : Script :=
  .act (.setReg (.bin .and (.bin .lshr .latchWord (.const 8)) (.const 7)) (.bin .and .latchWord (.const 0xFF)))

/-- B: nFA <- R[15] + sext(imm24) * 4. -/
def branchScript : Script :=
  .act (.setNextFetch (.bin .add (.reg (.const 15)) (.bin .ashr (.bin .shl .latchWord (.const 8)) (.const 6))))

/-- BX Rm: T <- R[m][0], nFA <- R[m] & ~1. -/
def bxScript : Script :=
  .seq (.act (.setCpsr (.bin .or (.bin .and .cpsr (.const 0xFFFFFFDF))
      (.bin .shl (.bin .and (.reg .latchWord) (.const 1)) (.const 5)))))
    (.act (.setNextFetch (.bin .and (.reg .latchWord) (.const 0xFFFFFFFE))))

/-- MSR CPSR_c, #imm. -/
def msrScript : Script :=
  writeStatusScript (.bin .or (.bin .and .cpsr (.const 0xFFFFFF00)) (.bin .and .latchWord (.const 0xFF)))

/-- SUBS PC, LR, #4. -/
def returnScript : Script := exceptionReturnScript (.bin .sub (.reg (.const 14)) (.const 4))

def testTable32 : DispatchTable 12 where
  assigned := [(0x3A0, .scripted movScript), (0xA00, .scripted branchScript), (0xAFF, .scripted branchScript),
    (0x121, .scripted bxScript), (0x250, .scripted returnScript), (0x32D, .scripted msrScript),
    (0x591, .scripted (.seq (.act (.load .half (.reg (.const 1)) 0)) (.act (.setReg (.const 0) (.loc 0))))),
    (0x444, .scripted (.act (.setShadow (.fiq .r8) (.const 1)))), (0x334, .scripted (.act (.setNextFetch (.const 0x80)))),
    (0xE09, .scripted (.act .halt)), (0x111, .scripted (.act (.writeProtected .irqPending))), (0x222, .external),
    (0x333, .scripted (.seq (.act (.setCpsr (.const 0x3F))) (.act (.setNextFetch (.const 0x80)))))]
  unassigned := .scripted .done

def testTable16 : DispatchTable 10 where
  assigned := [(0x084, .scripted movThumbScript), (0x001, .scripted (.act .halt)), (0x002, .scripted (.act (.callEngine .prefetch))),
    (0x004, .scripted (.act (.setNextFetch (.const 0x100)))),
    (0x003, .scripted (.seq (.act (.setCpsr (.const 0x1F))) (.act (.setNextFetch (.const 0x100)))))]
  unassigned := .scripted .done

def testPlatform : Platform :=
  { Platform.suggested with
    handler32 := { primary := testTable32, secondary := testTable32 }
    handler16 := { primary := testTable16, secondary := testTable16 } }

/-- A core about to run `pI` at `pIA`, in the format the status word selects. -/
def testCore (p : CoreId) (cpsr pI pIA : Word) : Core :=
  ({ Core.afterReset p (Platform.suggested.vectorBase.get p) with cpsr := cpsr, nFA := pIA } : Core).fillLatch pI
    (instrWidth (flagT cpsr))

/-- Both cores about to run `pI` at `pIA`, core 0 current. -/
def testState (cpsr pI pIA : Word) : State :=
  { State.reset with
    cores := { primary := testCore .primary cpsr pI pIA, secondary := testCore .secondary cpsr pI pIA }
    platform := testPlatform }

/-- Whether an operation ends in a next state of which something holds. -/
def nextIs (o : Host.Outcome State Fault Refusal) (f : State → Bool) : Bool :=
  match o with
  | .next t => f t
  | .fault _ => false
  | .refused _ => false

/-- Whether an operation ends in a fault. -/
def faultIs (o : Host.Outcome State Fault Refusal) (e : Fault) : Bool :=
  match o with
  | .fault f => f == e
  | .next _ => false
  | .refused _ => false

/-- A step that ran MOV r1, #2 at 0 and moved on. -/
def ranMov (s : State) : Bool :=
  nextIs (step s) fun t => t.cur.reg 1 == 2 && t.cur.pIA == 4 && t.cur.nFA == 8 && t.cur.reg 15 == 0xC

/-- A step that skipped the instruction at 0 and moved on. -/
def skipped (s : State) : Bool :=
  nextIs (step s) fun t => t.cur.reg 1 == 0 && t.cur.pIA == 4 && t.cur.nFA == 8 && t.cur.reg 15 == 0xC

/-! ### Every A32 class runs and is skipped by its condition (42_condition.md R171 to R186; L2-S04, L2-S05, L2-S06) -/

theorem test_run_a32Eq : ranMov (testState 0x4000001F 0x03A01002 0) = true := by decide
theorem test_skip_a32Eq : skipped (testState 0xB000001F 0x03A01002 0) = true := by decide
theorem test_run_a32Ne : ranMov (testState 0xB000001F 0x13A01002 0) = true := by decide
theorem test_skip_a32Ne : skipped (testState 0x4000001F 0x13A01002 0) = true := by decide
theorem test_run_a32Cs : ranMov (testState 0x2000001F 0x23A01002 0) = true := by decide
theorem test_skip_a32Cs : skipped (testState 0xD000001F 0x23A01002 0) = true := by decide
theorem test_run_a32Cc : ranMov (testState 0xD000001F 0x33A01002 0) = true := by decide
theorem test_skip_a32Cc : skipped (testState 0x2000001F 0x33A01002 0) = true := by decide
theorem test_run_a32Mi : ranMov (testState 0x8000001F 0x43A01002 0) = true := by decide
theorem test_skip_a32Mi : skipped (testState 0x7000001F 0x43A01002 0) = true := by decide
theorem test_run_a32Pl : ranMov (testState 0x7000001F 0x53A01002 0) = true := by decide
theorem test_skip_a32Pl : skipped (testState 0x8000001F 0x53A01002 0) = true := by decide
theorem test_run_a32Vs : ranMov (testState 0x1000001F 0x63A01002 0) = true := by decide
theorem test_skip_a32Vs : skipped (testState 0xE000001F 0x63A01002 0) = true := by decide
theorem test_run_a32Vc : ranMov (testState 0xE000001F 0x73A01002 0) = true := by decide
theorem test_skip_a32Vc : skipped (testState 0x1000001F 0x73A01002 0) = true := by decide
theorem test_run_a32Hi : ranMov (testState 0x2000001F 0x83A01002 0) = true := by decide
theorem test_skip_a32Hi : skipped (testState 0x6000001F 0x83A01002 0) = true := by decide
theorem test_run_a32Ls : ranMov (testState 0x6000001F 0x93A01002 0) = true := by decide
theorem test_skip_a32Ls : skipped (testState 0x2000001F 0x93A01002 0) = true := by decide
theorem test_run_a32Ge : ranMov (testState 0x9000001F 0xA3A01002 0) = true := by decide
theorem test_skip_a32Ge : skipped (testState 0x8000001F 0xA3A01002 0) = true := by decide
theorem test_run_a32Lt : ranMov (testState 0x8000001F 0xB3A01002 0) = true := by decide
theorem test_skip_a32Lt : skipped (testState 0x9000001F 0xB3A01002 0) = true := by decide
theorem test_run_a32Gt : ranMov (testState 0x9000001F 0xC3A01002 0) = true := by decide
theorem test_skip_a32Gt : skipped (testState 0xD000001F 0xC3A01002 0) = true := by decide
theorem test_run_a32Le : ranMov (testState 0xD000001F 0xD3A01002 0) = true := by decide
theorem test_skip_a32Le : skipped (testState 0x9000001F 0xD3A01002 0) = true := by decide
theorem test_run_a32Al : ranMov (testState 0xF000001F 0xE3A01002 0) = true := by decide
theorem test_skip_a32Nv : skipped (testState 0xF000001F 0xF3A01002 0) = true := by decide
-- L2-S07
theorem test_run_t16 : nextIs (step (testState 0x3F 0x2105 0x20)) (fun t =>
    t.cur.reg 1 == 5 && t.cur.pIA == 0x22 && t.cur.nFA == 0x24 && t.cur.reg 15 == 0x26) = true := by decide

/-! ### Steps (95_test_vectors.md section 2.5 and programs P1 to P5) -/

/-- The word 0xE25EF004 (SUBS PC, LR, #4) at the IRQ vector of core 0. -/
def vectorMemory : SharedMemory := { bytes := Memory.store [] .little .word 0xFFFF0018 0xE25EF004, asked := 0 }

/-- A memory with nothing in it. -/
def noMemory : SharedMemory := { bytes := [], asked := 0 }

def pending (s : State) : State := s.setCore .primary { s.core .primary with irqPending := true }
def halted (s : State) : State := s.setCore .primary { s.core .primary with waitingForInterrupt := true }
def attached (s : State) : State :=
  { s with platform := { s.platform with debugAttached := { primary := true, secondary := true } } }
def debugStopped (s : State) : State :=
  attached (s.setCore .primary { s.core .primary with debugHalted := true })
/-- The same machine on an oracle of a memory collaborator. -/
def onOracle (s : State) : State := { s with platform := { s.platform with collaborator := .oracle } }
def neverReset (s : State) : State := s.setCore .primary { s.core .primary with initialised := false }
def queued (s : State) (calls : List HostCall) : State := { s with calls := calls }

-- P2, step 2: B 0x10 at 4
theorem test_branch_forward : nextIs (step (testState 0x1F 0xEA000001 4)) (fun t =>
    t.cur.pIA == 0x10 && t.cur.nFA == 0x14 && t.cur.reg 15 == 0x18) = true := by decide
-- P3, step 5: B 0x08 at 8
theorem test_branch_self : nextIs (step (testState 0x1F 0xEAFFFFFE 8)) (fun t =>
    t.cur.pIA == 8 && t.cur.nFA == 0xC && t.cur.reg 15 == 0x10) = true := by decide
-- P2, step 3: BX r0 with R[0] = 0x21
theorem test_enter_compressed : nextIs (step ((testState 0x1F 0xE12FFF10 0x10).setCore .primary
    ((testCore .primary 0x1F 0xE12FFF10 0x10).setReg 0 0x21))) (fun t =>
    t.cur.cpsr == 0x3F && t.cur.pIA == 0x20 && t.cur.nFA == 0x22 && t.cur.reg 15 == 0x24) = true := by decide
-- P4, step 2: MSR CPSR_c, #0xD1 with R[8] = 5
theorem test_enter_fiq : nextIs (step ((testState 0x1F 0xE321F0D1 4).setCore .primary
    ((testCore .primary 0x1F 0xE321F0D1 4).setReg 8 5))) (fun t =>
    t.cur.cpsr == 0xD1 && t.cur.reg 8 == 0 && t.cur.bankFiq.r8 == 5 && t.cur.pIA == 8) = true := by decide
-- P3, step 3 and L2-S11: entry and return in one step
theorem test_interrupt_and_return : nextIs (step { pending (testState 0x1F 0xE3A02003 4) with mem := vectorMemory })
    (fun t => t.cur.cpsr == 0x1F && t.cur.pIA == 4 && t.cur.nFA == 8 && t.cur.reg 15 == 0xC && t.cur.reg 14 == 0 &&
      t.cur.bankIrq.r14 == 8 && t.cur.spsrs.irq == 0x1F && t.cur.irqPending == false) = true := by decide
-- L2-S12
theorem test_masked_request_stays : nextIs (step (pending (testState 0x9F 0xE3A01002 0))) (fun t =>
    t.cur.irqPending && t.cur.reg 1 == 2 && t.cur.cpsr == 0x9F) = true := by decide
-- L2-S13
theorem test_notification : nextIs (step (attached (testState 0x1F 0x03A01002 8))) (fun t =>
    t.notifications == [⟨.primary, 8, false⟩]) = true := by decide
-- L2-S14 and P5, step 1
theorem test_halt : nextIs (step (testState 0x1F 0xEE070F90 0)) (fun t => t.cur.waitingForInterrupt && t.cur.pIA == 4) =
    true := by decide
-- L2-S01
theorem test_never_reset : faultIs (step (neverReset (testState 0x1F 0xE3A01002 0))) .notReset = true := by decide
-- L2-S02, L2-S03
theorem test_debug_halt_and_idle :
    step (debugStopped (pending (testState 0x1F 0xE3A01002 0))) =
      .next { debugStopped (pending (testState 0x1F 0xE3A01002 0)) with result := .cost Config.debugHaltCost } ∧
    step (halted (testState 0x1F 0xE3A01002 0)) =
      .next { halted (testState 0x1F 0xE3A01002 0) with result := .cost Config.idleCost } := ⟨rfl, rfl⟩
-- 43_dispatch.md R211, obligation 4
theorem test_contract : faultIs (step (testState 0x1F 0xE1100010 0)) .handlerContract = true := by decide
-- 20_memory.md R67 and R74: whatever an oracle answers, a step that skips its instruction asks it once
theorem test_oracle_fetch : nextIs (step (onOracle (testState 0x1F 0x03A01002 0))) (fun t =>
    t.cur.pIA == 4 && t.cur.nFA == 8 && t.mem.asked == 1 && t.cur.reg 1 == 0) = true := by decide
-- 20_memory.md R70: a handler's load of what is stored at R[1], little-endian
theorem test_load : nextIs (step { (testState 0x1F 0xE5910010 0).setCore .primary
    ((testCore .primary 0x1F 0xE5910010 0).setReg 1 0x102) with
      mem := { bytes := [(0x102, 0x34), (0x103, 0x92)], asked := 0 } }) (fun t =>
    t.cur.reg 0 == 0x9234 && t.mem.asked == 0) = true := by decide
-- L2-P05: an A32 step that leaves nFA at 2
theorem test_misaligned : faultIs (step (testState 0x1F 0x03A01002 0xFFFFFFFE)) .misalignedFetch = true := by decide

/-! ### The bank switch (95_test_vectors.md section 2.3) -/

/-- The core a switch of core `p` leaves. -/
def switched (policy : MalformedModePolicy) (p : CoreId) (m : Word) (c : Core) : Option Core :=
  match switchMode policy p m c with
  | .ok (_, d) => some d
  | .error _ => none

/-- Core 0 in SYSTEM mode with distinct values in every banked register. -/
def bankedCore (cpsr : Word) : Core :=
  { (((((((testCore .primary cpsr 0 0).setReg 8 1).setReg 9 2).setReg 10 3).setReg 11 4).setReg 12 5).setReg 13 0x100).setReg
      14 0x200 with
    bankIrq := ⟨0x300, 0x400⟩
    bankFiq := ⟨0x81, 0x82, 0x83, 0x84, 0x85, 0xF13, 0xF14⟩ }

-- L2-B01
theorem test_switch_irq : (switched .fault .primary 0x12 (bankedCore 0x1F)).map (fun d =>
    (d.reg 13, d.reg 14, d.bankUsr, modeField d.cpsr)) = some (0x300, 0x400, ⟨0x100, 0x200⟩, 0x12) := by decide
-- L2-B04
theorem test_switch_fiq : (switched .fault .primary 0x11 (bankedCore 0x1F)).map (fun d =>
    (d.reg 8, d.reg 12, d.reg 13, d.reg 14, d.bankUsr, d.bankFiq)) =
      some (0x81, 0x85, 0xF13, 0xF14, ⟨0x100, 0x200⟩, ⟨1, 2, 3, 4, 5, 0xF13, 0xF14⟩) := by decide
-- L2-B12
theorem test_switch_fiq_to_itself : (switched .fault .primary 0x11 (bankedCore 0x11)).map (fun d =>
    (d.reg 8, d.reg 13, d.bankFiq.r8, d.bankFiq.r13)) = some (1, 0x100, 0x81, 0x100) := by decide
-- L2-B07
theorem test_switch_keeps_status : (switched .fault .primary 0x13 (bankedCore 0xF00000DF)).map (fun d => d.cpsr) =
    some 0xF00000D3 := by decide
-- L2-B08, L2-B11
theorem test_switch_malformed : switched .fault .primary 0x00 (bankedCore 0x1F) = none ∧
    switched .fault .secondary 0x11 (testCore .secondary 0x1F 0 0) = none := ⟨rfl, rfl⟩
-- L2-B09
theorem test_switch_noop : (switched .noopSwap .primary 0x00 (bankedCore 0x1F)).map (fun d =>
    (d.bankUsr, d.reg 13, modeField d.cpsr)) = some (⟨0x100, 0x200⟩, 0x100, 0x00) := by decide

/-! ### Exceptions and reset (95_test_vectors.md sections 2.6, 2.7) -/

/-- The core an entry of core `p` leaves. -/
def enteredCore (p : CoreId) (c : Core) : Option (Bool × Core) :=
  match enterInterrupt testPlatform p vectorMemory c with
  | .ok (b, d, _) => some (b, d)
  | .error _ => none

-- L1-08, L2-E04
theorem test_entry_primary : (enteredCore .primary (testCore .primary 0x1F 0xE3A01002 0x104)).map (fun r =>
    (r.1, r.2.cpsr, r.2.spsrs.irq, r.2.reg 14, r.2.pI, r.2.pIA, r.2.nFA, r.2.reg 15)) =
      some (true, 0x92, 0x1F, 0x108, 0xE25EF004, 0xFFFF0018, 0xFFFF001C, 0xFFFF0020) := by decide
-- L2-E05
theorem test_entry_compressed : (enteredCore .secondary (testCore .secondary 0x3F 0x2105 0x200)).map (fun r =>
    (r.2.cpsr, r.2.spsrs.irq, r.2.reg 14, r.2.pIA, r.2.nFA, r.2.reg 15)) =
      some (0x92, 0x3F, 0x204, 0x18, 0x1C, 0x20) := by decide
-- L2-E07
theorem test_entry_from_fiq : (enteredCore .primary ((bankedCore 0x51).setReg 8 0xF8)).map (fun r =>
    (r.2.cpsr, r.2.spsrs.irq, r.2.reg 8, r.2.bankFiq.r8)) = some (0xD2, 0x51, 0x81, 0xF8) := by decide
-- L2-E08
theorem test_entry_nested : (enteredCore .primary { (testCore .primary 0x12 0xE3A01002 0x300).setReg 14 0x1234 with
    spsrs := ⟨0, 0, 0, 0x1F, 0⟩ }).map (fun r => (r.2.reg 14, r.2.spsrs.irq)) = some (0x304, 0x12) := by decide
-- L2-E01, L2-E02
theorem test_flag :
    flagInterrupt { testCore .primary 0x1F 0 0 with waitingForInterrupt := true } =
      .ok (true, { testCore .primary 0x1F 0 0 with irqPending := true }) ∧
    flagInterrupt { testCore .primary 0x9F 0 0 with waitingForInterrupt := true } =
      .ok (false, { testCore .primary 0x9F 0 0 with waitingForInterrupt := true }) := ⟨rfl, rfl⟩
-- L2-E13, L2-E14
theorem test_debug_write :
    nextIs (step (queued (attached (testState 0x1F 0 0)) [.debugWrite .primary (.reg 3) 9])) (fun t => t.cur.reg 3 == 9) =
      true ∧
    faultIs (step (queued (attached (testState 0x1F 0 0)) [.debugWrite .primary (.reg 15) 0x100])) .debugWriteRefused =
      true := by decide
-- L2-R02
theorem test_reset : nextIs (step (queued (halted (pending (testState 0x92 0xE3A01002 0x40))) [.reset .primary 0x02000000]))
    (fun t => t.cur.cpsr == 0x1F && t.cur.irqPending == false && t.cur.waitingForInterrupt == false &&
      t.cur.pIA == 0x02000000 && t.cur.nFA == 0x02000004 && t.cur.reg 15 == 0x02000008) = true := by decide
-- L2-R04
theorem test_reset_misaligned : faultIs (step (queued (testState 0x1F 0 0) [.reset .primary 2])) .misalignedFetch = true := by
  decide

/-! ### Witnesses: encoding -/

theorem witness_DecodeOfEncodeIsTheInstruction :
    (Instr.a32Nv 0xFF 4095 0xF 15).wellFormed = true ∧ (Instr.a32Eq 0 0 0 0).wellFormed = true ∧
      (Instr.t16 0x3FF 63).wellFormed = true ∧ (Instr.t16 0 0).wellFormed = true := by decide

theorem witness_EncodeOfDecodeIsTheWord :
    (0x0000FFFF : Word).extractLsb' 16 16 = 0#16 ∧ (0 : Word).extractLsb' 16 16 = 0#16 := by decide

theorem witness_DecoderReadsBytesAndRefusesOnlyTooFew :
    (Instr.a32Al 0x3A 0x010 0x0 0x2).wellFormed = true ∧ ([0, 0, 0] : List Byte).length < 4 ∧
      4 ≤ ([0, 0, 0, 0] : List Byte).length ∧ ([0] : List Byte).length < 2 ∧ 2 ≤ ([0, 0] : List Byte).length := by decide

/-! ### Witnesses: conditions and classes -/

/-- A status word whose flags let a condition pass (SYSTEM mode, A32). -/
def passing : Cond → Word
  | .eq => 0x4000001F
  | .ne => 0x0000001F
  | .cs => 0x2000001F
  | .cc => 0x0000001F
  | .mi => 0x8000001F
  | .pl => 0x0000001F
  | .vs => 0x1000001F
  | .vc => 0x0000001F
  | .hi => 0x2000001F
  | .ls => 0x4000001F
  | .ge => 0x9000001F
  | .lt => 0x8000001F
  | .gt => 0x9000001F
  | .le => 0x4000001F
  | .al => 0x0000001F
  | .nv => 0x0000001F

/-- A status word whose flags let a condition fail, where there is one. -/
def failing : Cond → Word
  | .eq => 0x0000001F
  | .ne => 0x4000001F
  | .cs => 0x0000001F
  | .cc => 0x2000001F
  | .mi => 0x0000001F
  | .pl => 0x8000001F
  | .vs => 0x0000001F
  | .vc => 0x1000001F
  | .hi => 0x6000001F
  | .ls => 0x2000001F
  | .ge => 0x8000001F
  | .lt => 0x9000001F
  | .gt => 0xD000001F
  | .le => 0x9000001F
  | .al => 0x0000001F
  | .nv => 0xF000001F

theorem witness_DispatchIndexOfTheLatchedWord :
    passes (condOfField ((0xE3A01002 : Word).extractLsb' 28 4)) (testState 0x1F 0xE3A01002 0).cur.cpsr = true := by decide

theorem witness_StandardConditionsFollowTheFlags :
    (0x9000001F : Word).getLsbD 31 = true ∧ (0x9000001F : Word).getLsbD 30 = false ∧
      (0x9000001F : Word).getLsbD 29 = false ∧ (0x9000001F : Word).getLsbD 28 = true := by decide

theorem witness_ReservedConditionIsAlwaysSkipped : (0xF3A02003 : Word).extractLsb' 28 4 = 0xF#4 := by decide

/-- For every class that has a failing condition. -/
theorem witness_FailedConditionSkipsAndCompletes (c : Cond) (h : c ≠ .al) :
    passes c (testState (failing c) 0 0).cur.cpsr = false ∧ fetchAllowed testPlatform (testState (failing c) 0 0).cur = true := by
  cases c <;> first | exact absurd rfl h | decide

/-- In plain memory, and on an oracle. -/
theorem witness_SkippedInstructionFrame (c : Cond) (h : c ≠ .al) :
    (passes c (testState (failing c) 0 0).cur.cpsr = false ∧ testPlatform.collaborator = .plain ∧
      fetchAligned (flagT (testState (failing c) 0 0).cur.cpsr) (testState (failing c) 0 0).cur.nFA = true ∧
      ∃ t, exec (Instr.a32 c 0x3A 0x010 0x0 0x2) (testState (failing c) 0 0) = .next t) ∧
    ∃ t, exec (Instr.a32 c 0x3A 0x010 0x0 0x2) (onOracle (testState (failing c) 0 0)) = .next t := by
  obtain ⟨h1, h2⟩ := witness_FailedConditionSkipsAndCompletes c h
  have h3 : fetchAligned (flagT (testState (failing c) 0 0).cur.cpsr) (testState (failing c) 0 0).cur.nFA = true := h2
  exact ⟨⟨h1, rfl, h3, _, by rw [exec_a32_failed h1]; exact completeStep_of_allowed h2⟩, _, by
    rw [exec_a32_failed (s := onOracle (testState (failing c) 0 0)) h1]
    exact completeStep_of_allowed (s := onOracle (testState (failing c) 0 0)) h2⟩

/-- For every class that has a passing condition: its handler, at index 0x3A0, runs to its end. -/
theorem witness_PassedConditionRunsItsHandlerAndCompletes (c : Cond) (h : c ≠ .nv) :
    passes c (testState (passing c) 0xE3A01002 0).cur.cpsr = true ∧
      ∃ r, runHandler32 (testState (passing c) 0xE3A01002 0) (index32 0x3A 0x0) = .ok r ∧
        fetchAllowed testPlatform r.core = true := by
  cases c <;> first
    | exact absurd rfl h
    | exact ⟨by decide, _, rfl, by decide⟩

theorem witness_CompressedInstructionRunsItsHandlerAndCompletes :
    ∃ r, runHandler16 (testState 0x3F 0x2105 0x20) 0x084 = .ok r ∧ fetchAllowed testPlatform r.core = true :=
  ⟨_, rfl, by decide⟩

theorem witness_PlainHandlerFallsThrough (c : Cond) (h : c ≠ .nv) :
    (passes c (testState (passing c) 0xE3A01002 0).cur.cpsr = true ∧
      handler32At testPlatform .primary (index32 0x3A 0x0) = .scripted movScript ∧ scriptPlain movScript = true ∧
      fetchAllowed testPlatform (testState (passing c) 0xE3A01002 0).cur = true) ∧
    handler16At testPlatform .primary 0x084 = .scripted movThumbScript ∧ scriptPlain movThumbScript = true ∧
      fetchAllowed testPlatform (testState 0x3F 0x2105 0x20).cur = true := by
  cases c <;> first | exact absurd rfl h | decide

theorem witness_InstructionsStopOnlyByName :
    (passes .al (testState 0x1F 0 0).cur.cpsr = true ∧
      runHandler32 (testState 0x1F 0 0) (index32 0x11 0x1) = .error (.fault .handlerContract)) ∧
    runHandler16 (testState 0x3F 0 0) 0x002 = .error (.fault .handlerContract) ∧
    (passes .eq (testState 0x1F 0 0xFFFFFFFE).cur.cpsr = false ∧
      fetchAllowed testPlatform (testState 0x1F 0 0xFFFFFFFE).cur = false) ∧
    (passes .al (testState 0x1F 0xE3A01002 0xFFFFFFFE).cur.cpsr = true ∧
      ∃ r, runHandler32 (testState 0x1F 0xE3A01002 0xFFFFFFFE) (index32 0x3A 0x0) = .ok r ∧
        fetchAllowed testPlatform r.core = false) ∧
    (∃ r, runHandler16 (testState 0x3F 0x2105 0x21) 0x084 = .ok r ∧ fetchAllowed testPlatform r.core = false) ∧
    exec (.t16 0x002 0) (testState 0x3F 0 0) = .fault .handlerContract ∧
    exec (.a32Eq 0x3A 0x010 0x0 0x2) (testState 0x1F 0 0xFFFFFFFE) = .fault .misalignedFetch ∧
    exec (.a32Al 0x44 0x000 0x4 0x0) { testState 0x1F 0 0 with current := .secondary } = .refused .absentStorage :=
  ⟨⟨by decide, rfl⟩, rfl, by decide, ⟨by decide, _, rfl, by decide⟩, ⟨_, rfl, by decide⟩, rfl, rfl, rfl⟩

/-- The three ways an instruction ends: skipped, executed, compressed. -/
theorem witness_exec_next :
    (∃ t, exec (.a32Eq 0x3A 0x010 0x0 0x2) (testState 0x1F 0x03A01002 0) = .next t) ∧
    (∃ t, exec (.a32Al 0x3A 0x010 0x0 0x2) (testState 0x1F 0xE3A01002 0) = .next t) ∧
    ∃ t, exec (.t16 0x084 0x05) (testState 0x3F 0x2105 0x20) = .next t := ⟨⟨_, rfl⟩, ⟨_, rfl⟩, ⟨_, rfl⟩⟩

theorem witness_EveryInstructionEndsWithThePrefetch :
    ∃ t, exec (.a32Al 0x3A 0x010 0x0 0x2) (testState 0x1F 0xE3A01002 0) = .next t := witness_exec_next.2.1

theorem witness_StepCostIsBaseHandlerAndFetch :
    ((∃ t, exec (.a32Eq 0x3A 0x010 0x0 0x2) (testState 0x1F 0x03A01002 0) = .next t) ∧
      passes .eq (testState 0x1F 0x03A01002 0).cur.cpsr = false) ∧
    ((∃ t, exec (.a32Al 0x3A 0x010 0x0 0x2) (testState 0x1F 0xE3A01002 0) = .next t) ∧
      passes .al (testState 0x1F 0xE3A01002 0).cur.cpsr = true ∧
      ∃ r, runHandler32 (testState 0x1F 0xE3A01002 0) (index32 0x3A 0x0) = .ok r) ∧
    ((∃ t, exec (.t16 0x084 0x05) (testState 0x3F 0x2105 0x20) = .next t) ∧
      ∃ r, runHandler16 (testState 0x3F 0x2105 0x20) 0x084 = .ok r) ∧
    (debugStopped (testState 0x1F 0 0)).cur.initialised = true ∧
    (debugStopped (testState 0x1F 0 0)).platform.debugAttached.get .primary = true ∧
    (debugStopped (testState 0x1F 0 0)).cur.debugHalted = true ∧
    (halted (testState 0x1F 0 0)).cur.initialised = true ∧
    ((halted (testState 0x1F 0 0)).platform.debugAttached.get .primary && (halted (testState 0x1F 0 0)).cur.debugHalted) = false ∧
    (halted (testState 0x1F 0 0)).cur.waitingForInterrupt = true :=
  ⟨⟨⟨_, rfl⟩, rfl⟩, ⟨⟨_, rfl⟩, rfl, _, rfl⟩, ⟨⟨_, rfl⟩, _, rfl⟩, rfl, rfl, rfl, rfl, rfl, rfl⟩

theorem witness_NotificationAfterEveryInstruction :
    ((∃ t, exec (.a32Eq 0x3A 0x010 0x0 0x2) (attached (testState 0x1F 0x03A01002 8)) = .next t) ∧
      (attached (testState 0x1F 0x03A01002 8)).platform.debugAttached.get .primary = true) ∧
    (∃ t, exec (.t16 0x084 0x05) (testState 0x3F 0x2105 0x20) = .next t) ∧
      (testState 0x3F 0x2105 0x20).platform.debugAttached.get .primary = false :=
  ⟨⟨⟨_, rfl⟩, rfl⟩, ⟨_, rfl⟩, rfl⟩

theorem witness_ExecutedInstructionFrame :
    ((∃ t, exec (.a32Al 0x3A 0x010 0x0 0x2) (testState 0x1F 0xE3A01002 0) = .next t) ∧
      (Instr.a32Al 0x3A 0x010 0x0 0x2) = Instr.a32 .al 0x3A 0x010 0x0 0x2 ∧
      passes .al (testState 0x1F 0xE3A01002 0).cur.cpsr = true ∧
      ∃ r, runHandler32 (testState 0x1F 0xE3A01002 0) (index32 0x3A 0x0) = .ok r ∧ testPlatform.collaborator = .plain ∧
        fetchAligned (flagT r.core.cpsr) r.core.nFA = true) ∧
    (∃ t, exec (.t16 0x084 0x05) (testState 0x3F 0x2105 0x20) = .next t) ∧
      ∃ r, runHandler16 (testState 0x3F 0x2105 0x20) 0x084 = .ok r ∧ fetchAligned (flagT r.core.cpsr) r.core.nFA = true :=
  ⟨⟨⟨_, rfl⟩, rfl, rfl, _, rfl, rfl, by decide⟩, ⟨_, rfl⟩, _, rfl, by decide⟩

/-! ### Witnesses: handlers -/

/-- A handler run about to start on core 0 in SYSTEM mode. -/
def testRun : HandlerRun := startRun (testCore .primary 0x1F 0xE3A01002 0) noMemory

theorem witness_HandlerContractBreachesFault :
    ((Expr.const 0x12).eval .primary testRun = .ok 0x12 ∧ modeField 0x12 ≠ modeField testRun.core.cpsr) ∧
    (Expr.const 0xF000003F).eval .primary testRun = .ok 0xF000003F ∧
      modeField 0xF000003F = modeField testRun.core.cpsr := ⟨⟨rfl, by decide⟩, rfl, by decide⟩

theorem witness_HandlersKeepTheirContract :
    (∃ r', (Script.act (.switchMode (.const 0x12) 0)).run testPlatform .primary testRun = .ok r') ∧
      testPlatform.malformedMode = .fault ∧ legalMode .primary (modeField testRun.core.cpsr) = true :=
  ⟨⟨_, rfl⟩, rfl, rfl⟩

theorem witness_RedirectionReachesTheTarget :
    (passes .al (testState 0x1F 0 0).cur.cpsr = true ∧
      handler32At testPlatform .primary (index32 0x33 0x3) =
        .scripted (.seq (.act (.setCpsr (.const 0x3F))) (.act (.setNextFetch (.const 0x80)))) ∧
      modeField 0x3F = modeField (testState 0x1F 0 0).cur.cpsr ∧ fetchAligned (flagT 0x3F) 0x80 = true) ∧
    handler16At testPlatform .primary 0x003 =
        .scripted (.seq (.act (.setCpsr (.const 0x1F))) (.act (.setNextFetch (.const 0x100)))) ∧
      modeField 0x1F = modeField (testState 0x3F 0 0).cur.cpsr ∧ fetchAligned (flagT 0x1F) 0x100 = true ∧
    handler32At testPlatform .primary (index32 0x33 0x4) = .scripted (.act (.setNextFetch (.const 0x80))) ∧
      fetchAligned (flagT (testState 0x1F 0 0).cur.cpsr) 0x80 = true ∧
    handler16At testPlatform .primary 0x004 = .scripted (.act (.setNextFetch (.const 0x100))) ∧
      fetchAligned (flagT (testState 0x3F 0 0).cur.cpsr) 0x100 = true ∧ testPlatform.collaborator = .plain := by decide

/-- At the last word of the address space in plain memory, one byte further (misaligned), and on an oracle. -/
theorem witness_HandlerEffectFrame :
    ((Expr.const 0xFFFFFFFC).eval .primary testRun = .ok 0xFFFFFFFC ∧
      (Expr.const 0x11223344).eval .primary testRun = .ok 0x11223344 ∧ testPlatform.collaborator = .plain ∧
      (0xFFFFFFFC : Word).toNat % AccessWidth.word.bytes = 0 ∧ testRun.mem.bytes.wf = true ∧
      ∀ k : Fin 4, (0 : Word) ≠ 0xFFFFFFFC + BitVec.ofNat 32 k) ∧
    (0xFFFFFFFD : Word).toNat % AccessWidth.half.bytes ≠ 0 ∧ (onOracle (testState 0x1F 0 0)).platform.collaborator = .oracle ∧
    SpsrSlot.irq ≠ .fiq ∧ PairReg.r13 ≠ .r14 ∧ FiqReg.r8 ≠ .r14 :=
  ⟨⟨rfl, rfl, rfl, by decide, rfl, by decide⟩, by decide, rfl, by decide, by decide, by decide⟩

/-- Fast-interrupt storage written on core 0, and refused on core 1. -/
theorem test_shadow_writes :
    (∃ r', (Action.setShadow (.fiq .r14) (.const 7)).perform testPlatform .primary testRun = .ok r' ∧
      r'.core.bankFiq.r14 = 7 ∧ r'.core.bankFiq.r13 = 0) ∧
    (Action.setSpsrOf .fiq (.const 7)).perform testPlatform .secondary testRun = .error (.refused .absentStorage) :=
  ⟨⟨_, rfl, rfl, rfl⟩, rfl⟩

theorem witness_CurrentSpsrIsTheModesSlot :
    currentSlot .primary (testCore .primary 0x11 0 0) = some .fiq ∧
      currentSlot .secondary (testCore .secondary 0x12 0 0) = some .irq ∧
      currentSlot .primary (testCore .primary 0x1F 0 0) = none ∧
      currentSlot .secondary (testCore .secondary 0x11 0 0) = none := by decide

/-! ### Witnesses: the bank switch -/

theorem witness_SwitchWritesTheModeAndReturnsTheOldOne :
    ∃ d, switchMode .fault .primary 0x32 (bankedCore 0xF00000DF) = .ok (0x1F, d) := ⟨_, rfl⟩

theorem witness_SwitchHasNoOtherEffect :
    (∃ r', (Action.switchMode (.const 0x12) 0).perform testPlatform .primary testRun = .ok r') ∧
    ∃ d, switchMode .noopSwap .secondary 0x11 (testCore .secondary 0x1F 0 0) = .ok (0x1F, d) := ⟨⟨_, rfl⟩, _, rfl⟩

theorem witness_SwitchBetweenPairGroups :
    (groupOf .primary (modeField (bankedCore 0x1F).cpsr) = some (.pair .usr) ∧
      groupOf .primary (modeField 0x12) = some (.pair .irq)) ∧
    groupOf .secondary (modeField 0x13) = some (.pair .svc) := by decide

theorem witness_FastInterruptSwitchExchangesRegisters :
    (groupOf .primary (modeField (bankedCore 0x1F).cpsr) = some (.pair .usr) ∧ modeField 0x11 = 0x11#5) ∧
    modeField (bankedCore 0x11).cpsr = 0x11#5 ∧ groupOf .primary (modeField 0x12) = some (.pair .irq) := by decide

theorem witness_SameGroupSwitchKeepsTheRegisters :
    (groupOf .primary (modeField (bankedCore 0x10).cpsr)).isSome = true ∧
      groupOf .primary (modeField 0x1F) = groupOf .primary (modeField (bankedCore 0x10).cpsr) ∧
      modeField 0x10 = modeField (bankedCore 0x10).cpsr ∧
      groupOf .primary (modeField 0x11) = groupOf .primary (modeField (bankedCore 0x11).cpsr) := by decide

theorem witness_MalformedModePolicyIsFollowed :
    legalMode .secondary (modeField 0x11) = false ∧ legalMode .primary (modeField 0x00) = false ∧
      legalMode .primary (modeField (bankedCore 0x1F).cpsr) = true ∧ legalMode .primary (modeField 0x12) = true ∧
      groupOf .primary (modeField (bankedCore 0x1F).cpsr) = some (.pair .usr) ∧
      legalMode .primary (modeField (bankedCore 0x00).cpsr) = false ∧
      groupOf .primary (modeField 0x1F) = some (.pair .usr) ∧
      modeField (bankedCore 0x11).cpsr = 0x11#5 ∧ modeField 0x11 = 0x11#5 := by decide

-- 40_bank_switch.md R122, R123, R130: the fast-interrupt mode left for a malformed one, and a malformed one left for it
theorem test_switch_noop_fiq :
    (switched .noopSwap .primary 0x00 (bankedCore 0x11)).map (fun d =>
      (d.reg 8, d.reg 13, d.bankFiq, modeField d.cpsr)) = some (0x81, 0x100, ⟨1, 2, 3, 4, 5, 0x100, 0x200⟩, 0x00) ∧
    (switched .noopSwap .primary 0x11 (bankedCore 0x00)).map (fun d =>
      (d.reg 8, d.reg 13, d.bankFiq, modeField d.cpsr)) =
        some (0x81, 0xF13, ⟨1, 2, 3, 4, 5, 0xF13, 0xF14⟩, 0x11) := by decide

theorem witness_BankIsolation :
    (modeField (bankedCore 0x13).cpsr = modeField 0x13 ∧ legalMode .primary (modeField 0x13) = true ∧
      legalMode .primary (modeField 0x11) = true ∧ groupOf .primary (modeField 0x13) ≠ groupOf .primary (modeField 0x11) ∧
      8 ≤ (8 : Fin 16).val ∧ (12 : Fin 16).val ≤ 12) ∧
    groupOf .primary (modeField 0x11) = some .fiq := by decide

theorem witness_FastInterruptRoundTrip :
    modeField (bankedCore 0x1F).cpsr = modeField 0x1F ∧ modeField 0x1F ≠ 0x11#5 ∧
      legalMode .primary (modeField 0x1F) = true := by decide

/-! ### Witnesses: prefetch and interrupts -/

theorem witness_PrefetchFillsTheLatchFromMemory :
    (flagT (testCore .primary 0x1F 0 0xFFFFFFF8).cpsr = false ∧ (testCore .primary 0x1F 0 0xFFFFFFF8).nFA.toNat % 4 = 0) ∧
    flagT (testCore .primary 0x3F 0 0xFFFFFFFC).cpsr = true ∧ (testCore .primary 0x3F 0 0xFFFFFFFC).nFA.toNat % 2 = 0 ∧
    testPlatform.collaborator = .plain ∧ (onOracle (testState 0x1F 0 0)).platform.collaborator = .oracle := by decide

theorem witness_MisalignedPrefetchFollowsThePolicy :
    (testCore .primary 0x1F 0 0xFFFFFFFE).nFA.toNat % (if flagT (testCore .primary 0x1F 0 0xFFFFFFFE).cpsr then 2 else 4) ≠ 0 ∧
    (testCore .primary 0x3F 0 0x21).nFA.toNat % (if flagT (testCore .primary 0x3F 0 0x21).cpsr then 2 else 4) ≠ 0 ∧
    testPlatform.misalignedFetch = .fault ∧
    ({ testPlatform with misalignedFetch := .passThrough } : Platform).misalignedFetch = .passThrough := by decide

theorem witness_FlagInterruptHoldsTheRequest :
    (testCore .primary 0x9F 0 0).initialised = true ∧ (testCore .primary 0x9F 0 0).cpsr.getLsbD 7 = true ∧
      (testCore .primary 0x1F 0 0).initialised = true ∧ (testCore .primary 0x1F 0 0).cpsr.getLsbD 7 = false := by decide

theorem witness_MaskedInterruptEntryChangesNothing :
    (testCore .primary 0x9F 0 0).initialised = true ∧ (testCore .primary 0x9F 0 0).cpsr.getLsbD 7 = true := by decide

/-- From SYSTEM mode on core 0, from IRQ mode itself on core 1 with the other vector base, from the fast-interrupt mode, and
from a malformed mode. -/
theorem witness_InterruptEntrySequence :
    ((testCore .primary 0x1F 0 0).initialised = true ∧ (testCore .primary 0x1F 0 0).cpsr.getLsbD 7 = false ∧
      legalMode .primary (modeField (testCore .primary 0x1F 0 0).cpsr) = true ∧
      (testCore .primary 0x1F 0 0).interruptVectorBase.toNat % 4 = 0) ∧
    ((testCore .secondary 0x32 0 0).initialised = true ∧ (testCore .secondary 0x32 0 0).cpsr.getLsbD 7 = false ∧
      legalMode .secondary (modeField (testCore .secondary 0x32 0 0).cpsr) = true ∧
      (testCore .secondary 0x32 0 0).interruptVectorBase.toNat % 4 = 0 ∧
      modeField (testCore .secondary 0x32 0 0).cpsr = 0x12#5) ∧
    groupOf .primary (modeField (testCore .primary 0x1F 0 0).cpsr) = some (.pair .usr) ∧
    ((bankedCore 0x51).initialised = true ∧ (bankedCore 0x51).cpsr.getLsbD 7 = false ∧
      legalMode .primary (modeField (bankedCore 0x51).cpsr) = true ∧ (bankedCore 0x51).interruptVectorBase.toNat % 4 = 0 ∧
      groupOf .primary (modeField (bankedCore 0x51).cpsr) = some .fiq) ∧
    (testPlatform.malformedMode = .fault ∧ (bankedCore 0x00).initialised = true ∧ (bankedCore 0x00).cpsr.getLsbD 7 = false ∧
      legalMode .primary (modeField (bankedCore 0x00).cpsr) = false) := by decide

-- L2-E12
theorem test_entry_malformed : enterInterrupt testPlatform .primary vectorMemory (bankedCore 0x00) =
    .error (.fault .malformedMode) := rfl

/-- An accepted entry, from SYSTEM mode and from the fast-interrupt mode. -/
theorem witness_accepted_entry :
    (∃ d, enterInterrupt testPlatform .primary vectorMemory (testCore .primary 0x1F 0 0x104) = .ok (true, d, vectorMemory)) ∧
    ∃ d, enterInterrupt testPlatform .primary vectorMemory (bankedCore 0x51) = .ok (true, d, vectorMemory) := ⟨⟨_, rfl⟩, ⟨_, rfl⟩⟩

theorem witness_EntrySavesTheStatusWordInTheIrqSlot :
    (∃ d, enterInterrupt testPlatform .primary vectorMemory (testCore .primary 0x1F 0 0x104) = .ok (true, d, vectorMemory)) ∧
      SpsrSlot.svc ≠ SpsrSlot.irq := ⟨witness_accepted_entry.1, by decide⟩

theorem witness_EntryKeepsEverythingElse :
    (∃ d, enterInterrupt testPlatform .primary vectorMemory (testCore .primary 0x1F 0 0x104) = .ok (true, d, vectorMemory)) ∧
      groupOf .primary (modeField (testCore .primary 0x1F 0 0x104).cpsr) ≠ some .fiq ∧
      groupOf .primary (modeField (testCore .primary 0x1F 0 0x104).cpsr) ≠ some (.pair .irq) :=
  ⟨witness_accepted_entry.1, by decide, by decide⟩

theorem witness_StepEntersThePendingInterrupt :
    ((pending (testState 0x9F 0 4)).cur.initialised = true ∧
      ((pending (testState 0x9F 0 4)).platform.debugAttached.get .primary && (pending (testState 0x9F 0 4)).cur.debugHalted) =
        false ∧
      (pending (testState 0x9F 0 4)).cur.waitingForInterrupt = false ∧ (pending (testState 0x9F 0 4)).cur.irqPending = true ∧
      (pending (testState 0x9F 0 4)).cur.cpsr.getLsbD 7 = true) ∧
    (∃ d, enterInterrupt (pending (testState 0x1F 0 4)).platform .primary noMemory (pending (testState 0x1F 0 4)).cur =
      .ok (true, d, noMemory)) ∧
    enterInterrupt (pending (testState 0x00 0 4)).platform .primary noMemory (pending (testState 0x00 0 4)).cur =
      .error (.fault .malformedMode) := ⟨by decide, ⟨_, rfl⟩, rfl⟩

/-- From SYSTEM mode and from the fast-interrupt mode. -/
theorem witness_ReturnFromInterruptResumesTheInstruction :
    ((∃ d, enterInterrupt testPlatform .primary vectorMemory (testCore .primary 0x1F 0 0x104) = .ok (true, d, vectorMemory)) ∧
      legalMode .primary (modeField (testCore .primary 0x1F 0 0x104).cpsr) = true ∧
      modeField (testCore .primary 0x1F 0 0x104).cpsr ≠ 0x12#5) ∧
    (∃ d, enterInterrupt testPlatform .primary vectorMemory (bankedCore 0x51) = .ok (true, d, vectorMemory)) ∧
      legalMode .primary (modeField (bankedCore 0x51).cpsr) = true ∧ modeField (bankedCore 0x51).cpsr ≠ 0x12#5 :=
  ⟨⟨witness_accepted_entry.1, by decide, by decide⟩, witness_accepted_entry.2, by decide, by decide⟩

theorem witness_MaskedHaltedCoreHangs :
    ((halted (testState 0x9F 0 0)).core .primary).initialised = true ∧
      ((halted (testState 0x9F 0 0)).core .primary).waitingForInterrupt = true ∧
      ((halted (testState 0x9F 0 0)).core .primary).cpsr.getLsbD 7 = true ∧
    (queued (halted (testState 0x9F 0 0)) [.enterInterrupt .primary]).calls = .enterInterrupt .primary :: [] := by decide

theorem witness_ExceptionStateFollowsTheOperations :
    (∃ d, flagInterrupt (testCore .primary 0x1F 0 0) = .ok (true, d)) ∧
    (∃ d, enterInterrupt testPlatform .primary vectorMemory (testCore .primary 0x1F 0 0x104) = .ok (true, d, vectorMemory)) ∧
    ∃ d, resetCore testPlatform .primary noMemory 0 (testCore .primary 0x92 0 0) = .ok (d, noMemory) :=
  ⟨⟨_, rfl⟩, witness_accepted_entry.1, ⟨_, rfl⟩⟩

/-! ### Witnesses: halt, debug, reset -/

theorem witness_HaltedStepIsIdle :
    (halted (testState 0x1F 0 0)).cur.initialised = true ∧
      ((halted (testState 0x1F 0 0)).platform.debugAttached.get .primary && (halted (testState 0x1F 0 0)).cur.debugHalted) =
        false ∧
      (halted (testState 0x1F 0 0)).cur.waitingForInterrupt = true := by decide

theorem witness_DebugHaltedStepIsANoOp :
    (debugStopped (testState 0x1F 0 0)).cur.initialised = true ∧
      (debugStopped (testState 0x1F 0 0)).platform.debugAttached.get .primary = true ∧
      (debugStopped (testState 0x1F 0 0)).cur.debugHalted = true := by decide

theorem witness_HaltingHandlerStopsTheCore :
    (passes .al (testState 0x1F 0 0).cur.cpsr = true ∧
      handler32At testPlatform .primary (index32 0xE0 0x9) = .scripted (.act .halt) ∧
      (testState 0x1F 0 0).cur.initialised = true ∧
      ((testState 0x1F 0 0).platform.debugAttached.get .primary && (testState 0x1F 0 0).cur.debugHalted) = false ∧
      fetchAllowed testPlatform (testState 0x1F 0 0).cur = true) ∧
    handler16At testPlatform .primary 0x001 = .scripted (.act .halt) ∧
      fetchAllowed testPlatform (testState 0x3F 0 0).cur = true := by decide

theorem witness_DebugPortReadsAllAndWritesGeneralRegisters :
    (((attached (testState 0x1F 0 0)).core .primary).initialised = true ∧
      (attached (testState 0x1F 0 0)).platform.debugAttached.get .primary = true ∧ (14 : Fin 16) ≠ 15 ∧
      (∀ n : Fin 16, n ≠ 15 → CoreField.reg 15 ≠ .reg n) ∧ ∀ n : Fin 16, n ≠ 15 → CoreField.cpsr ≠ .reg n) ∧
    ((attached (testState 0x1F 0 0)).core .secondary).initialised = true ∧
      (attached (testState 0x1F 0 0)).platform.debugAttached.get .secondary = true :=
  ⟨⟨rfl, rfl, by decide, by decide, by decide⟩, rfl, rfl⟩

theorem witness_NeverResetCoreOnlyResets : ((neverReset (testState 0x1F 0 0)).core .primary).initialised = false := rfl

theorem witness_ResetLeavesTheStatedValues : (0x02000000 : Word).toNat % 4 = 0 ∧ (0xFFFFFFFC : Word).toNat % 4 = 0 ∧
    (0xFFFFFFFD : Word).toNat % 4 ≠ 0 ∧ testPlatform.misalignedFetch = .fault ∧ testPlatform.collaborator = .plain ∧
    (onOracle (testState 0x1F 0 0)).platform.collaborator = .oracle := by decide

/-- Two cores that agree on what reset does not touch, and on nothing else. -/
theorem witness_ResetDiscardsWhatWasBefore :
    (bankedCore 0x92).memoryInterface = (testCore .primary 0x1F 0xE3A01002 0x40).memoryInterface ∧
      (bankedCore 0x92).debugHalted = (testCore .primary 0x1F 0xE3A01002 0x40).debugHalted ∧
      (bankedCore 0x92).cpsr ≠ (testCore .primary 0x1F 0xE3A01002 0x40).cpsr := ⟨rfl, rfl, by decide⟩

/-! ### Witnesses: steps and invariants -/

/-- A state whose memory holds the instruction the latch holds, in either format. -/
def loadedState (cpsr pI pIA : Word) : State :=
  { testState cpsr pI pIA with mem := { bytes := Memory.store [] .little .word pIA pI, asked := 0 } }

theorem witness_StepRunsTheDecodedInstruction :
    (loadedState 0x1F 0xE3A01002 0).calls = [] ∧ (loadedState 0x1F 0xE3A01002 0).cur.initialised = true ∧
    ((loadedState 0x1F 0xE3A01002 0).platform.debugAttached.get .primary &&
      (loadedState 0x1F 0xE3A01002 0).cur.debugHalted) = false ∧
    (loadedState 0x1F 0xE3A01002 0).cur.waitingForInterrupt = false ∧ (loadedState 0x1F 0xE3A01002 0).cur.irqPending = false ∧
    decode (flagT (loadedState 0x1F 0xE3A01002 0).cur.cpsr) .little
      [(loadedState 0x1F 0xE3A01002 0).mem.bytes.byteAt 0, (loadedState 0x1F 0xE3A01002 0).mem.bytes.byteAt 1,
        (loadedState 0x1F 0xE3A01002 0).mem.bytes.byteAt 2, (loadedState 0x1F 0xE3A01002 0).mem.bytes.byteAt 3] =
      .ok (.a32Al 0x3A 0x010 0x0 0x2, []) ∧
    (loadedState 0x1F 0xE3A01002 0).cur.pI = (loadedState 0x1F 0xE3A01002 0).mem.bytes.wordAt .little 0 ∧
    decode (flagT (loadedState 0x3F 0x2105 0).cur.cpsr) .little
      [(loadedState 0x3F 0x2105 0).mem.bytes.byteAt 0, (loadedState 0x3F 0x2105 0).mem.bytes.byteAt 1,
        (loadedState 0x3F 0x2105 0).mem.bytes.byteAt 2, (loadedState 0x3F 0x2105 0).mem.bytes.byteAt 3] =
      .ok (.t16 0x084 0x05, [0, 0]) ∧
    (loadedState 0x3F 0x2105 0).cur.pI = ((loadedState 0x3F 0x2105 0).mem.bytes.halfAt .little 0).setWidth 32 :=
  ⟨rfl, rfl, rfl, rfl, rfl, rfl, by decide, rfl, by decide⟩

theorem witness_StoreDoesNotChangeTheLatchedInstruction :
    (testState 0x1F 0xE3A01002 0).mem.bytes.wf = true ∧ (0xFFFFFFFF : Word) ≠ 0 := by decide

/-- A host call of each kind ends in a next state. -/
theorem witness_CoresShareNoArchitecturalState :
    (∃ t, stepCore (testState 0x1F 0xE3A01002 0) = .next t) ∧
    (∃ t, hostCall (.step .secondary) (testState 0x1F 0xE3A01002 0) = .next t) ∧
    (∃ t, hostCall (.reset .secondary 0) (testState 0x1F 0xE3A01002 0) = .next t) ∧
    (∃ t, hostCall (.flagInterrupt .primary) (testState 0x1F 0xE3A01002 0) = .next t) ∧
    (∃ t, hostCall (.enterInterrupt .primary) (testState 0x1F 0xE3A01002 0) = .next t) ∧
    (∃ t, hostCall (.debugHalt .primary true) (attached (testState 0x1F 0xE3A01002 0)) = .next t) ∧
    (∃ t, hostCall (.debugRead .primary .cpsr) (attached (testState 0x1F 0xE3A01002 0)) = .next t) ∧
    (∃ t, hostCall (.debugWrite .primary (.reg 0) 1) (attached (testState 0x1F 0xE3A01002 0)) = .next t) ∧
    ∃ t, hostCall (.store 0 1) (testState 0x1F 0xE3A01002 0) = .next t :=
  ⟨⟨_, rfl⟩, ⟨_, rfl⟩, ⟨_, rfl⟩, ⟨_, rfl⟩, ⟨_, rfl⟩, ⟨_, rfl⟩, ⟨_, rfl⟩, ⟨_, rfl⟩, ⟨_, rfl⟩⟩

/-- The invariants hold of a state from which a step runs an instruction. -/
theorem test_invariants : PipelineInv (testState 0x1F 0xE3A01002 0) ∧ ModeInv (testState 0x1F 0xE3A01002 0) ∧
    IdentityInv (testState 0x1F 0xE3A01002 0) ∧ DebugInv (testState 0x1F 0xE3A01002 0) ∧
    MemoryInv (testState 0x1F 0xE3A01002 0) := by
  refine ⟨?_, ⟨rfl, ?_⟩, ?_, ?_, rfl⟩
  · intro p _
    cases p <;> exact ⟨by decide, by decide, by decide⟩
  · intro p _
    cases p <;> rfl
  · intro p _
    cases p <;> exact ⟨rfl, rfl, fun _ => ⟨rfl, rfl⟩⟩
  · intro p h
    cases p <;> cases h

theorem test_steps : ∃ t, step (testState 0x1F 0xE3A01002 0) = .next t := ⟨_, rfl⟩

theorem witness_EveryStepKeepsThePipelineInvariant :
    PipelineInv (testState 0x1F 0xE3A01002 0) ∧ ∃ t, step (testState 0x1F 0xE3A01002 0) = .next t :=
  ⟨test_invariants.1, test_steps⟩

theorem witness_EveryStepKeepsLegalModes :
    ModeInv (testState 0x1F 0xE3A01002 0) ∧ ∃ t, step (testState 0x1F 0xE3A01002 0) = .next t :=
  ⟨test_invariants.2.1, test_steps⟩

theorem witness_EveryStepKeepsTheCapabilities :
    IdentityInv (testState 0x1F 0xE3A01002 0) ∧ DebugInv (testState 0x1F 0xE3A01002 0) ∧
      ∃ t, step (testState 0x1F 0xE3A01002 0) = .next t :=
  ⟨test_invariants.2.2.1, test_invariants.2.2.2.1, test_steps⟩

theorem witness_EveryStepKeepsMemoryCanonical :
    MemoryInv (testState 0x1F 0xE3A01002 0) ∧ ∃ t, step (testState 0x1F 0xE3A01002 0) = .next t :=
  ⟨test_invariants.2.2.2.2, test_steps⟩

end Sys2Proof.Tests
end

section
/-! The Register Bank Manager: what switchMode writes and what it leaves alone (40_bank_switch.md R125 to R127). -/

namespace Sys2Proof.Machine

/-- `modeField` and masking with `0x1F` are one notion (40_bank_switch.md R125). -/
theorem setWidth_modeField (w : Word) : (modeField w).setWidth 32 = w &&& 0x1F#32 := by
  apply BitVec.eq_of_toNat_eq
  have hmask : w.toNat &&& 0x1F = w.toNat % 2 ^ 5 := Nat.and_two_pow_sub_one_eq_mod w.toNat 5
  rw [BitVec.toNat_and, BitVec.toNat_setWidth, modeField, BitVec.toNat_setWidth, BitVec.toNat_ofNat, hmask]
  omega

/-- The status word after a bank switch, bit by bit above the mode field (40_bank_switch.md R125, R127). -/
theorem bankSwap_cpsr_getLsbD (p : CoreId) (m : BitVec 5) (c : Core) {k : Nat} (hk : 5 ≤ k) :
    (bankSwap p m c).cpsr.getLsbD k = c.cpsr.getLsbD k := by
  rw [bankSwap_cpsr, getLsbD_setModeField, if_neg (Nat.not_lt.mpr hk)]

/-- A handler's call of switchMode, when it does not stop: the core is switched, the old mode is kept as a local, and
nothing else of the run changes (43_dispatch.md R213). -/
theorem Action.perform_switchMode_ok {pf : Platform} {p : CoreId} {e : Expr} {dst : Nat} {r r' : HandlerRun}
    (h : (Action.switchMode e dst).perform pf p r = .ok r') :
    ∃ v old c, e.eval p r = .ok v ∧ Machine.switchMode pf.malformedMode p v r.core = .ok (old, c) ∧
      r' = { r with core := c, locals := (dst, old.setWidth 32) :: r.locals } := by
  simp only [Action.perform] at h
  split at h
  · cases h
  · rename_i v hv
    split at h
    · cases h
    · rename_i old c hs
      cases h
      exact ⟨v, old, c, hv, hs, rfl⟩

/-- Settles O26: of the status word a bank switch writes the mode field alone. -/
theorem switchWritesTheModeAndReturnsTheOldOne : Obligations.SwitchWritesTheModeAndReturnsTheOldOne := by
  intro policy p newMode c d old h
  obtain ⟨hold, rfl, -⟩ := switchMode_ok h
  refine ⟨?_, fun k hk => bankSwap_cpsr_getLsbD p _ c hk, hold⟩
  rw [bankSwap_cpsr, modeField_setModeField, setWidth_modeField]

/-- Settles O27: every phase of a bank switch stays inside the banked registers and the mode field, and the handler's
call of it touches only the core and the handler's locals. -/
theorem switchHasNoOtherEffect : Obligations.SwitchHasNoOtherEffect := by
  refine ⟨fun pf p e dst r r' h => ?_, fun policy p newMode c d old h => ?_⟩
  · obtain ⟨v, old, c, -, -, rfl⟩ := Action.perform_switchMode_ok h
    exact ⟨rfl, rfl⟩
  · obtain ⟨-, rfl, -⟩ := switchMode_ok h
    have out := bankSwap_outside p (modeField newMode) c
    have hreg : ∀ j : Fin 16, j.val < 8 ∨ j = 15 →
        (bankSwap p (modeField newMode) c).reg j = c.reg j := by
      rintro j (hj | rfl)
      · exact out.low j hj
      · exact out.pc
    exact ⟨hreg, out.pI, out.pIA, out.nFA, fun k hk => bankSwap_cpsr_getLsbD p _ c hk, out.spsrs, out.waiting,
      out.pending, out.vectorBase, out.handles, out.memory, out.halted, out.initialised⟩

end Sys2Proof.Machine
end

section
/-! The condition evaluator: the two conditions the document states itself (42_condition.md R171, R186). -/

namespace Sys2Proof.Machine

/-- The Z bit of the flags nibble is bit 30 of the status word (42_condition.md R170, R171). -/
theorem passes_eq (cpsr : Word) : passes .eq cpsr = cpsr.getLsbD 30 :=
  getLsbD_flagsNibble cpsr 2 (by decide)

@[simp] theorem passes_nv (cpsr : Word) : passes .nv cpsr = false := rfl

/-- The class of an A32 word, from the condition its condition field names (30_encoding.md R91, R100). -/
theorem decodeLatch_a32_of_condField {w : Word} {c : Cond} (h : condField w = fieldOfCond c) :
    decodeLatch false w = Instr.a32 c (opHiField w) (midField w) (opLoField w) (lowField w) := by
  rw [decodeLatch, decodeA32, h, condOfField_fieldOfCond]

/-- Settles O6: EQ reads the Z bit and nothing else. -/
theorem equalPassesExactlyWhenZ : Obligations.EqualPassesExactlyWhenZ :=
  ⟨rfl, fun cpsr => by rw [passes_eq]⟩

/-- Settles O9: a word with bits 31:28 all ones is of class A32.NV, whose condition fails whatever the flags, so its
handler index is never consulted. -/
theorem reservedConditionIsAlwaysSkipped : Obligations.ReservedConditionIsAlwaysSkipped := by
  refine ⟨passes_nv, fun w s hw => ?_⟩
  have hdec : decodeLatch false w = Instr.a32 .nv (opHiField w) (midField w) (opLoField w) (lowField w) :=
    decodeLatch_a32_of_condField hw
  refine ⟨⟨_, _, _, _, hdec⟩, ?_⟩
  rw [hdec]
  exact exec_a32_failed (passes_nv s.cur.cpsr)

end Sys2Proof.Machine
end

section
/-! Dispatch: the fixed answers of a step that runs nothing, and the closing prefetch and cost of every step that runs or
skips an instruction (43_dispatch.md R201, R202, R208, R209). -/

namespace Sys2Proof.Machine

/-! ### Steps that run nothing -/

/-- The debug halt comes before every other phase but the never-reset check (43_dispatch.md R200, R201). -/
theorem stepCore_debugHalted {s : State} (hi : s.cur.initialised = true)
    (ha : s.platform.debugAttached.get s.current = true) (hh : s.cur.debugHalted = true) :
    stepCore s = .next { s with result := .cost Config.debugHaltCost } := by
  rw [stepCore, if_neg (by simp [hi]), if_pos ⟨ha, hh⟩]

/-- The halt comes before the pending request is looked at (43_dispatch.md R200, R202). -/
theorem stepCore_idle {s : State} (hi : s.cur.initialised = true)
    (hd : (s.platform.debugAttached.get s.current && s.cur.debugHalted) = false)
    (hw : s.cur.waitingForInterrupt = true) :
    stepCore s = .next { s with result := .cost Config.idleCost } := by
  have hd' : ¬(s.platform.debugAttached.get s.current = true ∧ s.cur.debugHalted = true) := by
    rw [← Bool.and_eq_true, hd]
    decide
  rw [stepCore, if_neg (by simp [hi]), if_neg hd', if_pos hw]

/-- Settles O45: what an idle step answers is a state whose own step is idle again, as the result is no part of a Core
State. -/
theorem haltedStepIsIdle : Obligations.HaltedStepIsIdle := by
  intro s hi hd hw
  exact ⟨stepCore_idle hi hd hw, stepCore_idle (s := { s with result := .cost Config.idleCost }) hi hd hw⟩

/-- Settles O46: the debug halt is the first branch a reset core meets. -/
theorem debugHaltedStepIsANoOp : Obligations.DebugHaltedStepIsANoOp := fun _ hi ha hh => stepCore_debugHalted hi ha hh

/-! ### The closing prefetch -/

/-- The cost of a prefetch is the fetch cost at the address that becomes current, in the width of the T it leaves
(41_prefetch.md R152). -/
theorem prefetchCost_eq_fetchCost (pf : Platform) (p : CoreId) (m : SharedMemory) (c : Core) :
    prefetchCost p c = Config.fetchCost p (Config.region p (prefetched pf p m c).pIA)
      (fetchWidth (flagT (prefetched pf p m c).cpsr)) := rfl

/-- The latch after a prefetch, by the address and T it leaves (41_prefetch.md R150, R151). -/
theorem prefetched_pI (pf : Platform) (p : CoreId) (m : SharedMemory) (c : Core) :
    (prefetched pf p m c).pI =
      fetchLatched pf p m (flagT (prefetched pf p m c).cpsr) (prefetched pf p m c).pIA := rfl

/-- The memory after a prefetch, by the address and T it leaves (20_memory.md R67). -/
theorem prefetchedMem_eq_fetchLeaves (pf : Platform) (p : CoreId) (m : SharedMemory) (c : Core) :
    prefetchedMem pf p m c =
      fetchLeaves pf p m (flagT (prefetched pf p m c).cpsr) (prefetched pf p m c).pIA := rfl

/-- What the closing prefetch of a step starts from, and the handler's cost: the core and memory as they were and 0 where
the instruction was skipped, what its handler left where it ran (43_dispatch.md R204 to R206). -/
inductive LeavesBeforePrefetch (s : State) : Instr → Core → SharedMemory → Nat → Prop
  | skipped {k : Cond} {opHi : BitVec 8} {mid : Nat} {opLo : BitVec 4} {low : Nat} (hk : passes k s.cur.cpsr = false) :
      LeavesBeforePrefetch s (Instr.a32 k opHi mid opLo low) s.cur s.mem 0
  | executed {k : Cond} {opHi : BitVec 8} {mid : Nat} {opLo : BitVec 4} {low : Nat} {r : HandlerRun}
      (hk : passes k s.cur.cpsr = true) (hr : runHandler32 s (index32 opHi opLo) = .ok r) :
      LeavesBeforePrefetch s (Instr.a32 k opHi mid opLo low) r.core r.mem r.cycles
  | compressed {op16 : BitVec 10} {low : Nat} {r : HandlerRun} (hr : runHandler16 s op16 = .ok r) :
      LeavesBeforePrefetch s (.t16 op16 low) r.core r.mem r.cycles

/-- Every instruction that completes ends with one prefetch from what it left, at the cost 1 plus its handler's plus that
of the prefetch (43_dispatch.md R208, R209). -/
theorem exec_next_closes {i : Instr} {s t : State} (h : exec i s = .next t) :
    ∃ c m n, LeavesBeforePrefetch s i c m n ∧
      t = stepResult s (prefetched s.platform s.current m c) (prefetchedMem s.platform s.current m c)
        (1 + n + prefetchCost s.current c) := by
  rcases Instr.format_cases i with ⟨k, opHi, mid, opLo, low, rfl⟩ | ⟨op16, low, rfl⟩
  · cases hk : passes k s.cur.cpsr with
    | false => exact ⟨_, _, _, .skipped hk, exec_a32_failed_next hk h⟩
    | true =>
      obtain ⟨r, hr, -, ht⟩ := exec_a32_passed_next hk h
      exact ⟨_, _, _, .executed hk hr, ht⟩
  · obtain ⟨r, hr, -, ht⟩ := exec_t16_next h
    exact ⟨_, _, _, .compressed hr, ht⟩

/-- Settles O16: the pipeline lag is the closing prefetch's own, and what it started from is one of three. -/
theorem everyInstructionEndsWithThePrefetch : Obligations.EveryInstructionEndsWithThePrefetch := by
  intro i s t h
  obtain ⟨c, m, n, hleaves, rfl⟩ := exec_next_closes h
  obtain ⟨hnFA, hr15, -⟩ := prefetched_lag s.platform s.current m c
  simp only [stepResult_cur, stepResult_mem]
  refine ⟨hnFA, hr15, c, m, rfl, prefetched_pI .., prefetchedMem_eq_fetchLeaves .., ?_⟩
  cases hleaves with
  | skipped hk => exact .inl ⟨_, _, _, _, _, rfl, hk, rfl, rfl⟩
  | executed hk hr => exact .inr (.inl ⟨_, _, _, _, _, _, rfl, hk, hr, rfl, rfl⟩)
  | compressed hr => exact .inr (.inr ⟨_, _, _, rfl, hr, rfl, rfl⟩)

/-! ### The cost -/

/-- The result of a completed step, in terms of the instruction that became current (43_dispatch.md R209). -/
theorem stepResult_prefetched_result {s t : State} {c : Core} {m : SharedMemory} {n : Nat}
    (h : t = stepResult s (prefetched s.platform s.current m c) (prefetchedMem s.platform s.current m c)
      (1 + n + prefetchCost s.current c)) :
    t.result = .cost (1 + n +
      Config.fetchCost s.current (Config.region s.current t.cur.pIA) (fetchWidth (flagT t.cur.cpsr))) := by
  rw [h, stepResult_result, stepResult_cur, ← prefetchCost_eq_fetchCost]

/-- Settles O17: a handler's run is a function of the state, so the run the cost names is the one that was completed. -/
theorem stepCostIsBaseHandlerAndFetch : Obligations.StepCostIsBaseHandlerAndFetch := by
  refine ⟨fun k opHi mid opLo low s t h => ⟨fun hk => ?_, fun r hk hr => ?_⟩, fun op16 low s t r h hr => ?_,
    fun s hi => ⟨fun ha hh => ?_, fun hd hw => ?_⟩⟩
  · exact stepResult_prefetched_result (exec_a32_failed_next hk h)
  · obtain ⟨r', hr', -, ht⟩ := exec_a32_passed_next hk h
    cases hr'.symm.trans hr
    exact stepResult_prefetched_result ht
  · obtain ⟨r', hr', -, ht⟩ := exec_t16_next h
    cases hr'.symm.trans hr
    exact stepResult_prefetched_result ht
  · exact ⟨_, stepCore_debugHalted hi ha hh, rfl⟩
  · exact ⟨_, stepCore_idle hi hd hw, rfl⟩

end Sys2Proof.Machine
end

section
/-! Taking an interrupt: a masked entry, and the saved status an accepted one leaves (60_exceptions.md R242, R245). -/

namespace Sys2Proof.Machine

/-- A saved status register after a write to one of them (10_state.md R36). -/
theorem SpsrFile.get_set (f : SpsrFile) (slot other : SpsrSlot) (v : Word) :
    (f.set slot v).get other = if other = slot then v else f.get other := by
  cases slot <;> cases other <;> rfl

/-- A masked entry is answered before the mode switch (60_exceptions.md R242). -/
theorem enterInterrupt_masked {pf : Platform} {p : CoreId} {m : SharedMemory} {c : Core} (hi : c.initialised = true)
    (hI : flagI c.cpsr = true) : enterInterrupt pf p m c = .ok (false, c, m) := by
  rw [enterInterrupt, if_neg (by simp [hi]), if_pos hI]

/-- Settles O37: the test of I comes before every phase of entry that writes. -/
theorem maskedInterruptEntryChangesNothing : Obligations.MaskedInterruptEntryChangesNothing :=
  fun _ _ _ _ hi hI => enterInterrupt_masked hi hI

/-- Settles O39: entry sets the `irq` slot of the saved status registers as they were, which neither the mode switch
before it nor the prefetch after it writes. -/
theorem entrySavesTheStatusWordInTheIrqSlot : Obligations.EntrySavesTheStatusWordInTheIrqSlot := by
  intro pf p m m' c d h
  obtain ⟨-, -, rfl, -⟩ := enterInterrupt_accepted h
  have hset : (prefetched pf p m (irqEntryWrites c (bankSwap p 0x12 c))).spsrs = c.spsrs.set .irq c.cpsr :=
    entry_spsrs pf p m c
  rw [hset]
  refine ⟨?_, fun slot hs => ?_⟩
  · rw [SpsrFile.get_set, if_pos rfl]
  · rw [SpsrFile.get_set, if_neg hs]

end Sys2Proof.Machine
end

section
/-! Reset as full reinitialization: what its writes keep of the core from before, and what its prefetch does not read
(70_reset_and_hazards.md R292, R294). -/

namespace Sys2Proof.Machine

/-- A prefetch overwrites the latch and does not read it, whether it fetches or faults (41_prefetch.md R150, R151,
R156). -/
theorem prefetch_with_latch (pf : Platform) (p : CoreId) (m : SharedMemory) (c : Core) (v a : Word) :
    prefetch pf p m { c with pI := v, pIA := a } = prefetch pf p m c := by
  cases h : fetchAllowed pf c with
  | true =>
    have h' : fetchAllowed pf { c with pI := v, pIA := a } = true := h
    rw [prefetch_of_allowed h, prefetch_of_allowed h']
    rfl
  | false =>
    have h' : fetchAllowed pf { c with pI := v, pIA := a } = false := h
    rw [prefetch_of_not_allowed h, prefetch_of_not_allowed h']

/-- Of the core from before, the writes of reset keep the latch, the memory interface and the debug halt: where the last
two agree, what they leave differs in the latch alone (70_reset_and_hazards.md R292). -/
theorem resetWrites_eq_with_latch (p : CoreId) (vectorBase entry : Word) {c d : Core}
    (hmem : c.memoryInterface = d.memoryInterface) (hdbg : c.debugHalted = d.debugHalted) :
    resetWrites p vectorBase entry c = { resetWrites p vectorBase entry d with pI := c.pI, pIA := c.pIA } := by
  simp only [resetWrites, hmem, hdbg]

/-- Settles O51: what reset's own writes keep of the latch, its prefetch overwrites unread. -/
theorem resetDiscardsWhatWasBefore : Obligations.ResetDiscardsWhatWasBefore := by
  intro pf p m entry c d hmem hdbg
  rw [resetCore, resetCore, resetWrites_eq_with_latch p _ entry hmem hdbg, prefetch_with_latch]

end Sys2Proof.Machine
end

section
/-! The encoding: decoder and encoder undo each other, on latched words and on bytes in either order, and the dispatch
index of a word (30_encoding.md sections 1, 3 and 5). -/

namespace Sys2Proof

/-! ### Decoding what was encoded -/

/-- The fields of an encoded A32 word name its class and operands again (30_encoding.md R91). -/
theorem decodeA32_encodeA32 (c : Cond) (opHi : BitVec 8) {mid : Nat} (opLo : BitVec 4) {low : Nat}
    (h : a32OperandsFit mid low = true) :
    decodeA32 (encodeA32 c opHi mid opLo low) = Instr.a32 c opHi mid opLo low := by
  simp only [a32OperandsFit, Bool.and_eq_true, decide_eq_true_eq] at h
  obtain ⟨hmid, hlow⟩ := h
  rw [decodeA32, condField_encodeA32, condOfField_fieldOfCond, opHiField_encodeA32, midField_encodeA32 _ _ _ _ _ hmid,
    opLoField_encodeA32, lowField_encodeA32 _ _ _ _ _ hlow]

/-- The same of a T16 halfword (30_encoding.md R93). -/
theorem decodeT16_encodeT16 (op16 : BitVec 10) {low : Nat} (h : t16OperandsFit low = true) :
    decodeT16 (encodeT16 op16 low) = .t16 op16 low := by
  rw [decodeT16, op16Field_encodeT16, low16Field_encodeT16 _ _ (by simpa [t16OperandsFit] using h)]

theorem decodeLatch_encode {i : Instr} (h : i.wellFormed = true) : decodeLatch i.compressed (encode i) = i := by
  rcases Machine.Instr.format_cases i with ⟨c, opHi, mid, opLo, low, rfl⟩ | ⟨op16, low, rfl⟩
  · rw [wellFormed_a32] at h
    rw [compressed_a32, encode_a32]
    exact decodeA32_encodeA32 c opHi opLo h
  · exact decodeT16_encodeT16 op16 h

/-- Settles O1: the fields read from an encoded word are the ones it was put together from. -/
theorem decodeOfEncodeIsTheInstruction : Obligations.DecodeOfEncodeIsTheInstruction := fun _ h => decodeLatch_encode h

/-! ### Encoding what was decoded -/

@[simp] theorem compressed_decodeLatch (t : Bool) (w : Word) : (decodeLatch t w).compressed = t := by
  cases t with
  | false => exact compressed_a32 ..
  | true => rfl

/-- A decoded instruction's carried bits fit their places, as they were cut from a word (30_encoding.md R97, R98). -/
theorem wellFormed_decodeLatch (t : Bool) (w : Word) : (decodeLatch t w).wellFormed = true := by
  cases t with
  | false =>
    have hmid : midField w < 4096 := BitVec.isLt _
    have hlow : lowField w < 16 := BitVec.isLt _
    rw [decodeLatch, decodeA32, wellFormed_a32]
    simp [a32OperandsFit, hmid, hlow]
  | true =>
    have hlow : low16Field w < 64 := BitVec.isLt _
    simp [decodeLatch, decodeT16, Instr.wellFormed, t16OperandsFit, hlow]

/-- The five fields of a word side by side are the word (30_encoding.md R91). -/
theorem append_fields_a32 (w : Word) :
    w.extractLsb' 28 4 ++ w.extractLsb' 20 8 ++ w.extractLsb' 8 12 ++ w.extractLsb' 4 4 ++ w.extractLsb' 0 4 = w := by
  apply BitVec.eq_of_getLsbD_eq
  intro i hi
  simp only [BitVec.getLsbD_append, BitVec.getLsbD_extractLsb']
  repeat' split
  all_goals
    rw [decide_eq_true (by omega), Bool.true_and]
    congr 1
    omega

/-- The two fields of a halfword side by side are its low sixteen bits (30_encoding.md R93). -/
theorem append_fields_t16 (w : Word) : (w.extractLsb' 6 10 ++ w.extractLsb' 0 6 : Half) = w.setWidth 16 := by
  apply BitVec.eq_of_getLsbD_eq
  intro i hi
  simp only [BitVec.getLsbD_append, BitVec.getLsbD_extractLsb', BitVec.getLsbD_setWidth, hi, decide_true, Bool.true_and]
  split
  all_goals
    rw [decide_eq_true (by omega), Bool.true_and]
    congr 1
    omega

/-- A word with nothing above bit 15 is its low half, zero-extended (10_state.md R38). -/
theorem setWidth_half_of_high_zero {w : Word} (h : w.extractLsb' 16 16 = 0#16) : (w.setWidth 16).setWidth 32 = w := by
  apply BitVec.eq_of_getLsbD_eq
  intro i hi
  by_cases hlt : i < 16
  · simp [hi, hlt]
  · have hbit : (w.extractLsb' 16 16).getLsbD (i - 16) = false := by rw [h]; simp
    rw [BitVec.getLsbD_extractLsb', decide_eq_true (by omega), Bool.true_and,
      show 16 + (i - 16) = i by omega] at hbit
    simp [BitVec.getLsbD_setWidth, hlt, hbit]

theorem encode_decodeA32 (w : Word) : encode (decodeA32 w) = w := by
  rw [decodeA32, encode_a32, encodeA32, fieldOfCond_condOfField]
  simp only [condField, opHiField, midField, opLoField, lowField, BitVec.ofNat_toNat, BitVec.setWidth_eq]
  exact append_fields_a32 w

theorem encode_decodeT16 (w : Word) : encode (decodeT16 w) = (w.setWidth 16).setWidth 32 := by
  simp only [decodeT16, encode, encodeT16, op16Field, low16Field, BitVec.ofNat_toNat, BitVec.setWidth_eq,
    append_fields_t16]

/-- Settles O2: the fields the decoder reads cover every bit of the word, or of the halfword. -/
theorem encodeOfDecodeIsTheWord : Obligations.EncodeOfDecodeIsTheWord := by
  refine ⟨fun w => ⟨wellFormed_decodeLatch false w, compressed_decodeLatch false w, encode_decodeA32 w⟩,
    fun w h => ⟨wellFormed_decodeLatch true w, compressed_decodeLatch true w, ?_⟩⟩
  exact (encode_decodeT16 w).trans (setWidth_half_of_high_zero h)

/-! ### Bytes -/

theorem decode_wordBytes (order : ByteOrder) (w : Word) (rest : List Byte) :
    decode false order (wordBytes order w ++ rest) = .ok (decodeA32 w, rest) := by
  cases order <;> simp [wordBytes, decode, assembleWord, append_bytes_word]

theorem decode_halfBytes (order : ByteOrder) (w : Word) (rest : List Byte) :
    decode true order (halfBytes order w ++ rest) = .ok (decodeT16 ((w.setWidth 16).setWidth 32), rest) := by
  cases order <;> simp [halfBytes, decode, assembleHalf, append_bytes_half]

theorem decode_encodeBytes (order : ByteOrder) {i : Instr} (rest : List Byte) (h : i.wellFormed = true) :
    decode i.compressed order (encodeBytes order i ++ rest) = .ok (i, rest) := by
  have hd := decodeLatch_encode h
  rcases Machine.Instr.format_cases i with ⟨c, opHi, mid, opLo, low, rfl⟩ | ⟨op16, low, rfl⟩
  · rw [compressed_a32] at hd
    rw [encodeBytes, compressed_a32]
    exact (decode_wordBytes ..).trans (congrArg (fun i => Except.ok (i, rest)) hd)
  · have hb := decode_halfBytes order (encodeT16 op16 low) rest
    rw [setWidth_half_of_high_zero (encodeT16_high op16 low)] at hb
    exact hb.trans (congrArg (fun i => Except.ok (i, rest)) hd)

/-- How many bytes the format needs is all the decoder asks of them (30_encoding.md R90, R98). -/
theorem decode_of_length (t : Bool) (order : ByteOrder) (bytes : List Byte) :
    (bytes.length < (if t then 2 else 4) →
      decode t order bytes = .error (.truncated (if t then 2 else 4) bytes.length)) ∧
    ((if t then 2 else 4) ≤ bytes.length → ∃ i, decode t order bytes = .ok (i, bytes.drop (if t then 2 else 4)) ∧
      i.compressed = t) := by
  cases t with
  | false =>
    match bytes with
    | [] | [_] | [_, _] | [_, _, _] => exact ⟨fun _ => rfl, fun h => absurd h (by simp)⟩
    | _ :: _ :: _ :: _ :: _ => exact ⟨fun h => absurd h (by simp), fun _ => ⟨_, rfl, compressed_decodeLatch false _⟩⟩
  | true =>
    match bytes with
    | [] | [_] => exact ⟨fun _ => rfl, fun h => absurd h (by simp)⟩
    | _ :: _ :: _ => exact ⟨fun h => absurd h (by simp), fun _ => ⟨_, rfl, compressed_decodeLatch true _⟩⟩

/-- Settles O3: either byte order puts a word's bytes together again, and the decoder's only other answer is too few
bytes. -/
theorem decoderReadsBytesAndRefusesOnlyTooFew : Obligations.DecoderReadsBytesAndRefusesOnlyTooFew :=
  ⟨fun order _ rest h => decode_encodeBytes order rest h, decode_of_length⟩

/-- Settles O4: each of the six words by evaluating the decoder on it. -/
theorem specWordsDecodeAsWritten : Obligations.SpecWordsDecodeAsWritten := by
  unfold Obligations.SpecWordsDecodeAsWritten
  decide

end Sys2Proof

namespace Sys2Proof.Machine

/-! ### The dispatch index -/

/-- Fields side by side, as numbers. -/
theorem toNat_append_eq_mul_add {n k : Nat} (x : BitVec n) (y : BitVec k) :
    (x ++ y).toNat = x.toNat * 2 ^ k + y.toNat := by
  rw [BitVec.toNat_append, ← Nat.shiftLeft_add_eq_or_of_lt y.isLt, Nat.shiftLeft_eq]

/-- `index32` as a number of the word (30_encoding.md R92). -/
theorem toNat_index32 (w : Word) :
    (index32 (opHiField w) (opLoField w)).toNat = (w.toNat / 2 ^ 20 % 256) * 16 + w.toNat / 16 % 16 := by
  rw [index32, toNat_append_eq_mul_add]
  rw [opHiField, opLoField, BitVec.extractLsb'_toNat, BitVec.extractLsb'_toNat, Nat.shiftRight_eq_div_pow,
    Nat.shiftRight_eq_div_pow]
  rfl

/-- `index16` as a number of the halfword (30_encoding.md R93). -/
theorem toNat_index16 (w : Word) : (index16 (op16Field w)).toNat = w.toNat / 64 % 1024 := by
  rw [index16, op16Field, BitVec.extractLsb'_toNat, Nat.shiftRight_eq_div_pow]

/-- Settles O5: the index fields of the word, in the class its condition field names. -/
theorem dispatchIndexOfTheLatchedWord : Obligations.DispatchIndexOfTheLatchedWord :=
  ⟨fun w _ h => ⟨index32 (opHiField w) (opLoField w), toNat_index32 w, exec_a32_passed h⟩,
    fun w _ => ⟨index16 (op16Field w), toNat_index16 w, rfl⟩⟩

end Sys2Proof.Machine
end

section
/-! The Register Bank Manager: what the two phases of a switch do to each register and shadow, and from it the switches
between pair groups, into and out of the fast-interrupt mode, and from and to malformed modes (40_bank_switch.md). -/

namespace Sys2Proof.Machine

/-! ### The two phases, register by register (40_bank_switch.md R122 to R124) -/

@[simp] theorem saveBank_none (c : Core) : saveBank none c = c := rfl

@[simp] theorem restoreBank_none (c : Core) : restoreBank none c = c := rfl

@[simp] theorem reg_saveBank_pair (g : PairGroup) (c : Core) (j : Fin 16) :
    (saveBank (some (.pair g)) c).reg j = c.reg j := Core.reg_setPair ..

@[simp] theorem reg_saveBank_fiq (c : Core) (j : Fin 16) : (saveBank (some .fiq) c).reg j = (exchangeFiq c).reg j := rfl

@[simp] theorem pair_saveBank_pair (g k : PairGroup) (c : Core) :
    (saveBank (some (.pair g)) c).pair k = if k = g then { r13 := c.reg 13, r14 := c.reg 14 } else c.pair k :=
  Core.setPair_pair ..

@[simp] theorem pair_saveBank_fiq (k : PairGroup) (c : Core) : (saveBank (some .fiq) c).pair k = c.pair k := by
  cases k <;> rfl

@[simp] theorem bankFiq_saveBank_pair (g : PairGroup) (c : Core) : (saveBank (some (.pair g)) c).bankFiq = c.bankFiq :=
  Core.setPair_bankFiq ..

@[simp] theorem bankFiq_saveBank_fiq (c : Core) :
    (saveBank (some .fiq) c).bankFiq =
      { r8 := c.reg 8, r9 := c.reg 9, r10 := c.reg 10, r11 := c.reg 11, r12 := c.reg 12, r13 := c.reg 13,
        r14 := c.reg 14 } := rfl

@[simp] theorem reg_restoreBank_pair (g : PairGroup) (c : Core) (j : Fin 16) :
    (restoreBank (some (.pair g)) c).reg j =
      if j = 14 then (c.pair g).r14 else if j = 13 then (c.pair g).r13 else c.reg j := by
  simp only [restoreBank, Core.reg_setReg]

@[simp] theorem reg_restoreBank_fiq (c : Core) (j : Fin 16) :
    (restoreBank (some .fiq) c).reg j =
      if j = 14 then c.bankFiq.r14 else if j = 13 then c.bankFiq.r13 else (exchangeFiq c).reg j := by
  simp only [restoreBank, Core.reg_setReg]

@[simp] theorem pair_restoreBank (g : Option Group) (k : PairGroup) (c : Core) :
    (restoreBank g c).pair k = c.pair k := by
  rcases g with _ | (g | _) <;> simp [restoreBank]

@[simp] theorem bankFiq_restoreBank_pair (g : PairGroup) (c : Core) :
    (restoreBank (some (.pair g)) c).bankFiq = c.bankFiq := rfl

@[simp] theorem bankFiq_restoreBank_fiq (c : Core) :
    (restoreBank (some .fiq) c).bankFiq =
      { r8 := c.reg 8, r9 := c.reg 9, r10 := c.reg 10, r11 := c.reg 11, r12 := c.reg 12, r13 := c.bankFiq.r13,
        r14 := c.bankFiq.r14 } := rfl

/-- A switch by the groups of the modes left and entered (40_bank_switch.md R120). -/
theorem bankSwap_of_groups {p : CoreId} {m : BitVec 5} {c : Core} {g k : Option Group}
    (hg : groupOf p (modeField c.cpsr) = g) (hk : groupOf p m = k) :
    bankSwap p m c = writeMode m (restoreBank k (saveBank g c)) := by
  rw [bankSwap, hg, hk]

/-! ### Groups and modes -/

/-- The fast-interrupt group is one mode's, of core 0 (40_bank_switch.md R121; D2, D17). -/
theorem groupOf_eq_fiq_iff : ∀ (p : CoreId) (m : BitVec 5), groupOf p m = some .fiq ↔ m = 0x11#5 ∧ p = .primary := by
  intro p m
  cases p <;> revert m <;> decide

theorem groupOf_primary_fiq : groupOf .primary 0x11#5 = some .fiq := rfl

theorem group_of_not_legalMode {p : CoreId} {m : BitVec 5} (h : legalMode p m = false) : groupOf p m = none :=
  Option.isSome_eq_false_iff.mp h |> Option.isNone_iff_eq_none.mp

/-- The legal mode values of each core (10_state.md R34; D2, D17). -/
theorem legalMode_iff : ∀ (p : CoreId) (m : BitVec 5), legalMode p m = true ↔
    (m = 0x10#5 ∨ m = 0x12#5 ∨ m = 0x13#5 ∨ m = 0x17#5 ∨ m = 0x1B#5 ∨ m = 0x1F#5 ∨ (m = 0x11#5 ∧ p = .primary)) := by
  intro p m
  cases p <;> revert m <;> decide

/-- Between modes that have a group a switch is made (40_bank_switch.md R120, R130). -/
theorem switchMode_of_groups {policy : MalformedModePolicy} {p : CoreId} {v : Word} {c : Core} {old : BitVec 5}
    {g k : Group} (e : modeField c.cpsr = old) (hg : groupOf p old = some g) (hk : groupOf p (modeField v) = some k) :
    switchMode policy p v c = .ok (old, writeMode (modeField v) (restoreBank (some k) (saveBank (some g) c))) := by
  subst e
  rw [switchMode_of_legal rfl (legalMode_of_group hg) (legalMode_of_group hk), bankSwap_of_groups hg hk]

theorem ne_link_of_val_le_twelve {j : Fin 16} (h : j.val ≤ 12) : j ≠ 13 ∧ j ≠ 14 := by
  constructor <;> (rintro rfl; exact absurd h (by decide))

theorem eq_of_val_eight_to_twelve {j : Fin 16} (h8 : 8 ≤ j.val) (h12 : j.val ≤ 12) :
    j = 8 ∨ j = 9 ∨ j = 10 ∨ j = 11 ∨ j = 12 := by
  revert j
  decide

/-! ### Switches between legal modes -/

/-- Settles O28: the shadows of the entered group are read after the left group's are written. -/
theorem switchBetweenPairGroups : Obligations.SwitchBetweenPairGroups := by
  intro policy p newMode c g k hg hk
  refine ⟨_, switchMode_of_groups rfl hg hk, ?_⟩
  have hlow : ∀ j : Fin 16, 8 ≤ j.val → j.val ≤ 12 → j ≠ 13 ∧ j ≠ 14 := fun j _ h => ne_link_of_val_le_twelve h
  refine ⟨by simp, ?_, ?_, fun j hj => by simp [hj], by simp, fun j h8 h12 => by simp [hlow j h8 h12]⟩
  · by_cases h : k = g <;> simp [h]
  · by_cases h : k = g <;> simp [h]

/-- Settles O29: the one exchange of such a switch is in the restore phase on the way in, in the save phase on the way
out. -/
theorem fastInterruptSwitchExchangesRegisters : Obligations.FastInterruptSwitchExchangesRegisters := by
  intro policy newMode c g
  refine ⟨fun hg hk => ?_, fun hg hk => ?_⟩
  · have hk' : groupOf .primary (modeField newMode) = some .fiq := by rw [hk]; exact groupOf_primary_fiq
    refine ⟨_, switchMode_of_groups rfl hg hk', ?_⟩
    simp +contextual [Core.reg_exchangeFiq]
  · refine ⟨_, switchMode_of_groups hg groupOf_primary_fiq hk, ?_⟩
    simp [Core.reg_exchangeFiq]

/-- Saving a group and restoring the same one gives every register back: the fast-interrupt group's are exchanged twice
(40_bank_switch.md R128, R129). -/
theorem reg_restoreBank_saveBank (g : Group) (c : Core) (j : Fin 16) :
    (restoreBank (some g) (saveBank (some g) c)).reg j = c.reg j := by
  cases g with
  | pair g =>
    rw [reg_restoreBank_pair, pair_saveBank_pair, if_pos rfl, reg_saveBank_pair]
    split_ifs with h14 h13
    · rw [h14]
    · rw [h13]
    · rfl
  | fiq =>
    simp only [reg_restoreBank_fiq, bankFiq_saveBank_fiq, Core.reg_exchangeFiq, reg_saveBank_fiq]
    split_ifs <;> simp [*]

/-- Settles O30: the registers are saved and restored to the same group, and the mode field is written as it was. -/
theorem sameGroupSwitchKeepsTheRegisters : Obligations.SameGroupSwitchKeepsTheRegisters := by
  intro policy p newMode c hsome heq
  obtain ⟨g, hg⟩ := Option.isSome_iff_exists.mp hsome
  refine ⟨_, switchMode_of_groups rfl hg (heq.trans hg), fun j => reg_restoreBank_saveBank g c j, fun hm => ?_, ?_⟩
  · simp [hm]
  · cases p <;> rfl

/-! ### Malformed modes -/

theorem switchMode_noopSwap (p : CoreId) (v : Word) (c : Core) :
    switchMode .noopSwap p v c = .ok (modeField c.cpsr, bankSwap p (modeField v) c) := switchMode_of_allowed rfl

theorem switchMode_fault_of_malformed {p : CoreId} {v : Word} {c : Core}
    (h : legalMode p (modeField c.cpsr) = false ∨ legalMode p (modeField v) = false) :
    switchMode .fault p v c = .error (.fault .malformedMode) := by
  have ha : switchAllowed .fault p (modeField c.cpsr) (modeField v) = false := by
    rcases h with h | h <;> simp [switchAllowed, h]
  rw [switchMode, ha]

/-- Settles O31: the phase of a mode with no group is the identity, and the other phase is the one between legal modes. -/
theorem malformedModePolicyIsFollowed : Obligations.MalformedModePolicyIsFollowed := by
  refine ⟨legalMode_iff, fun p newMode c => ⟨switchMode_fault_of_malformed, fun hc hn => ?_, ?_⟩, ?_, ?_⟩
  · exact ⟨_, switchMode_of_legal rfl hc hn⟩
  · refine ⟨_, switchMode_noopSwap p newMode c, fun g hg hn => ?_, fun g hc hg => ?_, fun hc hn => ?_⟩
    · rw [bankSwap_of_groups hg (group_of_not_legalMode hn)]
      simp
    · rw [bankSwap_of_groups (group_of_not_legalMode hc) hg]
      simp
    · rw [bankSwap_of_groups (group_of_not_legalMode hc) (group_of_not_legalMode hn)]
      rfl
  · intro newMode c hc hn
    have hg : groupOf .primary (modeField c.cpsr) = some .fiq := by rw [hc]; exact groupOf_primary_fiq
    rw [← hc]
    refine ⟨_, switchMode_noopSwap .primary newMode c, ?_⟩
    rw [bankSwap_of_groups hg (group_of_not_legalMode hn)]
    simp [Core.reg_exchangeFiq]
  · intro newMode c hc hn
    have hg : groupOf .primary (modeField newMode) = some .fiq := by rw [hn]; exact groupOf_primary_fiq
    refine ⟨_, switchMode_noopSwap .primary newMode c, ?_⟩
    rw [bankSwap_of_groups (group_of_not_legalMode hc) hg]
    simp [Core.reg_exchangeFiq]

/-! ### There and back -/

/-- The shadows of R[13] and R[14] of a group (10_state.md R26). -/
def Core.linkShadows (c : Core) : Group → BankPair
  | .pair g => c.pair g
  | .fiq => { r13 := c.bankFiq.r13, r14 := c.bankFiq.r14 }

@[simp] theorem linkShadows_setReg (c : Core) (i : Fin 16) (v : Word) (g : Group) :
    (c.setReg i v).linkShadows g = c.linkShadows g := by cases g <;> simp [Core.linkShadows]

@[simp] theorem linkShadows_writeMode (c : Core) (m : BitVec 5) (g : Group) :
    (writeMode m c).linkShadows g = c.linkShadows g := by cases g <;> simp [Core.linkShadows]

theorem linkShadows_saveBank (g k : Group) (c : Core) :
    (saveBank (some g) c).linkShadows k = if k = g then { r13 := c.reg 13, r14 := c.reg 14 } else c.linkShadows k := by
  cases g <;> cases k <;> simp [Core.linkShadows]

theorem linkShadows_restoreBank (g k : Group) (c : Core) :
    (restoreBank (some g) c).linkShadows k = c.linkShadows k := by
  cases g <;> cases k <;> simp [Core.linkShadows]

theorem link_restoreBank (g : Group) (c : Core) :
    (restoreBank (some g) c).reg 13 = (c.linkShadows g).r13 ∧
      (restoreBank (some g) c).reg 14 = (c.linkShadows g).r14 := by
  cases g <;> simp [Core.linkShadows]

/-- The shadow of one of R[8] to R[12] (10_state.md R26). -/
def FiqBank.low (b : FiqBank) (j : Fin 16) : Word :=
  if j = 8 then b.r8 else if j = 9 then b.r9 else if j = 10 then b.r10 else if j = 11 then b.r11 else b.r12

theorem reg_exchangeFiq_low (c : Core) {j : Fin 16} (h8 : 8 ≤ j.val) (h12 : j.val ≤ 12) :
    (exchangeFiq c).reg j = c.bankFiq.low j := by
  rw [Core.reg_exchangeFiq]
  rcases eq_of_val_eight_to_twelve h8 h12 with rfl | rfl | rfl | rfl | rfl <;> rfl

/-- Each phase of the fast-interrupt group puts R[8] to R[12] into their shadows and takes them from there
(40_bank_switch.md R124). -/
theorem low_fiq_phases (c : Core) {j : Fin 16} (h8 : 8 ≤ j.val) (h12 : j.val ≤ 12) :
    (saveBank (some .fiq) c).reg j = c.bankFiq.low j ∧ (saveBank (some .fiq) c).bankFiq.low j = c.reg j ∧
      (restoreBank (some .fiq) c).reg j = c.bankFiq.low j ∧ (restoreBank (some .fiq) c).bankFiq.low j = c.reg j := by
  obtain ⟨h13, h14⟩ := ne_link_of_val_le_twelve h12
  refine ⟨reg_exchangeFiq_low c h8 h12, ?_, ?_, ?_⟩
  · rcases eq_of_val_eight_to_twelve h8 h12 with rfl | rfl | rfl | rfl | rfl <;> rfl
  · rw [reg_restoreBank_fiq, if_neg h14, if_neg h13, reg_exchangeFiq_low c h8 h12]
  · rcases eq_of_val_eight_to_twelve h8 h12 with rfl | rfl | rfl | rfl | rfl <;> rfl

/-- The phases of a pair group leave R[8] to R[12] alone. -/
theorem low_restoreBank_pair (g : PairGroup) (c : Core) {j : Fin 16} (h12 : j.val ≤ 12) :
    (restoreBank (some (.pair g)) c).reg j = c.reg j := by
  obtain ⟨h13, h14⟩ := ne_link_of_val_le_twelve h12
  rw [reg_restoreBank_pair, if_neg h14, if_neg h13]

/-- A switch from group `g` to group `k` and back gives R[13] and R[14] back, from any core `d` in which the shadows of `g`
are as the first switch left them (40_bank_switch.md R133). -/
theorem linkShadows_there_and_back {g k : Group} (hne : g ≠ k) {c d : Core}
    (hd : d.linkShadows g = (restoreBank (some k) (saveBank (some g) c)).linkShadows g) :
    (restoreBank (some g) (saveBank (some k) d)).reg 13 = c.reg 13 ∧
      (restoreBank (some g) (saveBank (some k) d)).reg 14 = c.reg 14 := by
  have hheld : (saveBank (some k) d).linkShadows g = { r13 := c.reg 13, r14 := c.reg 14 } := by
    rw [linkShadows_saveBank, if_neg hne, hd, linkShadows_restoreBank, linkShadows_saveBank, if_pos rfl]
  obtain ⟨h13, h14⟩ := link_restoreBank g (saveBank (some k) d)
  rw [hheld] at h13 h14
  exact ⟨h13, h14⟩

/-- The same of R[8] to R[12] where one of the two is the fast-interrupt group, from any core `d` in which that group's
shadows are as the first switch left them (40_bank_switch.md R133, R134). -/
theorem low_there_and_back {g k : Group} (hne : g ≠ k) (hfiq : g = .fiq ∨ k = .fiq) {c d : Core} {j : Fin 16}
    (h8 : 8 ≤ j.val) (h12 : j.val ≤ 12)
    (hd : d.bankFiq = (restoreBank (some k) (saveBank (some g) c)).bankFiq) :
    (restoreBank (some g) (saveBank (some k) d)).reg j = c.reg j := by
  cases g with
  | fiq =>
    cases k with
    | fiq => exact absurd rfl hne
    | pair k =>
      rw [(low_fiq_phases _ h8 h12).2.2.1, bankFiq_saveBank_pair, hd, bankFiq_restoreBank_pair,
        (low_fiq_phases c h8 h12).2.1]
  | pair g =>
    cases k with
    | pair k => rcases hfiq with h | h <;> cases h
    | fiq =>
      rw [low_restoreBank_pair g _ h12, (low_fiq_phases _ h8 h12).1, hd, (low_fiq_phases _ h8 h12).2.2.2,
        reg_saveBank_pair]

/-- Settles O32: the shadows that hold the first mode's registers are no storage of the second mode's. -/
theorem bankIsolation : Obligations.BankIsolation := by
  intro policy p m1 m2 c a13 a14 b13 b14 a8 b8 j hm h1 h2 hne h8 h12
  obtain ⟨g, hg⟩ := group_of_legalMode h1
  obtain ⟨k, hk⟩ := group_of_legalMode h2
  have hgk : g ≠ k := by
    rintro rfl
    exact hne (hg.trans hk.symm)
  have hlink : (13 : Fin 16) ≠ j ∧ (14 : Fin 16) ≠ j := (ne_link_of_val_le_twelve h12).imp Ne.symm Ne.symm
  have hm1 : modeField (((c.setReg 13 a13).setReg 14 a14).setReg j a8).cpsr = modeField m1 := hm
  have h13 : (((c.setReg 13 a13).setReg 14 a14).setReg j a8).reg 13 = a13 := by simp [Core.reg_setReg, hlink]
  have h14 : (((c.setReg 13 a13).setReg 14 a14).setReg j a8).reg 14 = a14 := by simp [Core.reg_setReg, hlink]
  have hj : (((c.setReg 13 a13).setReg 14 a14).setReg j a8).reg j = a8 := Core.reg_setReg_same ..
  generalize ((c.setReg 13 a13).setReg 14 a14).setReg j a8 = first at hm1 h13 h14 hj ⊢
  refine ⟨_, _, switchMode_of_groups hm1 hg hk, switchMode_of_groups (by simp) hk hg, ?_⟩
  simp only [Core.reg_writeMode]
  refine ⟨?_, ?_, fun hfiq => ?_⟩
  · exact (linkShadows_there_and_back (c := first) hgk (by simp)).1.trans h13
  · exact (linkShadows_there_and_back (c := first) hgk (by simp)).2.trans h14
  · rw [hg, hk, Option.some_inj, Option.some_inj] at hfiq
    exact (low_there_and_back (c := first) hgk hfiq h8 h12 (by simp)).trans hj

/-- Settles O33: the way back exchanges the registers with what the way in put into the shadows. -/
theorem fastInterruptRoundTrip : Obligations.FastInterruptRoundTrip := by
  intro policy m c hm hne hlegal
  obtain ⟨g, hg⟩ := group_of_legalMode hlegal
  have hgfiq : g ≠ .fiq := by
    rintro rfl
    exact hne ((groupOf_eq_fiq_iff .primary _).mp hg).1
  refine ⟨_, _, switchMode_of_groups hm hg groupOf_primary_fiq, switchMode_of_groups (by simp; rfl) groupOf_primary_fiq hg,
    fun j h8 h12 => ?_, ?_⟩
  · exact low_there_and_back hgfiq (.inr rfl) h8 h12 rfl
  · cases g with
    | fiq => exact absurd rfl hgfiq
    | pair g => simp [Core.reg_exchangeFiq]

end Sys2Proof.Machine
end

section
/-! The Fetch/Prefetch Unit: a prefetch at an aligned and at a misaligned address, by T and by the collaborator, and what
it does not read or write (41_prefetch.md). -/

namespace Sys2Proof.Machine

/-! ### What a prefetch leaves alone -/

theorem reg_prefetched (pf : Platform) (p : CoreId) (m : SharedMemory) (c : Core) {j : Fin 16} (hj : j ≠ 15) :
    (prefetched pf p m c).reg j = c.reg j := by rw [prefetched, Core.reg_fillLatch, if_neg hj]

@[simp] theorem pair_prefetched (pf : Platform) (p : CoreId) (m : SharedMemory) (c : Core) (g : PairGroup) :
    (prefetched pf p m c).pair g = c.pair g := by cases g <;> rfl

/-- Outside the latch, nFA and R[15] a prefetch writes nothing (41_prefetch.md R159). -/
theorem prefetched_restored (pf : Platform) (p : CoreId) (m : SharedMemory) (c : Core) :
    { prefetched pf p m c with pI := c.pI, pIA := c.pIA, nFA := c.nFA, regs := c.regs } = c := rfl

/-- Where plain memory answers the fetch, a prefetch leaves memory as it was (20_memory.md R62). -/
theorem prefetchedMem_plain {pf : Platform} (p : CoreId) (m : SharedMemory) {c : Core} (h : pf.collaborator = .plain)
    (k : fetchAligned (flagT c.cpsr) c.nFA = true) : prefetchedMem pf p m c = m := (fetch_plain h k).2

/-! ### Aligned and misaligned addresses (41_prefetch.md R156) -/

theorem fetchAligned_iff (t : Bool) (a : Word) : fetchAligned t a = true ↔ a.toNat % (if t then 2 else 4) = 0 := by
  cases t with
  | false => exact fetchAligned_word a
  | true => exact fetchAligned_half a

/-- What a prefetch that is made leaves, in the width of a known T (41_prefetch.md R150, R151, R152, R154). -/
theorem prefetch_by_T {pf : Platform} (p : CoreId) (m : SharedMemory) {c : Core} {t : Bool} (ht : flagT c.cpsr = t)
    (h : fetchAllowed pf c = true) :
    prefetch pf p m c =
      .ok (c.fillLatch (fetchLatched pf p m t c.nFA) (instrWidth t), fetchLeaves pf p m t c.nFA,
        Config.costOfFetch p c.nFA (fetchWidth t)) := by
  subst ht
  exact prefetch_of_allowed h

/-- R[15] after the latch is filled is two instructions further (10_state.md R24). -/
theorem reg_pc_fillLatch (c : Core) (v w : Word) : (c.fillLatch v w).reg 15 = c.nFA + (w + w) := by
  rw [Core.reg_fillLatch, if_pos rfl, BitVec.add_assoc]

/-- The effect and frame of a prefetch at an aligned address, in the width of T, by the collaborator (41_prefetch.md R150,
R151, R152; 20_memory.md R62, R67). -/
theorem prefetch_aligned_effect (pf : Platform) (p : CoreId) (m : SharedMemory) {c : Core} {t : Bool}
    (ht : flagT c.cpsr = t) (h : c.nFA.toNat % (if t then 2 else 4) = 0) :
    ∃ d m', prefetch pf p m c = .ok (d, m', Config.costOfFetch p c.nFA (fetchWidth t)) ∧
      (pf.collaborator = .plain →
        d.pI = m.bytes.load pf.byteOrder (if t then .half else .word) c.nFA ∧ m' = m) ∧
      (pf.collaborator = .oracle →
        d.pI = AccessWidth.narrow (if t then .half else .word)
          (m.answer ⟨p, .fetch, if t then .half else .word, c.nFA⟩).value ∧
        m' = m.answered ⟨p, .fetch, if t then .half else .word, c.nFA⟩ ∧ m'.asked = m.asked + 1) ∧
      d.pIA = c.nFA ∧ d.nFA = c.nFA + instrWidth t ∧ d.reg 15 = c.nFA + (instrWidth t + instrWidth t) ∧
      (∀ j : Fin 16, j ≠ 15 → d.reg j = c.reg j) ∧
      { d with pI := c.pI, pIA := c.pIA, nFA := c.nFA, regs := c.regs } = c := by
  have ha : fetchAligned t c.nFA = true := (fetchAligned_iff t c.nFA).mpr h
  refine ⟨_, _, prefetch_by_T p m ht (fetchAllowed_of_aligned (by rw [ht]; exact ha)), fun hp => fetch_plain hp ha,
    fun ho => ?_, rfl, rfl, reg_pc_fillLatch .., fun j hj => by rw [Core.reg_fillLatch, if_neg hj], rfl⟩
  obtain ⟨hvalue, hmem⟩ := fetch_oracle (p := p) (m := m) (t := t) (a := c.nFA) (.inl ho)
  exact ⟨hvalue, hmem, congrArg SharedMemory.asked hmem⟩

/-- Settles O34: T fixes the width of the one access, and the address is aligned for it. -/
theorem prefetchFillsTheLatchFromMemory : Obligations.PrefetchFillsTheLatchFromMemory :=
  fun pf p m _ => ⟨fun ht h => prefetch_aligned_effect pf p m ht h, fun ht h => prefetch_aligned_effect pf p m ht h⟩

/-- Settles O35: no memory is plain at a misaligned address, so a fetch that is passed through is the oracle's. -/
theorem misalignedPrefetchFollowsThePolicy : Obligations.MisalignedPrefetchFollowsThePolicy := by
  intro pf p m c h
  have ha : fetchAligned (flagT c.cpsr) c.nFA = false := by rwa [← Bool.not_eq_true, fetchAligned_iff]
  refine ⟨fun hpol => prefetch_of_not_allowed (by rw [fetchAllowed, hpol]; exact ha), fun hpol => ?_⟩
  obtain ⟨hv, hm⟩ := fetch_oracle (pf := pf) (p := p) (m := m) (.inr ha)
  have hok := prefetch_of_allowed (p := p) (m := m) (c := c) (by rw [fetchAllowed, hpol] : fetchAllowed pf c = true)
  rw [show prefetchedMem pf p m c = _ from hm] at hok
  exact ⟨_, _, hok, hv, rfl, rfl, (prefetched_lag pf p m c).2.1, fun j hj => reg_prefetched pf p m c hj,
    prefetched_restored pf p m c⟩

/-! ### What a prefetch does not read -/

theorem fillLatch_setReg_pc (c : Core) (x v w : Word) : (c.setReg 15 x).fillLatch v w = c.fillLatch v w := by
  simp [Core.fillLatch, Core.setReg]

theorem prefetch_setReg_pc (pf : Platform) (p : CoreId) (m : SharedMemory) (c : Core) (v : Word) :
    prefetch pf p m (c.setReg 15 v) = prefetch pf p m c := by
  have hsame : fetchAllowed pf (c.setReg 15 v) = fetchAllowed pf c := fetchAllowed_congr rfl rfl
  cases h : fetchAllowed pf c with
  | true =>
    rw [prefetch_of_allowed h, prefetch_of_allowed (hsame.trans h), prefetched, fillLatch_setReg_pc]
    rfl
  | false => rw [prefetch_of_not_allowed h, prefetch_of_not_allowed (hsame.trans h)]

/-- Settles O22: the closing prefetch overwrites pI, pIA and R[15] and reads none of them. -/
theorem latchAndR15WritesHaveNoEffect : Obligations.LatchAndR15WritesHaveNoEffect := by
  intro s c m n x y v
  rw [completeStep, completeStep, prefetch_setReg_pc, prefetch_with_latch]

end Sys2Proof.Machine
end

section
/-! The dispatch classes: what an instruction completes from, where it stops, and its frame (43_dispatch.md). -/

namespace Sys2Proof.Machine

/-! ### What an instruction completes from, and where its handler stops it -/

theorem exec_of_leaves {s : State} {i : Instr} {c : Core} {m : SharedMemory} {n : Nat}
    (h : LeavesBeforePrefetch s i c m n) : exec i s = completeStep s c m n := by
  cases h with
  | skipped hk => exact exec_a32_failed hk
  | executed hk hr => rw [exec_a32_passed hk, hr, afterHandler]
  | compressed hr => rw [exec_t16, dispatchT16, index16, hr, afterHandler]

/-- A handler's own stop (43_dispatch.md R204, R206). -/
inductive HandlerStops (s : State) : Instr → Stop → Prop
  | executed {k : Cond} {opHi : BitVec 8} {mid : Nat} {opLo : BitVec 4} {low : Nat} {e : Stop}
      (hk : passes k s.cur.cpsr = true) (he : runHandler32 s (index32 opHi opLo) = .error e) :
      HandlerStops s (Instr.a32 k opHi mid opLo low) e
  | compressed {op16 : BitVec 10} {low : Nat} {e : Stop} (he : runHandler16 s op16 = .error e) :
      HandlerStops s (.t16 op16 low) e

theorem exec_of_stops {s : State} {i : Instr} {e : Stop} (h : HandlerStops s i e) : exec i s = stopped e := by
  cases h with
  | executed hk he => rw [exec_a32_passed hk, he, afterHandler]
  | compressed he => rw [exec_t16, dispatchT16, index16, he, afterHandler]

/-- Every instruction is skipped, or its handler stops or runs to its end (43_dispatch.md R204 to R206). -/
theorem leaves_or_stops (i : Instr) (s : State) :
    (∃ c m n, LeavesBeforePrefetch s i c m n) ∨ ∃ e, HandlerStops s i e := by
  rcases Instr.format_cases i with ⟨k, opHi, mid, opLo, low, rfl⟩ | ⟨op16, low, rfl⟩
  · cases hk : passes k s.cur.cpsr with
    | false => exact .inl ⟨_, _, _, .skipped hk⟩
    | true =>
      cases hr : runHandler32 s (index32 opHi opLo) with
      | error e => exact .inr ⟨e, .executed hk hr⟩
      | ok r => exact .inl ⟨_, _, _, .executed hk hr⟩
  · cases hr : runHandler16 s op16 with
    | error e => exact .inr ⟨e, .compressed hr⟩
    | ok r => exact .inl ⟨_, _, _, .compressed hr⟩

theorem exec_of_leaves_allowed {s : State} {i : Instr} {c : Core} {m : SharedMemory} {n : Nat}
    (h : LeavesBeforePrefetch s i c m n) (ha : fetchAllowed s.platform c = true) :
    exec i s = .next (stepResult s (prefetched s.platform s.current m c) (prefetchedMem s.platform s.current m c)
      (1 + n + prefetchCost s.current c)) := (exec_of_leaves h).trans (completeStep_of_allowed ha)

theorem exec_of_leaves_misaligned {s : State} {i : Instr} {c : Core} {m : SharedMemory} {n : Nat}
    (h : LeavesBeforePrefetch s i c m n) (ha : fetchAllowed s.platform c = false) :
    exec i s = .fault .misalignedFetch := (exec_of_leaves h).trans (completeStep_of_not_allowed ha)

/-- Settles O10: a skipped instruction completes from the core and memory as they were. -/
theorem failedConditionSkipsAndCompletes : Obligations.FailedConditionSkipsAndCompletes :=
  fun _ _ _ _ _ _ hk ha => exec_of_leaves_allowed (.skipped hk) ha

/-- Settles O12: an executed A32 instruction completes from what its handler left. -/
theorem passedConditionRunsItsHandlerAndCompletes : Obligations.PassedConditionRunsItsHandlerAndCompletes :=
  fun _ _ _ _ _ _ _ hk hr ha => exec_of_leaves_allowed (.executed hk hr) ha

/-- Settles O13: a T16 instruction completes from what its handler left. -/
theorem compressedInstructionRunsItsHandlerAndCompletes : Obligations.CompressedInstructionRunsItsHandlerAndCompletes :=
  fun _ _ _ _ hr ha => exec_of_leaves_allowed (.compressed hr) ha

/-! ### Stops -/

theorem stopped_eq_fault {e : Stop} {f : Fault} (h : stopped e = .fault f) : e = .fault f := by
  cases e with
  | fault g => cases h; rfl
  | refused r => cases h

theorem stopped_eq_refused {e : Stop} {r : Refusal} (h : stopped e = .refused r) : e = .refused r := by
  cases e with
  | fault f => cases h
  | refused g => cases h; rfl

/-- Completing a step stops for one reason alone (41_prefetch.md R156). -/
theorem completeStep_fault {s : State} {c : Core} {m : SharedMemory} {n : Nat} {f : Fault}
    (h : completeStep s c m n = .fault f) : f = .misalignedFetch ∧ fetchAllowed s.platform c = false := by
  cases ha : fetchAllowed s.platform c with
  | true => rw [completeStep_of_allowed ha] at h; cases h
  | false => rw [completeStep_of_not_allowed ha] at h; cases h; exact ⟨rfl, rfl⟩

theorem completeStep_ne_refused {s : State} {c : Core} {m : SharedMemory} {n : Nat} {r : Refusal} :
    completeStep s c m n ≠ .refused r := by
  cases ha : fetchAllowed s.platform c with
  | true => rw [completeStep_of_allowed ha]; exact nofun
  | false => rw [completeStep_of_not_allowed ha]; exact nofun

/-- Settles O15: an instruction either completes a step from something, which can only be misaligned, or its handler stops
it. -/
theorem instructionsStopOnlyByName : Obligations.InstructionsStopOnlyByName := by
  refine ⟨fun _ _ _ _ _ _ _ hk he => exec_of_stops (.executed hk he), fun _ _ _ _ he => exec_of_stops (.compressed he),
    fun _ _ _ _ _ _ hk ha => exec_of_leaves_misaligned (.skipped hk) ha,
    fun _ _ _ _ _ _ _ hk hr ha => exec_of_leaves_misaligned (.executed hk hr) ha,
    fun _ _ _ _ hr ha => exec_of_leaves_misaligned (.compressed hr) ha, fun i s f h => ?_, fun i s r h => ?_⟩
  · rcases leaves_or_stops i s with ⟨c, m, n, hl⟩ | ⟨e, he⟩
    · rw [exec_of_leaves hl] at h
      obtain ⟨rfl, ha⟩ := completeStep_fault h
      refine .inr (.inr ⟨rfl, ?_⟩)
      cases hl with
      | skipped hk => exact .inl ⟨_, _, _, _, _, rfl, hk, ha⟩
      | executed hk hr => exact .inr (.inl ⟨_, _, _, _, _, _, rfl, hk, hr, ha⟩)
      | compressed hr => exact .inr (.inr ⟨_, _, _, rfl, hr, ha⟩)
    · rw [exec_of_stops he] at h
      obtain rfl := stopped_eq_fault h
      cases he with
      | executed hk he => exact .inl ⟨_, _, _, _, _, rfl, hk, he⟩
      | compressed he => exact .inr (.inl ⟨_, _, rfl, he⟩)
  · rcases leaves_or_stops i s with ⟨c, m, n, hl⟩ | ⟨e, he⟩
    · rw [exec_of_leaves hl] at h
      exact absurd h completeStep_ne_refused
    · rw [exec_of_stops he] at h
      obtain rfl := stopped_eq_refused h
      cases he with
      | executed hk he => exact .inl ⟨_, _, _, _, _, rfl, hk, he⟩
      | compressed he => exact .inr ⟨_, _, rfl, he⟩

/-! ### Frames -/

/-- Settles O11: what a skipped instruction leaves is one prefetch from the core and memory as they were. -/
theorem skippedInstructionFrame : Obligations.SkippedInstructionFrame := by
  intro k opHi mid opLo low s t hk h
  obtain rfl := exec_a32_failed_next hk h
  rw [stepResult_cur, stepResult_mem, stepResult_core_other]
  exact ⟨fun j hj => reg_prefetched _ _ _ _ hj, rfl, rfl, pair_prefetched _ _ _ _, rfl, rfl, rfl, rfl, rfl, rfl, rfl, rfl, rfl,
    fun hp ha a => by rw [prefetchedMem_plain _ _ hp ha], rfl, rfl, rfl, rfl⟩

/-- A handler that runs to its end: the instruction completes from what it left, and it kept the protected components. -/
theorem leaves_and_interface_of_ran {i : Instr} {s : State} {r : HandlerRun}
    (h : (∃ c opHi mid opLo low, i = Instr.a32 c opHi mid opLo low ∧ passes c s.cur.cpsr = true ∧
        runHandler32 s (index32 opHi opLo) = .ok r) ∨
      (∃ op16 low, i = .t16 op16 low ∧ runHandler16 s op16 = .ok r)) :
    LeavesBeforePrefetch s i r.core r.mem r.cycles ∧ SameInterface s.cur r.core := by
  rcases h with ⟨c, opHi, mid, opLo, low, rfl, hk, hr⟩ | ⟨op16, low, rfl, hr⟩
  · exact ⟨.executed hk hr, Script.run_interface _ hr⟩
  · exact ⟨.compressed hr, Script.run_interface _ hr⟩

/-- Settles O19: what an executed instruction leaves is one prefetch from what its handler left, and the handler kept the
protected components. -/
theorem executedInstructionFrame : Obligations.ExecutedInstructionFrame := by
  intro i s t r h hran
  obtain ⟨hl, hsame⟩ := leaves_and_interface_of_ran hran
  rw [exec_of_leaves hl] at h
  obtain ⟨-, rfl⟩ := completeStep_next h
  rw [stepResult_cur, stepResult_mem, stepResult_core_other]
  exact ⟨fun j hj => reg_prefetched _ _ _ _ hj, rfl, rfl, pair_prefetched _ _ _ _, rfl, rfl, rfl,
    fun hp ha a => by rw [prefetchedMem_plain _ _ hp ha], rfl, hsame.pending, hsame.vectorBase, hsame.handles,
    hsame.memory, hsame.halted, hsame.initialised, rfl, rfl, rfl, rfl⟩

/-- Settles O18: every instruction that completes ends in a step result, whose hook is called with what was sampled
before dispatch. -/
theorem notificationAfterEveryInstruction : Obligations.NotificationAfterEveryInstruction := by
  intro i s t h
  obtain ⟨c, m, n, -, rfl⟩ := exec_next_closes h
  rw [stepResult_notifications, notify]
  exact ⟨fun ha => if_pos ha, fun ha => if_neg (by simp [ha])⟩

/-! ### Instructions whose handler is a known script -/

/-- The state's table holds a script at the instruction's index, and the instruction is executed (43_dispatch.md R204,
R206). -/
inductive CallsScript (s : State) (body : Script) : Instr → Prop
  | executed {k : Cond} {opHi : BitVec 8} {mid : Nat} {opLo : BitVec 4} {low : Nat} (hk : passes k s.cur.cpsr = true)
      (hb : handler32At s.platform s.current (index32 opHi opLo) = .scripted body) :
      CallsScript s body (Instr.a32 k opHi mid opLo low)
  | compressed {op16 : BitVec 10} {low : Nat} (hb : handler16At s.platform s.current op16 = .scripted body) :
      CallsScript s body (.t16 op16 low)

theorem callsScript_of {s : State} {body : Script} {i : Instr}
    (h : (∃ c opHi mid opLo low, i = Instr.a32 c opHi mid opLo low ∧ passes c s.cur.cpsr = true ∧
        handler32At s.platform s.current (index32 opHi opLo) = .scripted body) ∨
      (∃ op16 low, i = .t16 op16 low ∧ handler16At s.platform s.current op16 = .scripted body)) :
    CallsScript s body i := by
  rcases h with ⟨c, opHi, mid, opLo, low, rfl, hk, hb⟩ | ⟨op16, low, rfl, hb⟩
  · exact .executed hk hb
  · exact .compressed hb

/-- Where the script runs to its end, the instruction completes from what it left. -/
theorem CallsScript.leaves {s : State} {body : Script} {i : Instr} {r : HandlerRun} (h : CallsScript s body i)
    (hr : body.run s.platform s.current (startRun s.cur s.mem) = .ok r) :
    LeavesBeforePrefetch s i r.core r.mem r.cycles := by
  cases h with
  | executed hk hb =>
    refine .executed hk ?_
    rw [runHandler32, hb]
    exact hr
  | compressed hb =>
    refine .compressed ?_
    rw [runHandler16, hb]
    exact hr

/-- A plain script's instruction falls through (43_dispatch.md R212). -/
theorem CallsScript.falls_through {s : State} {body : Script} {i : Instr} (h : CallsScript s body i)
    (hplain : Safety.scriptPlain body = true) (ha : fetchAllowed s.platform s.cur = true) :
    ∃ t, exec i s = .next t ∧ t.cur.pIA = s.cur.nFA ∧ t.cur.cpsr = s.cur.cpsr ∧
      t.cur.nFA = s.cur.nFA + instrWidth (flagT s.cur.cpsr) := by
  obtain ⟨r, hr, hcpsr, hnFA⟩ := Script.run_plain s.platform s.current body (startRun s.cur s.mem) hplain
  have ha' : fetchAllowed s.platform r.core = true := (fetchAllowed_congr hcpsr hnFA).trans ha
  refine ⟨_, exec_of_leaves_allowed (h.leaves hr) ha', ?_⟩
  rw [stepResult_cur]
  refine ⟨hnFA, hcpsr, ?_⟩
  rw [prefetched, Core.fillLatch_nFA, hcpsr, hnFA]
  rfl

/-- Settles O14: a plain script leaves nFA and the status word, from which the closing prefetch goes on. -/
theorem plainHandlerFallsThrough : Obligations.PlainHandlerFallsThrough :=
  ⟨fun _ _ _ _ _ _ _ hk hb hplain ha => (CallsScript.executed hk hb).falls_through hplain ha,
    fun _ _ _ _ hb hplain ha => (CallsScript.compressed hb).falls_through hplain ha⟩

/-- What a redirecting script leaves: the status word it may have written and the target (43_dispatch.md R212, R216). -/
theorem run_redirection {pf : Platform} {p : CoreId} {c : Core} {m : SharedMemory} {target status : Word} {body : Script}
    (h : (body = .act (.setNextFetch (.const target)) ∧ status = c.cpsr) ∨
      (body = .seq (.act (.setCpsr (.const status))) (.act (.setNextFetch (.const target))) ∧
        modeField status = modeField c.cpsr)) :
    body.run pf p (startRun c m) = .ok (startRun { c with cpsr := status, nFA := target } m) := by
  rcases h with ⟨rfl, rfl⟩ | ⟨rfl, hmode⟩
  · rfl
  · simp [Script.run, Action.perform, Expr.eval, writeCpsr, startRun, hmode]

/-- Settles O23: the closing prefetch goes on from the status word and the address the script left. -/
theorem redirectionReachesTheTarget : Obligations.RedirectionReachesTheTarget := by
  intro i s target status body hcalls hbody haligned
  have hl := (callsScript_of hcalls).leaves (run_redirection hbody)
  refine ⟨_, exec_of_leaves_allowed hl (fetchAllowed_of_aligned haligned), ?_⟩
  rw [stepResult_cur, stepResult_mem]
  refine ⟨rfl, rfl, rfl, (prefetched_lag ..).2.1, rfl, rfl, fun hp => ?_, fun j hj => reg_prefetched _ _ _ _ hj⟩
  obtain ⟨hlatched, hleaves⟩ := fetch_plain (p := s.current) (m := s.mem) hp haligned
  exact ⟨hlatched, fun a => congrArg (fun m => m.bytes.byteAt a) hleaves⟩

/-- Settles O47: the halting script writes the halt alone, which the closing prefetch keeps. -/
theorem haltingHandlerStopsTheCore : Obligations.HaltingHandlerStopsTheCore := by
  intro i s hcalls hi hd ha
  have hl := (callsScript_of hcalls).leaves (r := startRun { s.cur with waitingForInterrupt := true } s.mem) rfl
  refine ⟨_, exec_of_leaves_allowed hl ha, ?_, ?_, stepCore_idle ?_ ?_ ?_⟩
  all_goals rw [stepResult_cur]
  · rfl
  · rfl
  · exact hi
  · exact hd
  · rfl

/-! ### A step of a core, up to its dispatch -/

/-- A debug halt counts only where the control-plane is attached (43_dispatch.md R201). -/
theorem not_debugStopped {s : State} (hd : (s.platform.debugAttached.get s.current && s.cur.debugHalted) = false) :
    ¬(s.platform.debugAttached.get s.current = true ∧ s.cur.debugHalted = true) := by
  rw [← Bool.and_eq_true, hd]
  exact Bool.false_ne_true

/-- Settles O53: the bytes at pIA decode to what the latch decodes to. -/
theorem stepRunsTheDecodedInstruction : Obligations.StepRunsTheDecodedInstruction := by
  intro s i hcalls hi hd hw hp hdecode hlatch
  have hrun : step s = exec s.latched s := by
    rw [step, nextOperation, hcalls]
    exact stepCore_runs hi (Bool.and_eq_false_iff.mp hd) hw hp
  have hclass : s.latched = i := by
    rw [State.latched, hlatch]
    cases ht : flagT s.cur.cpsr with
    | false =>
      rw [ht] at hdecode
      cases hdecode
      rfl
    | true =>
      rw [ht] at hdecode
      cases hdecode
      rfl
  rw [hrun, hclass]

section Pending

variable {s : State} (hi : s.cur.initialised = true)
  (hd : (s.platform.debugAttached.get s.current && s.cur.debugHalted) = false)
  (hw : s.cur.waitingForInterrupt = false) (hp : s.cur.irqPending = true)

include hi hd hw hp

/-- A step that meets a pending request dispatches what is latched after entry (43_dispatch.md R203). -/
theorem stepCore_entering {b : Bool} {d : Core} {m : SharedMemory}
    (he : enterInterrupt s.platform s.current s.mem s.cur = .ok (b, d, m)) :
    stepCore s = dispatch (s.setCoreAndMem s.current d m) := by
  rw [stepCore, if_neg (by simp [hi]), if_neg (not_debugStopped hd), if_neg (by simp [hw]), if_pos hp, he]

theorem stepCore_entry_stops {e : Stop} (he : enterInterrupt s.platform s.current s.mem s.cur = .error e) :
    stepCore s = stopped e := by
  rw [stepCore, if_neg (by simp [hi]), if_neg (not_debugStopped hd), if_neg (by simp [hw]), if_pos hp, he]

end Pending

/-- Settles O41: a masked entry changes nothing, and an accepted one leaves T clear. -/
theorem stepEntersThePendingInterrupt : Obligations.StepEntersThePendingInterrupt := by
  intro s hi hd hw hp
  refine ⟨fun hI => ?_, fun d m he => ?_, fun e he => stepCore_entry_stops hi hd hw hp he⟩
  · rw [stepCore_entering hi hd hw hp (enterInterrupt_masked hi hI), State.cur_eq_core, State.setCoreAndMem_self]
    rfl
  · obtain ⟨-, -, hentered, -⟩ := enterInterrupt_accepted he
    have hT : flagT d.cpsr = false := by
      rw [hentered]
      exact flagT_irqEntryWrites s.cur (bankSwap s.current 0x12 s.cur)
    rw [stepCore_entering hi hd hw hp he, dispatch, State.latched, State.cur_eq_core, State.setCoreAndMem_current,
      State.setCoreAndMem_core_same, hT]

end Sys2Proof.Machine
end

section
/-! Handlers under their contract: breaches, the protected components, and the effect and frame of each write and access
(43_dispatch.md section 3; 10_state.md R22 to R37; 20_memory.md section 1). -/

namespace Sys2Proof.Machine

/-! ### The contract -/

theorem writeCpsr_same_mode {c : Core} {v : Word} (h : modeField v = modeField c.cpsr) :
    writeCpsr c v = .ok { c with cpsr := v } := if_pos h

theorem writeCpsr_other_mode {c : Core} {v : Word} (h : modeField v ≠ modeField c.cpsr) :
    writeCpsr c v = .error (.fault .handlerContract) := if_neg h

/-- Settles O20: a direct write of a status word tests the mode, and the other two breaches are effects of their own. -/
theorem handlerContractBreachesFault : Obligations.HandlerContractBreachesFault := by
  refine fun pf p r => ⟨fun e v hv => ⟨fun hm => ?_, fun hm => ?_⟩, fun _ => rfl, fun _ => rfl⟩
  · simp only [Action.perform, hv, writeCpsr_other_mode hm]
  · simp only [Action.perform, hv, writeCpsr_same_mode hm]

/-- Settles O21: no effect writes a protected component, and a mode changes through switchMode alone. -/
theorem handlersKeepTheirContract : Obligations.HandlersKeepTheirContract := by
  intro pf p b r r' h
  have hsame := Script.run_interface b h
  exact ⟨hsame.vectorBase, hsame.handles, hsame.memory, hsame.pending, hsame.halted, hsame.initialised,
    Script.run_legal b h⟩

/-! ### Registers, shadow registers and saved status registers -/

theorem BankPair.get_set (b : BankPair) (k j : PairReg) (v : Word) :
    (b.set k v).get j = if j = k then v else b.get j := by cases k <;> cases j <;> rfl

theorem FiqBank.get_set (b : FiqBank) (k j : FiqReg) (v : Word) :
    (b.set k v).get j = if j = k then v else b.get j := by cases k <;> cases j <;> rfl

@[simp] theorem setPair_pair_self (c : Core) (g : PairGroup) (b : BankPair) :
    (c.setPair g b).setPair g (c.pair g) = c := by cases g <;> rfl

/-- Core 1 has every saved status register but that of the fast-interrupt mode, core 0 all of them (10_state.md R36). -/
theorem hasSlot_of_ne_fiq_or_primary {p : CoreId} {slot : SpsrSlot} (h : slot ≠ .fiq ∨ p = .primary) :
    hasSlot p slot = true := by
  rcases h with h | rfl
  · cases slot with
    | fiq => exact absurd rfl h
    | _ => rfl
  · cases slot <;> rfl

section Writes

variable {pf : Platform} {p : CoreId} {r : HandlerRun} {ev : Expr} {v : Word} (hv : ev.eval p r = .ok v)

include hv

theorem perform_setReg {ea : Expr} {a : Word} (ha : ea.eval p r = .ok a) :
    (Action.setReg ea ev).perform pf p r = .ok { r with core := r.core.setReg (regNumber a) v } := by
  simp only [Action.perform, ha, hv]

theorem perform_setShadow_pair (g : PairGroup) (k : PairReg) :
    (Action.setShadow (.pair g k) ev).perform pf p r =
      .ok { r with core := r.core.setPair g ((r.core.pair g).set k v) } := by
  simp only [Action.perform, hv, Core.setShadow]

theorem perform_setShadow_fiq (hf : p.hasFiq = true) (k : FiqReg) :
    (Action.setShadow (.fiq k) ev).perform pf p r =
      .ok { r with core := { r.core with bankFiq := r.core.bankFiq.set k v } } := by
  simp only [Action.perform, hv, Core.setShadow, if_pos hf]

theorem perform_setShadow_fiq_absent (hf : p.hasFiq = false) (k : FiqReg) :
    (Action.setShadow (.fiq k) ev).perform pf p r = .error (.refused .absentStorage) := by
  simp [Action.perform, hv, Core.setShadow, hf]

theorem perform_setSpsrOf {slot : SpsrSlot} (hs : hasSlot p slot = true) :
    (Action.setSpsrOf slot ev).perform pf p r =
      .ok { r with core := { r.core with spsrs := r.core.spsrs.set slot v } } := by
  simp only [Action.perform, hv, if_pos hs]

theorem perform_setSpsrOf_absent {slot : SpsrSlot} (hs : hasSlot p slot = false) :
    (Action.setSpsrOf slot ev).perform pf p r = .error (.refused .absentStorage) := by
  simp [Action.perform, hv, hs]

/-- A register write's effect and frame (10_state.md R22). -/
theorem setReg_effect {ea : Expr} {a : Word} (ha : ea.eval p r = .ok a) :
    ∃ r', (Action.setReg ea ev).perform pf p r = .ok r' ∧ r'.core.reg (Fin.ofNat 16 a.toNat) = v ∧
      (∀ j : Fin 16, j.val ≠ a.toNat % 16 → r'.core.reg j = r.core.reg j) ∧
      { r'.core with regs := r.core.regs } = r.core ∧ r'.mem = r.mem ∧ r'.cycles = r.cycles := by
  refine ⟨_, perform_setReg hv ha, Core.reg_setReg_same .., fun j hj => ?_, rfl, rfl, rfl⟩
  have hne : j ≠ regNumber a := fun e => hj (congrArg Fin.val e)
  exact (Core.reg_setReg ..).trans (if_neg hne)

/-- The effect and frame of a write of a pair's shadow register (10_state.md R26). -/
theorem setShadow_pair_effect (g : PairGroup) (k : PairReg) :
    ∃ r', (Action.setShadow (.pair g k) ev).perform pf p r = .ok r' ∧ (r'.core.pair g).get k = v ∧
      (∀ j, j ≠ k → (r'.core.pair g).get j = (r.core.pair g).get j) ∧
      r'.core.setPair g (r.core.pair g) = r.core ∧ r'.mem = r.mem ∧ r'.cycles = r.cycles := by
  refine ⟨_, perform_setShadow_pair hv g k, ?_, fun j hj => ?_, setPair_pair_self .., rfl, rfl⟩
  · rw [Core.setPair_pair_same, BankPair.get_set, if_pos rfl]
  · rw [Core.setPair_pair_same, BankPair.get_set, if_neg hj]

/-- The effect and frame of a write of a fast-interrupt shadow register, on the core that has them (10_state.md R26). -/
theorem setShadow_fiq_effect (hf : p.hasFiq = true) (k : FiqReg) :
    ∃ r', (Action.setShadow (.fiq k) ev).perform pf p r = .ok r' ∧ r'.core.bankFiq.get k = v ∧
      (∀ j, j ≠ k → r'.core.bankFiq.get j = r.core.bankFiq.get j) ∧
      { r'.core with bankFiq := r.core.bankFiq } = r.core ∧ r'.mem = r.mem ∧ r'.cycles = r.cycles := by
  refine ⟨_, perform_setShadow_fiq hv hf k, ?_, fun j hj => ?_, rfl, rfl, rfl⟩
  · rw [FiqBank.get_set, if_pos rfl]
  · rw [FiqBank.get_set, if_neg hj]

/-- The effect and frame of a write of a saved status register by name (10_state.md R36). -/
theorem setSpsrOf_effect {slot : SpsrSlot} (hs : hasSlot p slot = true) :
    ∃ r', (Action.setSpsrOf slot ev).perform pf p r = .ok r' ∧ r'.core.spsrs.get slot = v ∧
      (∀ j, j ≠ slot → r'.core.spsrs.get j = r.core.spsrs.get j) ∧
      { r'.core with spsrs := r.core.spsrs } = r.core ∧ r'.mem = r.mem ∧ r'.cycles = r.cycles := by
  refine ⟨_, perform_setSpsrOf hv hs, ?_, fun j hj => ?_, rfl, rfl, rfl⟩
  · rw [SpsrFile.get_set, if_pos rfl]
  · rw [SpsrFile.get_set, if_neg hj]

end Writes

/-! ### Accesses to memory -/

theorem aligned_iff (w : AccessWidth) (a : Word) : w.aligned a = true ↔ a.toNat % w.bytes = 0 := by
  cases w with
  | byte => simp [AccessWidth.aligned, AccessWidth.bytes, Nat.mod_one]
  | half => exact fetchAligned_half a
  | word => exact fetchAligned_word a

/-- Which accesses plain memory answers, by the address as a number (log 18, 19). -/
theorem answersPlain_of_multiple {pf : Platform} {x : Access} (h : pf.collaborator = .plain)
    (k : x.addr.toNat % x.width.bytes = 0) : pf.answersPlain x = true :=
  Platform.answersPlain_plain h ((aligned_iff _ _).mpr k)

theorem answersPlain_of_oracle_or_misaligned {pf : Platform} {x : Access}
    (h : pf.collaborator = .oracle ∨ x.addr.toNat % x.width.bytes ≠ 0) : pf.answersPlain x = false :=
  Platform.answersPlain_oracle (h.imp_right fun k => Bool.eq_false_iff.mpr (mt (aligned_iff _ _).mp k))

theorem perform_store {pf : Platform} {p : CoreId} {r : HandlerRun} {ea ev : Expr} {a v : Word}
    (ha : ea.eval p r = .ok a) (hv : ev.eval p r = .ok v) (w : AccessWidth) :
    (Action.store w ea ev).perform pf p r = .ok { r with mem := memWrite pf p r.mem w a v } := by
  simp only [Action.perform, ha, hv]

theorem perform_load {pf : Platform} {p : CoreId} {r : HandlerRun} {ea : Expr} {a : Word} (ha : ea.eval p r = .ok a)
    (w : AccessWidth) (dst : Nat) :
    (Action.load w ea dst).perform pf p r =
      .ok { r with mem := (memRead pf p r.mem w a).2, locals := (dst, (memRead pf p r.mem w a).1) :: r.locals } := by
  simp only [Action.perform, ha]

/-- The local value kept last is the one read (43_dispatch.md R210). -/
theorem eval_loc_latest (p : CoreId) (r : HandlerRun) (n : Nat) (v : Word) (rest : List (Nat × Word))
    (h : r.locals = (n, v) :: rest) : (Expr.loc n).eval p r = .ok v := by
  simp [Expr.eval, h, localValue]

/-- The effect and frame of a store (20_memory.md section 1; log 18, 19). -/
theorem store_effect (pf : Platform) {p : CoreId} {r : HandlerRun} {ea ev : Expr} {a v : Word}
    (ha : ea.eval p r = .ok a) (hv : ev.eval p r = .ok v) (w : AccessWidth) :
    ∃ r', (Action.store w ea ev).perform pf p r = .ok r' ∧ r'.core = r.core ∧ r'.cycles = r.cycles ∧
      (pf.collaborator = .plain → a.toNat % w.bytes = 0 →
        (∀ b : Word, (∀ k : Nat, k < w.bytes → b ≠ a + BitVec.ofNat 32 k) →
          r'.mem.bytes.byteAt b = r.mem.bytes.byteAt b) ∧
        (r.mem.bytes.wf = true → r'.mem.bytes.wf = true ∧ r'.mem.bytes.load pf.byteOrder w a = w.narrow v)) ∧
      (pf.collaborator = .oracle ∨ a.toNat % w.bytes ≠ 0 → r'.mem = r.mem.answered ⟨p, .store v, w, a⟩) := by
  refine ⟨_, perform_store ha hv w, rfl, rfl, fun hp hal => ?_, fun ho => ?_⟩
  · have hw : memWrite pf p r.mem w a v = { r.mem with bytes := r.mem.bytes.store pf.byteOrder w a v } :=
      SharedMemory.write_plain (answersPlain_of_multiple hp hal)
    rw [hw]
    refine ⟨fun b hb => Memory.byteAt_setBytes_outside _ a b ?_, fun hwf => ⟨Memory.store_wf _ _ _ _ hwf,
      Memory.load_store hwf _ _ _ _⟩⟩
    rwa [storedBytes_length]
  · exact SharedMemory.write_oracle (answersPlain_of_oracle_or_misaligned ho)

/-- The effect and frame of a load (20_memory.md section 1; log 18, 19). -/
theorem load_effect (pf : Platform) {p : CoreId} {r : HandlerRun} {ea : Expr} {a : Word} (ha : ea.eval p r = .ok a)
    (w : AccessWidth) (dst : Nat) :
    ∃ r', (Action.load w ea dst).perform pf p r = .ok r' ∧ r'.core = r.core ∧ r'.cycles = r.cycles ∧
      (pf.collaborator = .plain → a.toNat % w.bytes = 0 →
        r'.mem = r.mem ∧ (Expr.loc dst).eval p r' = .ok (r.mem.bytes.load pf.byteOrder w a)) ∧
      (pf.collaborator = .oracle ∨ a.toNat % w.bytes ≠ 0 →
        r'.mem = r.mem.answered ⟨p, .load, w, a⟩ ∧
        (Expr.loc dst).eval p r' = .ok (w.narrow (r.mem.answer ⟨p, .load, w, a⟩).value)) := by
  refine ⟨_, perform_load ha w dst, rfl, rfl, fun hp hal => ?_, fun ho => ?_⟩
  · have hr : memRead pf p r.mem w a = (r.mem.bytes.load pf.byteOrder w a, r.mem) :=
      SharedMemory.read_plain (answersPlain_of_multiple hp hal)
    rw [hr]
    exact ⟨rfl, eval_loc_latest _ _ _ _ _ rfl⟩
  · have hr : memRead pf p r.mem w a =
        (w.narrow (r.mem.answer ⟨p, .load, w, a⟩).value, r.mem.answered ⟨p, .load, w, a⟩) :=
      SharedMemory.read_oracle (answersPlain_of_oracle_or_misaligned ho)
    rw [hr]
    exact ⟨rfl, eval_loc_latest _ _ _ _ _ rfl⟩

/-- Settles O24: one lemma per effect, and the refusals of the storage core 1 has not. -/
theorem handlerEffectFrame : Obligations.HandlerEffectFrame := by
  intro pf p r ea ev a v ha hv
  refine ⟨setReg_effect hv ha, setShadow_pair_effect hv, fun k => ⟨fun hp => ?_, fun hp => ?_⟩,
    fun slot hs => setSpsrOf_effect hv (hasSlot_of_ne_fiq_or_primary hs), fun hp => ?_, fun w => ?_, load_effect pf ha⟩
  · exact setShadow_fiq_effect hv (by rw [hp]; rfl) k
  · subst hp
    exact ⟨perform_setShadow_fiq_absent hv rfl k, rfl⟩
  · subst hp
    exact ⟨perform_setSpsrOf_absent hv rfl, rfl⟩
  · cases w <;> exact store_effect pf ha hv _

/-! ### The current saved status register -/

theorem readSpsr_of_slot {p : CoreId} {c : Core} {slot : SpsrSlot} (h : currentSlot p c = some slot) :
    readSpsr p c = .ok (c.spsrs.get slot) := by rw [readSpsr, h]

theorem readSpsr_of_no_slot {p : CoreId} {c : Core} (h : currentSlot p c = none) :
    readSpsr p c = .error (.fault .noSpsr) := by rw [readSpsr, h]

theorem writeSpsr_of_slot {p : CoreId} {c : Core} {slot : SpsrSlot} (v : Word) (h : currentSlot p c = some slot) :
    writeSpsr p c v = .ok { c with spsrs := c.spsrs.set slot v } := by rw [writeSpsr, h]

theorem writeSpsr_of_no_slot {p : CoreId} {c : Core} (v : Word) (h : currentSlot p c = none) :
    writeSpsr p c v = .error (.fault .noSpsr) := by rw [writeSpsr, h]

/-- The slot of each mode value (10_state.md R33, R36; D2, D17). -/
theorem slot_of_modeField : ∀ (p : CoreId) (m : BitVec 5), (modeOf p m).bind Mode.slot =
    if m = 0x13#5 then some .svc else if m = 0x17#5 then some .abt else if m = 0x1B#5 then some .und
    else if m = 0x12#5 then some .irq else if m = 0x11#5 ∧ p = .primary then some .fiq else none := by
  intro p m
  cases p <;> revert m <;> decide

/-- Settles O25: an access to the current saved status register goes by the slot of the mode field. -/
theorem currentSpsrIsTheModesSlot : Obligations.CurrentSpsrIsTheModesSlot := by
  refine fun p c v => ⟨fun slot h => ⟨readSpsr_of_slot h, _, writeSpsr_of_slot v h, ?_, fun j hj => ?_, rfl⟩,
    fun h => ⟨readSpsr_of_no_slot h, writeSpsr_of_no_slot v h⟩, slot_of_modeField p (modeField c.cpsr)⟩
  · rw [SpsrFile.get_set, if_pos rfl]
  · rw [SpsrFile.get_set, if_neg hj]

end Sys2Proof.Machine
end

section
/-! Invariants of the whole machine: what an operation of a core leaves of both cores and of memory, and from it the
pipeline lag, legal modes, capabilities, canonical memory and the independence of the two cores (10_state.md section 6). -/

namespace Sys2Proof.Machine

open Sys2Proof.Safety

/-! ### The pipeline lag and legal modes -/

theorem lagHolds_prefetched (pf : Platform) (p : CoreId) (m : SharedMemory) (c : Core) :
    LagHolds (prefetched pf p m c) := prefetched_lag pf p m c

/-- Settles O56: every operation that moves the latch ends with a prefetch, and no other one writes nFA, pIA, pI, T or
R[15]. -/
theorem everyStepKeepsThePipelineInvariant : Obligations.EveryStepKeepsThePipelineInvariant := by
  intro s t hs h
  refine step_each h hs ?run ?reset ?irq ?flag ?halt ?reg
  case run => exact fun u _ b r _ _ _ => lagHolds_prefetched ..
  case reset =>
    intro p a c m hr
    rw [(resetCore_ok hr).1]
    exact lagHolds_prefetched ..
  case irq =>
    intro p b m m' c d he hc
    obtain ⟨-, ⟨-, -, rfl, -⟩ | ⟨-, -, rfl, -⟩⟩ := enterInterrupt_ok he
    · exact hc
    · exact lagHolds_prefetched ..
  case flag =>
    intro p b c d hf hc
    obtain ⟨-, ⟨-, -, rfl⟩ | ⟨-, -, rfl⟩⟩ := flagInterrupt_ok hf
    · exact hc
    · exact hc
  case halt => exact fun p c on hc => hc
  case reg =>
    intro p c n v hn hc
    obtain ⟨hnFA, hr15, hpI⟩ := hc
    have hne : (15 : Fin 16) ≠ n := by rintro rfl; exact absurd hn (by decide)
    exact ⟨hnFA, by rw [Core.reg_setReg, if_neg hne]; exact hr15, hpI⟩

/-- A script runs on a core that was reset or not, and leaves that as it was. -/
theorem startRun_initialised {pf : Platform} {p : CoreId} {b : Script} {c : Core} {m : SharedMemory} {r : HandlerRun}
    (h : b.run pf p (startRun c m) = .ok r) (hi : r.core.initialised = true) : c.initialised = true :=
  (Script.run_interface b h).initialised.symm.trans hi

/-- Settles O57: a handler changes the mode through switchMode alone, which is refused between modes that are not legal,
and interrupt entry and reset set legal ones. -/
theorem everyStepKeepsLegalModes : Obligations.EveryStepKeepsLegalModes := by
  intro s t ⟨hpol, hs⟩ h
  refine ⟨(congrArg Platform.malformedMode (step_platform h)).trans hpol, ?_⟩
  refine step_each h hs ?run ?reset ?irq ?flag ?halt ?reg
  case run =>
    intro u hu b r hr hu' hi
    exact Script.run_legal b hr (by rw [hu]; exact hpol) (hu' (startRun_initialised hr hi))
  case reset =>
    intro p a c m hr
    rw [(resetCore_ok hr).1]
    exact legalMode_sys p
  case irq =>
    intro p b m m' c d he hc
    obtain ⟨-, ⟨-, -, rfl, -⟩ | ⟨-, -, rfl, -⟩⟩ := enterInterrupt_ok he
    · exact hc
    · show legalMode p (modeField (irqEntryWrites c (bankSwap p 0x12 c)).cpsr) = true
      rw [modeField_irqEntryWrites, bankSwap_cpsr, modeField_setModeField]
      exact legalMode_irq p
  case flag =>
    intro p b c d hf hc
    obtain ⟨-, ⟨-, -, rfl⟩ | ⟨-, -, rfl⟩⟩ := flagInterrupt_ok hf
    · exact hc
    · exact hc
  case halt => exact fun p c on hc => hc
  case reg => exact fun p c n v _ hc => hc

/-! ### What a step of a core leaves -/

/-- What an operation of core `p` leaves of the machine: the other core and the platform as they were. -/
structure OnlyCore (p : CoreId) (s t : State) : Prop where
  other : t.core p.other = s.core p.other
  platform : t.platform = s.platform

theorem OnlyCore.of_set {p : CoreId} {s t : State} {c : Core} (hc : t.cores = s.cores.set p c)
    (hp : t.platform = s.platform) : OnlyCore p s t :=
  ⟨by rw [core_of_cores_set hc, if_neg (CoreId.other_ne p)], hp⟩

/-- Where the instruction a step runs starts: the core and memory as they were, or as an interrupt entry left them
(43_dispatch.md R203). -/
def StartsFrom (s : State) (c : Core) (m : SharedMemory) : Prop :=
  (c = s.cur ∧ m = s.mem) ∨ ∃ b, enterInterrupt s.platform s.current s.mem s.cur = .ok (b, c, m)

/-- Everything a step of the current core leaves of the cores, memory and platform: nothing changed, or one prefetch after
some script that ran from the state as it was or as an interrupt entry left it. -/
theorem stepCore_effect {s t : State} (h : stepCore s = .next t) :
    t.platform = s.platform ∧
      ((t.cores = s.cores ∧ t.mem = s.mem) ∨
        ∃ c m b r, StartsFrom s c m ∧ Script.run s.platform s.current b (startRun c m) = .ok r ∧
          t.cores = s.cores.set s.current (prefetched s.platform s.current r.mem r.core) ∧
          t.mem = prefetchedMem s.platform s.current r.mem r.core) := by
  obtain ⟨-, ⟨n, rfl⟩ | ⟨-, hx⟩ | ⟨k, c, m, he, hx⟩⟩ := stepCore_next h
  · exact ⟨rfl, .inl ⟨rfl, rfl⟩⟩
  · obtain ⟨b, r, hr, -, rfl⟩ := exec_next_state hx
    exact ⟨rfl, .inr ⟨_, _, b, r, .inl ⟨rfl, rfl⟩, hr, rfl, rfl⟩⟩
  · obtain ⟨b, r, hr, -, rfl⟩ := exec_next_state hx
    rw [State.cur_eq_core, State.setCoreAndMem_current, State.setCoreAndMem_core_same] at hr
    exact ⟨rfl, .inr ⟨c, m, b, r, .inr ⟨k, he⟩, hr, PerCore_set_set .., rfl⟩⟩

theorem stepCore_onlyCore {s t : State} (h : stepCore s = .next t) : OnlyCore s.current s t := by
  obtain ⟨hp, ⟨hc, -⟩ | ⟨c, m, b, r, -, -, hc, -⟩⟩ := stepCore_effect h
  · exact ⟨congrArg (PerCore.get · _) hc, hp⟩
  · exact .of_set hc hp

/-- The core whose operation a host's call is: none for a store (00_scope.md R8). -/
def HostCall.core? : HostCall → Option CoreId
  | .step p => some p
  | .reset p _ => some p
  | .flagInterrupt p => some p
  | .enterInterrupt p => some p
  | .debugHalt p _ => some p
  | .debugRead p _ => some p
  | .debugWrite p _ _ => some p
  | .store _ _ => none

theorem hostCall_onlyCore {call : HostCall} {p : CoreId} {s t : State} (hp : call.core? = some p)
    (h : hostCall call s = .next t) : OnlyCore p s t := by
  cases call with
  | step q =>
    cases hp
    obtain ⟨ho, hpf⟩ := stepCore_onlyCore h
    exact ⟨ho, hpf⟩
  | reset q a =>
    cases hp
    obtain ⟨c, m, -, rfl⟩ := hostReset_next h
    exact .of_set (c := c) rfl rfl
  | flagInterrupt q =>
    cases hp
    obtain ⟨b, c, -, rfl⟩ := hostFlagInterrupt_next h
    exact .of_set (c := c) rfl rfl
  | enterInterrupt q =>
    cases hp
    obtain ⟨b, c, m, -, rfl⟩ := hostEnterInterrupt_next h
    exact .of_set (c := c) rfl rfl
  | debugHalt q on =>
    cases hp
    obtain ⟨-, -, rfl⟩ := debugHalt_next h
    exact .of_set rfl rfl
  | debugRead q f =>
    cases hp
    obtain ⟨v, -, rfl⟩ := debugRead_next h
    exact ⟨rfl, rfl⟩
  | debugWrite q f v =>
    cases hp
    obtain ⟨n, -, -, -, rfl⟩ := debugWrite_next h
    exact .of_set rfl rfl
  | store a v => cases hp

/-- Settles O55: every operation writes one core's record, and a store none. -/
theorem coresShareNoArchitecturalState : Obligations.CoresShareNoArchitecturalState := by
  refine ⟨fun s t h => (stepCore_onlyCore h).other, fun s t p call hcall h => ?_, fun s t a v h => ?_⟩
  · refine (hostCall_onlyCore ?_ h).other
    rcases hcall with rfl | ⟨a, rfl⟩ | rfl | rfl | ⟨on, rfl⟩ | ⟨f, rfl⟩ | ⟨f, v, rfl⟩ <;> rfl
  · cases h
    rfl

/-! ### Capabilities -/

theorem enterInterrupt_interface {pf : Platform} {p : CoreId} {m m' : SharedMemory} {b : Bool} {c d : Core}
    (h : enterInterrupt pf p m c = .ok (b, d, m')) :
    d.interruptVectorBase = c.interruptVectorBase ∧ d.coprocessorHandles = c.coprocessorHandles ∧
      d.memoryInterface = c.memoryInterface ∧ d.debugHalted = c.debugHalted ∧ d.initialised = c.initialised := by
  obtain ⟨-, ⟨-, -, rfl, -⟩ | ⟨-, -, rfl, -⟩⟩ := enterInterrupt_ok h
  · exact ⟨rfl, rfl, rfl, rfl, rfl⟩
  · have out := bankSwap_outside p 0x12 c
    exact ⟨out.vectorBase, out.handles, out.memory, out.halted, out.initialised⟩

/-- Interrupt entry writes no fast-interrupt storage on a core that has none (40_bank_switch.md R131; 60_exceptions.md
R245). -/
theorem enterInterrupt_fiq {pf : Platform} {p : CoreId} {m m' : SharedMemory} {b : Bool} {c d : Core}
    (hf : p.hasFiq = false) (h : enterInterrupt pf p m c = .ok (b, d, m')) :
    d.bankFiq = c.bankFiq ∧ d.spsrs.fiq = c.spsrs.fiq := by
  obtain ⟨-, ⟨-, -, rfl, -⟩ | ⟨-, -, rfl, -⟩⟩ := enterInterrupt_ok h
  · exact ⟨rfl, rfl⟩
  · exact ⟨bankSwap_bankFiq hf 0x12 c, by rw [entry_spsrs]⟩

theorem step_identity {s t : State} (hs : IdentityInv s) (h : step s = .next t) :
    EachCore t (IdentityHolds s.platform) := by
  refine step_each h hs ?run ?reset ?irq ?flag ?halt ?reg
  case run =>
    intro u hu b r hr hold hi
    obtain ⟨hbase, hhandles, hfiq⟩ := hold (startRun_initialised hr hi)
    have hsame := Script.run_interface b hr
    refine ⟨hsame.vectorBase.trans hbase, hsame.handles.trans hhandles, fun hf => ?_⟩
    have hkept := Script.run_fiq hf b hr
    exact ⟨hkept.1.trans (hfiq hf).1, hkept.2.trans (hfiq hf).2⟩
  case reset =>
    intro p a c m hr
    rw [(resetCore_ok hr).1]
    exact ⟨rfl, rfl, fun _ => ⟨rfl, rfl⟩⟩
  case irq =>
    intro p b m m' c d he ⟨hbase, hhandles, hfiq⟩
    obtain ⟨ebase, ehandles, -⟩ := enterInterrupt_interface he
    refine ⟨ebase.trans hbase, ehandles.trans hhandles, fun hf => ?_⟩
    have hkept := enterInterrupt_fiq hf he
    exact ⟨hkept.1.trans (hfiq hf).1, hkept.2.trans (hfiq hf).2⟩
  case flag =>
    intro p b c d hf hc
    obtain ⟨-, ⟨-, -, rfl⟩ | ⟨-, -, rfl⟩⟩ := flagInterrupt_ok hf
    · exact hc
    · exact hc
  case halt => exact fun p c on hc => hc
  case reg => exact fun p c n v _ hc => hc

theorem startsFrom_debugHalted {s : State} {c : Core} {m : SharedMemory} (h : StartsFrom s c m) :
    c.debugHalted = s.cur.debugHalted := by
  rcases h with ⟨rfl, -⟩ | ⟨b, he⟩
  · rfl
  · exact (enterInterrupt_interface he).2.2.2.1

theorem resetCore_debugHalted {pf : Platform} {p : CoreId} {m m' : SharedMemory} {a : Word} {c d : Core}
    (h : resetCore pf p m a c = .ok (d, m')) : d.debugHalted = c.debugHalted := by
  rw [(resetCore_ok h).1]
  rfl

theorem flagInterrupt_debugHalted {c d : Core} {b : Bool} (h : flagInterrupt c = .ok (b, d)) :
    d.debugHalted = c.debugHalted := by
  obtain ⟨-, ⟨-, -, rfl⟩ | ⟨-, -, rfl⟩⟩ := flagInterrupt_ok h
  · rfl
  · rfl

/-- Only the debug port's toggle writes the debug halt of a core, where it is attached (60_exceptions.md R261): every
other operation that writes core `p` leaves it as it was. -/
theorem debugInv_of_set {s t : State} {p : CoreId} {c : Core} (hs : DebugInv s) (hp : t.platform = s.platform)
    (hc : t.cores = s.cores.set p c)
    (h : c.debugHalted = (s.core p).debugHalted ∨ s.platform.debugAttached.get p = true) : DebugInv t := by
  intro q
  rw [hp, core_of_cores_set hc]
  by_cases e : q = p
  · subst e
    rw [if_pos rfl]
    intro hq
    rcases h with h | h
    · exact hs q (h.symm.trans hq)
    · exact h
  · rw [if_neg e]
    exact hs q

theorem step_debugInv {s t : State} (hs : DebugInv s) (h : step s = .next t) : DebugInv t := by
  have same : ∀ {u : State}, u.cores = s.cores → u.platform = s.platform → DebugInv u := by
    intro u hc hp q
    rw [hp, State.core, hc]
    exact hs q
  rcases step_next h with ⟨u, hc, -, hp, hu⟩ | ⟨p, a, c, m, hr, hc, -, hp⟩ | ⟨p, b, c, m, hr, hc, -, hp⟩ |
    ⟨p, c, -, hr, hc, -, hp⟩ | ⟨hc, hp, -⟩
  · have hsu := same hc hp
    obtain ⟨htp, ⟨htc, -⟩ | ⟨c, m, b, r, hstart, hr, htc, -⟩⟩ := stepCore_effect hu
    · exact same (htc.trans hc) (htp.trans hp)
    · exact debugInv_of_set hsu htp htc
        (.inl ((Script.run_interface b hr).halted.trans (startsFrom_debugHalted hstart)))
  · exact debugInv_of_set hs hp hc (.inl (resetCore_debugHalted hr))
  · rcases hr with ⟨hr, -⟩ | hr
    · exact debugInv_of_set hs hp hc (.inl (flagInterrupt_debugHalted hr))
    · exact debugInv_of_set hs hp hc (.inl (enterInterrupt_interface hr).2.2.2.1)
  · rcases hr with ⟨on, ha, -⟩ | ⟨n, v, -, rfl⟩
    · exact debugInv_of_set hs hp hc (.inr ha)
    · exact debugInv_of_set hs hp hc (.inl rfl)
  · exact same hc hp

/-- Settles O58: the components a handler must not write are written by reset, with the platform's and identity's own
values, and by the debug port's toggle where it is attached. -/
theorem everyStepKeepsTheCapabilities : Obligations.EveryStepKeepsTheCapabilities := by
  intro s t hid hdbg h
  have hp := step_platform h
  refine ⟨?_, step_debugInv hdbg h, hp⟩
  rw [IdentityInv, hp]
  exact step_identity hid h

/-! ### Memory -/

theorem enterInterrupt_mem_wf {pf : Platform} {p : CoreId} {m m' : SharedMemory} {b : Bool} {c d : Core}
    (h : enterInterrupt pf p m c = .ok (b, d, m')) (hm : m.bytes.wf = true) : m'.bytes.wf = true := by
  obtain ⟨-, ⟨-, -, -, rfl⟩ | ⟨-, -, -, rfl, -⟩⟩ := enterInterrupt_ok h
  · exact hm
  · exact prefetchedMem_wf _ _ _ hm

theorem startsFrom_mem_wf {s : State} {c : Core} {m : SharedMemory} (h : StartsFrom s c m)
    (hs : s.mem.bytes.wf = true) : m.bytes.wf = true := by
  rcases h with ⟨-, rfl⟩ | ⟨b, he⟩
  · exact hs
  · exact enterInterrupt_mem_wf he hs

/-- Settles O59: memory changes by fetches, by a script's accesses and by the host's stores, and each keeps the form. -/
theorem everyStepKeepsMemoryCanonical : Obligations.EveryStepKeepsMemoryCanonical := by
  intro s t hs h
  rw [MemoryInv] at hs ⊢
  rcases step_next h with ⟨u, -, hm, -, hu⟩ | ⟨p, a, c, m, hr, -, rfl, -⟩ | ⟨p, b, c, m, hr, -, rfl, -⟩ |
    ⟨p, c, -, -, -, hm, -⟩ | ⟨-, -, hm | ⟨a, v, hm⟩⟩
  · have hsu : u.mem.bytes.wf = true := by rw [hm]; exact hs
    obtain ⟨-, ⟨-, htm⟩ | ⟨c, m, b, r, hstart, hr, -, htm⟩⟩ := stepCore_effect hu
    · rw [htm]
      exact hsu
    · rw [htm]
      exact prefetchedMem_wf _ _ _ (Script.run_mem_wf b hr (startsFrom_mem_wf hstart hsu))
  · rw [(resetCore_ok hr).2]
    exact prefetchedMem_wf _ _ _ hs
  · rcases hr with ⟨-, hm⟩ | hr
    · rw [hm]
      exact hs
    · exact enterInterrupt_mem_wf hr hs
  · rw [hm]
    exact hs
  · rw [hm]
    exact hs
  · rw [hm]
    exact Memory.setByte_wf a v hs

/-! ### The reset state -/

/-- The pipeline lag of a core as reset at entry 0 leaves it: its status word selects A32 (10_state.md R48). -/
theorem lagHolds_afterReset (p : CoreId) (vectorBase : Word) : LagHolds (Core.afterReset p vectorBase) := by
  have hT : flagT (Core.afterReset p vectorBase).cpsr = false := (by decide : flagT 0x0000001F = false)
  have h15 : (Core.afterReset p vectorBase).reg 15 = 8 := Vector.getElem_set_self ..
  refine ⟨?_, ?_, fun h => absurd (hT.symm.trans h) Bool.false_ne_true⟩
  · rw [hT]
    rfl
  · rw [h15, hT]
    rfl

/-- A core as reset at entry 0 leaves it meets every condition of a core (10_state.md R48). -/
theorem afterReset_holds (pf : Platform) (p : CoreId) :
    LagHolds (Core.afterReset p (pf.vectorBase.get p)) ∧ IdentityHolds pf p (Core.afterReset p (pf.vectorBase.get p)) ∧
      DebugHolds pf p (Core.afterReset p (pf.vectorBase.get p)) ∧
      ModeLegal p (Core.afterReset p (pf.vectorBase.get p)) :=
  ⟨lagHolds_afterReset p _, ⟨rfl, rfl, fun _ => ⟨rfl, rfl⟩⟩, fun h => absurd h Bool.false_ne_true, legalMode_sys p⟩

theorem reset_core (p : CoreId) :
    State.reset.core p = Core.afterReset p (Platform.suggested.vectorBase.get p) := by cases p <;> rfl

/-- Settles O60: both cores of the reset state are as reset at entry 0 leaves them, and nothing is stored. -/
theorem invariantsHoldAfterReset : Obligations.InvariantsHoldAfterReset := by
  have each : ∀ {P : CoreId → Core → Prop},
      (∀ p, P p (Core.afterReset p (Platform.suggested.vectorBase.get p))) → ∀ p, P p (State.reset.core p) :=
    fun h p => by rw [reset_core]; exact h p
  have holds := fun p => afterReset_holds Platform.suggested p
  exact ⟨⟨fun p _ => each (fun p => (holds p).1) p, fun p _ => each (fun p => (holds p).2.1) p,
    fun p => each (fun p => (holds p).2.2.1) p, rfl⟩, rfl, fun p _ => each (fun p => (holds p).2.2.2) p⟩

end Sys2Proof.Machine
end

section
/-! Interrupts: the request, an accepted entry register by register, and the return from it (60_exceptions.md). -/

namespace Sys2Proof.Machine

/-! ### The request -/

theorem flagInterrupt_masked {c : Core} (hi : c.initialised = true) (hI : flagI c.cpsr = true) :
    flagInterrupt c = .ok (false, c) := by
  rw [flagInterrupt, if_neg (by simp [hi]), if_pos hI]

theorem flagInterrupt_unmasked {c : Core} (hi : c.initialised = true) (hI : flagI c.cpsr = false) :
    flagInterrupt c = .ok (true, { c with waitingForInterrupt := false, irqPending := true }) := by
  rw [flagInterrupt, if_neg (by simp [hi]), if_neg (by simp [hI])]

/-- Settles O36: the test of I decides, and the two fields written are the halt and the request. -/
theorem flagInterruptHoldsTheRequest : Obligations.FlagInterruptHoldsTheRequest :=
  fun _ hi => ⟨flagInterrupt_masked hi, flagInterrupt_unmasked hi⟩

/-! ### What an accepted entry leaves -/

/-- The core an accepted entry leaves (60_exceptions.md R243). -/
def coreAfterEntry (pf : Platform) (p : CoreId) (m : SharedMemory) (c : Core) : Core :=
  prefetched pf p m (irqEntryWrites c (bankSwap p 0x12 c))

/-- The switch entry makes, from a mode of a known group (60_exceptions.md R243). -/
theorem bankSwap_irq {p : CoreId} {c : Core} {g : Option Group} (hg : groupOf p (modeField c.cpsr) = g) :
    bankSwap p 0x12 c = writeMode 0x12 (restoreBank (some (.pair .irq)) (saveBank g c)) :=
  bankSwap_of_groups hg (groupOf_irq p)

theorem bankFiq_coreAfterEntry (pf : Platform) (p : CoreId) (m : SharedMemory) (c : Core) :
    (coreAfterEntry pf p m c).bankFiq = (bankSwap p 0x12 c).bankFiq := rfl

theorem linkShadows_coreAfterEntry (pf : Platform) (p : CoreId) (m : SharedMemory) (c : Core) (g : Group) :
    (coreAfterEntry pf p m c).linkShadows g = (bankSwap p 0x12 c).linkShadows g := by
  cases g with
  | pair g => exact entry_pair pf p m c g
  | fiq => rfl

/-- The status word after entry: T clear, I set, IRQ mode, every other bit kept (60_exceptions.md R243). -/
theorem cpsr_coreAfterEntry (pf : Platform) (p : CoreId) (m : SharedMemory) (c : Core) :
    (coreAfterEntry pf p m c).cpsr = setFlagI (setFlagT (setModeField c.cpsr 0x12) false) true :=
  congrArg (fun w => setFlagI (setFlagT w false) true) (bankSwap_cpsr p 0x12 c)

theorem modeField_coreAfterEntry (pf : Platform) (p : CoreId) (m : SharedMemory) (c : Core) :
    modeField (coreAfterEntry pf p m c).cpsr = 0x12#5 := by simp [cpsr_coreAfterEntry]

theorem cpsr_coreAfterEntry_getLsbD (pf : Platform) (p : CoreId) (m : SharedMemory) (c : Core) {k : Nat} (h5 : 5 < k)
    (h7 : k ≠ 7) : (coreAfterEntry pf p m c).cpsr.getLsbD k = c.cpsr.getLsbD k := by
  rw [cpsr_coreAfterEntry, setFlagI, getLsbD_setBit _ _ _ _ (by decide), if_neg h7, setFlagT,
    getLsbD_setBit _ _ _ _ (by decide), if_neg (by omega), getLsbD_setModeField, if_neg (by omega)]

/-- Entry fetches the vector's instruction (60_exceptions.md R246). -/
theorem nFA_irqEntryWrites (p : CoreId) (c : Core) :
    (irqEntryWrites c (bankSwap p 0x12 c)).nFA = c.interruptVectorBase + 0x18#32 :=
  congrArg (· + irqVectorOffset) (bankSwap_outside p 0x12 c).vectorBase

/-- The vector of an aligned base is aligned. -/
theorem fetchAligned_vector {base : Word} (h : base.toNat % 4 = 0) : fetchAligned false (base + 0x18#32) = true := by
  rw [fetchAligned_word, BitVec.toNat_add, BitVec.toNat_ofNat]
  omega

/-- The entry is accepted from a legal mode with I clear, where its fetch is aligned (60_exceptions.md R242, R243). -/
theorem enterInterrupt_of_legal {pf : Platform} {p : CoreId} {m : SharedMemory} {c : Core} (hi : c.initialised = true)
    (hI : flagI c.cpsr = false) (hl : legalMode p (modeField c.cpsr) = true)
    (hb : c.interruptVectorBase.toNat % 4 = 0) :
    enterInterrupt pf p m c =
      .ok (true, coreAfterEntry pf p m c, prefetchedMem pf p m (irqEntryWrites c (bankSwap p 0x12 c))) := by
  have hswitch : switchMode pf.malformedMode p 0x12 c = .ok (modeField c.cpsr, bankSwap p 0x12 c) :=
    switchMode_of_legal rfl hl (legalMode_irq p)
  have hfetch : fetchAllowed pf (irqEntryWrites c (bankSwap p 0x12 c)) = true :=
    fetchAllowed_of_aligned (by rw [flagT_irqEntryWrites, nFA_irqEntryWrites]; exact fetchAligned_vector hb)
  rw [enterInterrupt, if_neg (by simp [hi]), if_neg (by simp [hI]), hswitch]
  simp only [prefetch_of_allowed hfetch]
  rfl

theorem enterInterrupt_of_malformed {pf : Platform} {p : CoreId} {m : SharedMemory} {c : Core}
    (hi : c.initialised = true) (hI : flagI c.cpsr = false) (hp : pf.malformedMode = .fault)
    (hl : legalMode p (modeField c.cpsr) = false) : enterInterrupt pf p m c = .error (.fault .malformedMode) := by
  rw [enterInterrupt, if_neg (by simp [hi]), if_neg (by simp [hI]), hp, switchMode_fault_of_malformed (.inl hl)]

/-- The latch entry fills: T is clear then (41_prefetch.md R150; 60_exceptions.md R246). -/
theorem coreAfterEntry_eq_fillLatch (pf : Platform) (p : CoreId) (m : SharedMemory) (c : Core) :
    coreAfterEntry pf p m c = (irqEntryWrites c (bankSwap p 0x12 c)).fillLatch
      (fetchLatched pf p m false (c.interruptVectorBase + 0x18#32)) (instrWidth false) := by
  rw [coreAfterEntry, prefetched, flagT_irqEntryWrites, nFA_irqEntryWrites]

theorem prefetchedMem_irqEntryWrites (pf : Platform) (p : CoreId) (m : SharedMemory) (c : Core) :
    prefetchedMem pf p m (irqEntryWrites c (bankSwap p 0x12 c)) =
      fetchLeaves pf p m false (c.interruptVectorBase + 0x18#32) := by
  rw [prefetchedMem, flagT_irqEntryWrites, nFA_irqEntryWrites]

/-- R[13] after the switch to IRQ mode (40_bank_switch.md R123). -/
theorem reg13_bankSwap_irq {p : CoreId} {c : Core} (hl : legalMode p (modeField c.cpsr) = true) :
    (bankSwap p 0x12 c).reg 13 = if modeField c.cpsr = 0x12#5 then c.reg 13 else c.bankIrq.r13 := by
  obtain ⟨g, hg⟩ := group_of_legalMode hl
  rw [bankSwap_irq hg, Core.reg_writeMode, (link_restoreBank _ _).1, linkShadows_saveBank]
  by_cases hm : modeField c.cpsr = 0x12#5
  · have hirq : Group.pair .irq = g := Option.some_inj.mp ((groupOf_irq p).symm.trans (by rw [← hm, hg]))
    rw [if_pos hirq, if_pos hm]
  · have hirq : Group.pair .irq ≠ g := by
      rintro rfl
      exact groupOf_ne_irq p _ hm hg
    rw [if_neg hirq, if_neg hm]
    rfl

/-- R[8] to R[12] after the switch to IRQ mode from another mode than the fast-interrupt one (40_bank_switch.md R124). -/
theorem low_bankSwap_irq {p : CoreId} {c : Core} (hg : groupOf p (modeField c.cpsr) ≠ some .fiq) {j : Fin 16}
    (h12 : j.val ≤ 12) : (bankSwap p 0x12 c).reg j = c.reg j := by
  rw [bankSwap_irq rfl, Core.reg_writeMode, low_restoreBank_pair _ _ h12]
  rcases hk : groupOf p (modeField c.cpsr) with _ | (g | _)
  · rfl
  · exact reg_saveBank_pair ..
  · exact absurd hk hg

theorem bankFiq_bankSwap_irq {p : CoreId} {c : Core} (hg : groupOf p (modeField c.cpsr) ≠ some .fiq) :
    (bankSwap p 0x12 c).bankFiq = c.bankFiq := by
  rw [bankSwap_irq rfl, writeMode_bankFiq, bankFiq_restoreBank_pair]
  rcases hk : groupOf p (modeField c.cpsr) with _ | (g | _)
  · rfl
  · exact bankFiq_saveBank_pair ..
  · exact absurd hk hg

/-- Entry writes the shadow pair of the group left, and no other (60_exceptions.md R243, R248). -/
theorem pair_bankSwap_irq {p : CoreId} {c : Core} {g : PairGroup}
    (hg : groupOf p (modeField c.cpsr) ≠ some (.pair g)) : (bankSwap p 0x12 c).pair g = c.pair g := by
  rw [bankSwap_irq rfl, Core.pair_writeMode, pair_restoreBank]
  rcases hk : groupOf p (modeField c.cpsr) with _ | (k | _)
  · rfl
  · have hne : g ≠ k := by
      rintro rfl
      exact hg hk
    rw [pair_saveBank_pair, if_neg hne]
  · exact pair_saveBank_fiq g c

/-- Settles O38: the switch to IRQ mode, entry's own writes over it, and the prefetch of the vector's instruction. -/
theorem interruptEntrySequence : Obligations.InterruptEntrySequence := by
  intro pf p m c hi hI
  refine ⟨fun hl hb => ?_, fun hp hl => enterInterrupt_of_malformed hi hI hp hl⟩
  refine ⟨_, _, enterInterrupt_of_legal hi hI hl hb, entry_spsrs pf p m c, entry_link pf p m c,
    (entry_reg pf p m c (by decide) (by decide)).trans (reg13_bankSwap_irq hl), fun g hg => ?pair, fun hg => ?fiq,
    modeField_coreAfterEntry pf p m c, ?T, ?I, fun k h5 h7 => cpsr_coreAfterEntry_getLsbD pf p m c h5 h7, fun hp => ?plain,
    fun ho => ?oracle, nFA_irqEntryWrites p c, ?nFA, ?pc, rfl, rfl⟩
  case pair =>
    rw [coreAfterEntry, entry_pair, bankSwap_irq hg]
    simp
  case fiq =>
    have hreg : ∀ j : Fin 16, 8 ≤ j.val → j.val ≤ 12 → (coreAfterEntry pf p m c).reg j = c.bankFiq.low j := by
      intro j h8 h12
      obtain ⟨-, h14⟩ := ne_link_of_val_le_twelve h12
      have h15 : j ≠ 15 := by
        rintro rfl
        exact absurd h12 (by decide)
      rw [coreAfterEntry, entry_reg pf p m c h15 h14, bankSwap_irq hg, Core.reg_writeMode, low_restoreBank_pair _ _ h12,
        (low_fiq_phases c h8 h12).1]
    refine ⟨hreg 8 (by decide) (by decide), hreg 9 (by decide) (by decide), hreg 10 (by decide) (by decide),
      hreg 11 (by decide) (by decide), hreg 12 (by decide) (by decide), ?_⟩
    rw [bankFiq_coreAfterEntry, bankSwap_irq hg]
    rfl
  case T =>
    rw [cpsr_coreAfterEntry]
    exact (flagT_setFlagI _ _).trans (flagT_setFlagT _ _)
  case I =>
    rw [cpsr_coreAfterEntry]
    exact flagI_setFlagI _ _
  case plain =>
    rw [coreAfterEntry_eq_fillLatch, prefetchedMem_irqEntryWrites]
    exact fetch_plain hp (fetchAligned_vector hb)
  case oracle =>
    rw [coreAfterEntry_eq_fillLatch, prefetchedMem_irqEntryWrites]
    exact fetch_oracle (t := false) (.inl ho)
  case nFA =>
    rw [coreAfterEntry_eq_fillLatch, Core.fillLatch_nFA, nFA_irqEntryWrites, BitVec.add_assoc]
    rfl
  case pc =>
    rw [coreAfterEntry_eq_fillLatch, reg_pc_fillLatch, nFA_irqEntryWrites, BitVec.add_assoc]
    rfl

/-- Settles O40: what neither the switch to IRQ mode nor entry's own writes touch. -/
theorem entryKeepsEverythingElse : Obligations.EntryKeepsEverythingElse := by
  intro pf p m m' c d h
  have hkept := enterInterrupt_interface h
  obtain ⟨-, -, rfl, -⟩ := enterInterrupt_accepted h
  have hreg : ∀ j : Fin 16, j.val ≤ 12 →
      (prefetched pf p m (irqEntryWrites c (bankSwap p 0x12 c))).reg j = (bankSwap p 0x12 c).reg j := by
    intro j hj
    refine entry_reg pf p m c ?_ (ne_link_of_val_le_twelve hj).2
    rintro rfl
    exact absurd hj (by decide)
  refine ⟨fun j hj => ?_, fun hg => ⟨?_, fun j _ hj => ?_⟩, fun g hg => ?_, hkept⟩
  · rw [hreg j (by omega), (bankSwap_outside p 0x12 c).low j hj]
  · exact (bankFiq_coreAfterEntry pf p m c).trans (bankFiq_bankSwap_irq hg)
  · rw [hreg j hj, low_bankSwap_irq hg hj]
  · rw [entry_pair, pair_bankSwap_irq hg]

/-! ### The return -/

/-- What the return script leaves: the core switched to the mode of the saved status, with that status word and the
target as the next fetch address (60_exceptions.md R252; 43_dispatch.md R213). -/
theorem run_exceptionReturnScript {pf : Platform} {p : CoreId} {r : HandlerRun} {target : Expr} {a status : Word}
    {old : BitVec 5} {c : Core} (ha : target.eval p r = .ok a) (hs : readSpsr p r.core = .ok status)
    (hc : switchMode pf.malformedMode p status r.core = .ok (old, c)) :
    (exceptionReturnScript target).run pf p r =
      .ok { r with core := { c with cpsr := status, nFA := a },
                   locals := (1, old.setWidth 32) :: (0, status) :: (2, a) :: r.locals } := by
  have hmode : modeField status = modeField c.cpsr := by
    rw [(switchMode_ok hc).2.1, bankSwap_cpsr, modeField_setModeField]
  simp [exceptionReturnScript, writeStatusScript, Script.run, Action.perform, Expr.eval, localValue, ha, hs, hc,
    writeCpsr_same_mode hmode]

theorem currentSlot_irq {p : CoreId} {c : Core} (h : modeField c.cpsr = 0x12#5) : currentSlot p c = some .irq := by
  rw [currentSlot, h]
  cases p <;> rfl

section Return

variable {pf : Platform} {p : CoreId} {m : SharedMemory} {c : Core} {g : Group}
  (hg : groupOf p (modeField c.cpsr) = some g) (hirq : g ≠ .pair .irq)

include hg hirq

/-- The registers after entry and the switch back to the mode interrupted (60_exceptions.md R252). -/
theorem reg_return {j : Fin 16} (hj : j ≠ 15) :
    (restoreBank (some g) (saveBank (some (.pair .irq)) (coreAfterEntry pf p m c))).reg j = c.reg j := by
  have hswap := bankSwap_irq hg
  by_cases h8 : j.val < 8
  · have hlow := ((saveBank_outside (some (.pair .irq)) (coreAfterEntry pf p m c)).trans (restoreBank_outside (some g) _)).low
      j h8
    have hne : j ≠ 14 := by
      rintro rfl
      exact absurd h8 (by decide)
    rw [hlow, coreAfterEntry, entry_reg pf p m c hj hne, (bankSwap_outside p 0x12 c).low j h8]
  · by_cases h12 : j.val ≤ 12
    · cases g with
      | fiq => exact low_there_and_back hirq (.inl rfl) (by omega) h12 (by rw [bankFiq_coreAfterEntry, hswap]; rfl)
      | pair g =>
        rw [low_restoreBank_pair _ _ h12, reg_saveBank_pair, coreAfterEntry,
          entry_reg pf p m c hj (ne_link_of_val_le_twelve h12).2, low_bankSwap_irq (by rw [hg]; simp) h12]
    · have hlink := linkShadows_there_and_back hirq (c := c) (d := coreAfterEntry pf p m c)
        (by rw [linkShadows_coreAfterEntry, hswap, linkShadows_writeMode])
      have hcases : j = 13 ∨ j = 14 := by
        revert j
        decide
      rcases hcases with rfl | rfl
      · exact hlink.1
      · exact hlink.2

end Return

/-- Settles O42: R[14] - 4 is the interrupted instruction, SPSR[IRQ] the interrupted status word, and the switch back
restores from the shadows the switch to IRQ mode saved. -/
theorem returnFromInterruptResumesTheInstruction : Obligations.ReturnFromInterruptResumesTheInstruction := by
  intro pf p m m' c d h hl hne
  obtain ⟨-, -, rfl, rfl⟩ := enterInterrupt_accepted h
  obtain ⟨g, hg⟩ := group_of_legalMode hl
  have hirq : g ≠ .pair .irq := by
    rintro rfl
    exact groupOf_ne_irq p _ hne hg
  have hmode := modeField_coreAfterEntry pf p m c
  have hstatus : readSpsr p (coreAfterEntry pf p m c) = .ok c.cpsr := by
    rw [readSpsr_of_slot (currentSlot_irq hmode), coreAfterEntry, entry_spsrs]
    rfl
  have htarget : ∀ k, (Expr.bin .sub (.reg (.const 14)) (.const 4)).eval p (startRun (coreAfterEntry pf p m c) k) =
      .ok c.pIA := by
    intro k
    have hlink : (coreAfterEntry pf p m c).reg (regNumber 14) = c.pIA + 4 := entry_link pf p m c
    simp only [Expr.eval, startRun, BinOp.apply]
    rw [hlink, BitVec.add_sub_cancel]
  have hswitch := switchMode_of_groups (policy := pf.malformedMode) (v := c.cpsr) hmode (groupOf_irq p) hg
  refine ⟨_, run_exceptionReturnScript (htarget _) hstatus hswitch, rfl, rfl, rfl, fun j hj => reg_return hg hirq hj,
    fun k hk hgk => ?_⟩
  have hpair : (restoreBank (some g) (saveBank (some (.pair .irq)) (coreAfterEntry pf p m c))).pair k = c.pair k := by
    rw [pair_restoreBank, pair_saveBank_pair, if_neg hk, coreAfterEntry, entry_pair, pair_bankSwap_irq hgk]
  exact Eq.trans (by cases k <;> rfl) hpair

/-! ### A masked core, and the exception state -/

/-- A step of a halted core answers a fixed cost, whether it is debug-halted too or not (43_dispatch.md R201, R202). -/
theorem stepCore_halted {s : State} (hi : s.cur.initialised = true) (hw : s.cur.waitingForInterrupt = true) :
    ∃ n, stepCore s = .next { s with result := .cost n } := by
  cases hd : s.platform.debugAttached.get s.current && s.cur.debugHalted with
  | false => exact ⟨_, stepCore_idle hi hd hw⟩
  | true =>
    obtain ⟨ha, hh⟩ := Bool.and_eq_true_iff.mp hd
    exact ⟨_, stepCore_debugHalted hi ha hh⟩

theorem hostEnterInterrupt_masked {s : State} {p : CoreId} (hi : (s.core p).initialised = true)
    (hI : flagI (s.core p).cpsr = true) :
    hostEnterInterrupt s p = .next { s with result := .accepted false } := by
  rw [hostEnterInterrupt, enterInterrupt_masked hi hI]
  exact congrArg _ (State.returningWith_self ..)

theorem hostFlagInterrupt_masked {s : State} {p : CoreId} (hi : (s.core p).initialised = true)
    (hI : flagI (s.core p).cpsr = true) :
    hostFlagInterrupt s p = .next { s with result := .accepted false } := by
  rw [hostFlagInterrupt, flagInterrupt_masked hi hI]
  exact congrArg _ (State.returningWith_self s p _)

/-- Settles O43: both interrupt calls test I before they write, and a halted core's step does not look at I. -/
theorem maskedHaltedCoreHangs : Obligations.MaskedHaltedCoreHangs := by
  intro s p hi hI
  refine ⟨fun rest hcalls => ?_, fun hw => ⟨⟨_, hostFlagInterrupt_masked hi hI, rfl, rfl⟩,
    ⟨_, hostEnterInterrupt_masked hi hI, rfl, rfl⟩, ?_⟩⟩
  · rw [step, nextOperation, hcalls]
    exact hostEnterInterrupt_masked (s := { s with calls := rest }) hi hI
  · obtain ⟨n, hn⟩ := stepCore_halted (s := { s with current := p }) hi hw
    exact ⟨_, hn, rfl, rfl⟩

theorem exceptionState_of_pending {c : Core} (h : c.irqPending = true) : exceptionState c = .irqPending := by
  rw [exceptionState, if_pos h]

theorem exceptionState_of_irq {c : Core} (h : c.irqPending = false) (k : modeField c.cpsr = Mode.irq.bits) :
    exceptionState c = .inException := by
  rw [exceptionState, if_neg (by simp [h]), if_pos k]

theorem exceptionState_of_other {c : Core} (h : c.irqPending = false) (k : modeField c.cpsr ≠ Mode.irq.bits) :
    exceptionState c = .running := by
  rw [exceptionState, if_neg (by simp [h]), if_neg k]

/-- Settles O44: an accepted request is held, an accepted entry clears it in IRQ mode, reset clears it in SYSTEM mode. -/
theorem exceptionStateFollowsTheOperations : Obligations.ExceptionStateFollowsTheOperations := by
  refine ⟨fun c d h => ?_, fun pf p m m' c d h => ?_, fun pf p m m' a c d h => ?_⟩
  · obtain ⟨-, ⟨-, hfalse, -⟩ | ⟨-, -, rfl⟩⟩ := flagInterrupt_ok h
    · cases hfalse
    · exact exceptionState_of_pending rfl
  · obtain ⟨-, -, rfl, -⟩ := enterInterrupt_accepted h
    exact exceptionState_of_irq rfl (modeField_coreAfterEntry pf p m c)
  · obtain ⟨rfl, -⟩ := resetCore_ok h
    exact exceptionState_of_other rfl (by decide : modeField 0x0000001F ≠ Mode.irq.bits)

end Sys2Proof.Machine
end

section
/-! Debug port, never-reset cores, reset and the host's store (10_state.md section 6; 60_exceptions.md section 7;
70_reset_and_hazards.md section 1; 20_memory.md section 3). -/

namespace Sys2Proof.Machine

open Sys2Proof.Safety

/-! ### The debug port -/

section DebugPort

variable {s : State} {p : CoreId} (hi : (s.core p).initialised = true)
  (ha : s.platform.debugAttached.get p = true)

include hi ha

theorem debugPort_attached : debugPort s p = .ok (s.core p) := by
  rw [debugPort, if_neg (by simp [hi]), if_pos ha]

theorem debugReads_of_field {f : CoreField} {v : FieldValue} (h : (s.core p).field p f = some v) :
    DebugReads s p f v := by
  rw [DebugReads, hostCall, debugRead, debugPort_attached hi ha]
  simp only [h]

theorem debugRead_absent {f : CoreField} (h : (s.core p).field p f = none) :
    hostCall (.debugRead p f) s = .refused .absentStorage := by
  rw [hostCall, debugRead, debugPort_attached hi ha]
  simp only [h]

theorem debugWrite_of_ok {f : CoreField} {v : Word} {c : Core} (h : debugWriteField (s.core p) f v = .ok c) :
    hostCall (.debugWrite p f v) s = .next (s.returning p c .nothing) := by
  rw [hostCall, debugWrite, debugPort_attached hi ha]
  simp only [h]

theorem debugWrite_of_error {f : CoreField} {v : Word} {e : Stop} (h : debugWriteField (s.core p) f v = .error e) :
    hostCall (.debugWrite p f v) s = stopped e := by
  rw [hostCall, debugWrite, debugPort_attached hi ha]
  simp only [h]

theorem debugHalt_attached (on : Bool) :
    hostCall (.debugHalt p on) s = .next (s.returning p { s.core p with debugHalted := on } .nothing) := by
  rw [hostCall, debugHalt, debugPort_attached hi ha]

end DebugPort

theorem debugWriteField_reg (c : Core) {n : Fin 16} (v : Word) (h : n ≠ 15) :
    debugWriteField c (.reg n) v = .ok (c.setReg n v) := if_pos (by omega)

/-- The port writes no component but R[0] to R[14] (60_exceptions.md R262). -/
theorem debugWriteField_refused (c : Core) {f : CoreField} (v : Word) (h : ∀ n : Fin 16, n ≠ 15 → f ≠ .reg n) :
    debugWriteField c f v = .error (.fault .debugWriteRefused) := by
  cases f with
  | reg n =>
    have h15 : n = 15 := by_contra fun hn => h n hn rfl
    subst h15
    rfl
  | _ => rfl

/-- Settles O48: a read answers the component by name, a write of a general register but R[15] is a register write, and
core 1 has no fast-interrupt component. -/
theorem debugPortReadsAllAndWritesGeneralRegisters : Obligations.DebugPortReadsAllAndWritesGeneralRegisters := by
  intro s p hi ha
  have reads : ∀ {f : CoreField} {v : FieldValue}, (s.core p).field p f = some v → DebugReads s p f v :=
    fun h => debugReads_of_field hi ha h
  refine ⟨fun n v hn => debugWrite_of_ok hi ha (debugWriteField_reg _ v hn),
    fun f v hf => debugWrite_of_error hi ha (debugWriteField_refused _ v hf), fun n => reads rfl, reads rfl, reads rfl,
    reads rfl, reads rfl, reads rfl, fun g => ⟨reads rfl, reads rfl⟩, fun hp => ?_, fun hp => ?_, reads rfl, reads rfl,
    reads rfl, reads rfl, reads rfl, reads rfl, fun k => reads rfl, reads rfl, reads rfl, reads rfl,
    debugHalt_attached hi ha⟩
  · subst hp
    exact ⟨reads rfl, fun k => reads rfl⟩
  · subst hp
    exact ⟨debugRead_absent hi ha rfl, fun k => debugRead_absent hi ha rfl⟩

/-! ### A core that was never reset -/

section NeverReset

variable {s : State} {p : CoreId} (hi : (s.core p).initialised = false)

include hi

theorem debugPort_neverReset : debugPort s p = .error (.fault .notReset) := if_pos hi

theorem flagInterrupt_neverReset : flagInterrupt (s.core p) = .error (.fault .notReset) := if_pos hi

theorem enterInterrupt_neverReset (pf : Platform) (m : SharedMemory) :
    enterInterrupt pf p m (s.core p) = .error (.fault .notReset) := if_pos hi

end NeverReset

/-- Settles O49: every operation of a core but reset tests `initialised` before anything else. -/
theorem neverResetCoreOnlyResets : Obligations.NeverResetCoreOnlyResets := by
  intro s p hi
  refine ⟨if_pos hi, ?_, ?_, fun on => ?_, fun f => ?_, fun f v => ?_⟩
  · rw [hostCall, hostFlagInterrupt, flagInterrupt_neverReset hi]
    rfl
  · rw [hostCall, hostEnterInterrupt, enterInterrupt_neverReset hi]
    rfl
  · rw [hostCall, debugHalt, debugPort_neverReset hi]
    rfl
  · rw [hostCall, debugRead, debugPort_neverReset hi]
    rfl
  · rw [hostCall, debugWrite, debugPort_neverReset hi]
    rfl

/-! ### Reset -/

theorem flagT_resetWrites (p : CoreId) (base entry : Word) (c : Core) :
    flagT (resetWrites p base entry c).cpsr = false := (by decide : flagT 0x0000001F = false)

/-- The handles reset installs (10_state.md R43; D32). -/
theorem resetHandles_get (p : CoreId) (k : Fin 16) :
    (resetHandles p)[k] = if k = 15 ∧ p = .primary then some (Config.createSystemControlCoprocessor p) else none := by
  cases p with
  | secondary => simp [resetHandles, CoreId.hasSysctl]
  | primary =>
    by_cases hk : k = 15
    · subst hk
      simp [resetHandles, CoreId.hasSysctl]
    · have hne : (15 : Nat) ≠ k.val := fun e => hk (Fin.ext e.symm)
      simp [resetHandles, CoreId.hasSysctl, hk, hne]

theorem reg_resetWrites (p : CoreId) (base entry : Word) (c : Core) (j : Fin 16) :
    (resetWrites p base entry c).reg j = 0#32 := by simp [resetWrites, Core.reg]

/-- Reset where its prefetch is made: the latch is filled from the entry address in A32 (70_reset_and_hazards.md R292). -/
theorem resetCore_of_aligned (pf : Platform) (p : CoreId) (m : SharedMemory) {entry : Word} (c : Core)
    (h : fetchAligned false entry = true) :
    resetCore pf p m entry c =
      .ok ((resetWrites p (pf.vectorBase.get p) entry c).fillLatch (fetchLatched pf p m false entry) (instrWidth false),
        fetchLeaves pf p m false entry) := by
  have hT := flagT_resetWrites p (pf.vectorBase.get p) entry c
  have ha : fetchAllowed pf (resetWrites p (pf.vectorBase.get p) entry c) = true :=
    fetchAllowed_of_aligned (by rw [hT]; exact h)
  rw [resetCore, prefetch_by_T p m hT ha]
  rfl

theorem resetCore_of_misaligned {pf : Platform} (p : CoreId) (m : SharedMemory) {entry : Word} (c : Core)
    (hp : pf.misalignedFetch = .fault) (h : fetchAligned false entry = false) :
    resetCore pf p m entry c = .error (.fault .misalignedFetch) := by
  have ha : fetchAllowed pf (resetWrites p (pf.vectorBase.get p) entry c) = false := by
    rw [fetchAllowed, hp, flagT_resetWrites]
    exact h
  rw [resetCore, prefetch_of_not_allowed ha]

/-- Settles O50: every field reset writes, and the latch its prefetch fills. -/
theorem resetLeavesTheStatedValues : Obligations.ResetLeavesTheStatedValues := by
  intro pf p m entry c
  refine ⟨fun h hp => resetCore_of_misaligned p m c hp ?_, fun h => ?_⟩
  · rwa [← Bool.not_eq_true, fetchAligned_word]
  · have ha : fetchAligned false entry = true := (fetchAligned_word entry).mpr h
    refine ⟨_, _, resetCore_of_aligned pf p m c ha, fun j hj => ?_, reg_pc_fillLatch .., rfl, fun slot => ?_, fun g => ?_,
      fun k => ?_, fun hp => fetch_plain hp ha, fun ho => fetch_oracle (t := false) (.inl ho), rfl, rfl, rfl, rfl, rfl,
      fun k => resetHandles_get p k, rfl, rfl, rfl⟩
    · rw [Core.reg_fillLatch, if_neg hj, reg_resetWrites]
    · cases slot <;> rfl
    · cases g <;> rfl
    · cases k <;> rfl

/-- Settles O52: the two reset calls evaluated from construction. -/
theorem bringUpEndsInTheResetState : Obligations.BringUpEndsInTheResetState := ⟨_, rfl, rfl⟩

/-! ### A host's store -/

/-- Settles O54: a store writes one byte of memory, and the latch is a field of a core. -/
theorem storeDoesNotChangeTheLatchedInstruction : Obligations.StoreDoesNotChangeTheLatchedInstruction :=
  fun _ a v hwf => ⟨_, rfl, rfl, rfl, Memory.byteAt_setByte_same a v hwf, fun _ hb => Memory.byteAt_setByte_other v hb⟩

end Sys2Proof.Machine
end

section
/-! The condition evaluator: the fourteen standard conditions, and the printed table (42_condition.md sections 2
and 3). -/

namespace Sys2Proof.Machine

/-- A condition's formula, with the flags read from the status word itself (42_condition.md R170). -/
theorem passes_of_flags {cpsr : Word} {n z c v : Bool} (hn : cpsr.getLsbD 31 = n) (hz : cpsr.getLsbD 30 = z)
    (hc : cpsr.getLsbD 29 = c) (hv : cpsr.getLsbD 28 = v) (k : Cond) :
    passes k cpsr = match k with
      | .eq => z
      | .ne => !z
      | .cs => c
      | .cc => !c
      | .mi => n
      | .pl => !n
      | .vs => v
      | .vc => !v
      | .hi => c && !z
      | .ls => !c || z
      | .ge => n == v
      | .lt => n != v
      | .gt => !z && n == v
      | .le => z || n != v
      | .al => true
      | .nv => false := by
  have h3 : (flagsNibble cpsr).getLsbD 3 = n := (getLsbD_flagsNibble cpsr 3 (by decide)).trans hn
  have h2 : (flagsNibble cpsr).getLsbD 2 = z := (getLsbD_flagsNibble cpsr 2 (by decide)).trans hz
  have h1 : (flagsNibble cpsr).getLsbD 1 = c := (getLsbD_flagsNibble cpsr 1 (by decide)).trans hc
  have h0 : (flagsNibble cpsr).getLsbD 0 = v := (getLsbD_flagsNibble cpsr 0 (by decide)).trans hv
  cases k <;> simp only [passes, condHolds, h3, h2, h1, h0]

/-- Settles O7: each formula reads the flags of the nibble, which are bits 31 to 28. -/
theorem standardConditionsFollowTheFlags : Obligations.StandardConditionsFollowTheFlags := by
  refine ⟨by decide, fun cpsr n z c v hn hz hc hv => ?_⟩
  have h := passes_of_flags hn hz hc hv
  exact ⟨h .ne, h .cs, h .cc, h .mi, h .pl, h .vs, h .vc, h .hi, h .ls, h .ge, h .lt, h .gt, h .le, h .al⟩

/-- The pass masks are the formulas, tabulated: by the sixteen conditions and the sixteen flags nibbles (42_condition.md
R189). -/
theorem condHolds_eq_condMask : ∀ (c : Cond) (f : BitVec 4), condHolds c f = (condMask c).getLsbD f.toNat := by
  intro c
  cases c <;> decide

/-- The rows of the printed table in the order of the condition field (42_condition.md section 3). -/
theorem condMask_condOfField : ∀ field : BitVec 4, condMask (condOfField field) =
    ([0xF0F0, 0x0F0F, 0xCCCC, 0x3333, 0xFF00, 0x00FF, 0xAAAA, 0x5555, 0x0C0C, 0xF3F3, 0xAA55, 0x55AA, 0x0A05, 0xF5FA,
      0xFFFF, 0x0000] : List (BitVec 16)).getD field.toNat 0 := by decide

/-- Settles O8: the evaluator is the mask of its condition at the flags nibble, and the mask is the printed row. -/
theorem conditionTableMatchesThePrintedMasks : Obligations.ConditionTableMatchesThePrintedMasks := by
  intro field cpsr
  refine ⟨?_, condMask_condOfField field⟩
  rw [← condMask_condOfField]
  exact condHolds_eq_condMask (condOfField field) (flagsNibble cpsr)

end Sys2Proof.Machine
end
